-- ==== Sys2Proof/Word.lean ====
section
/-! DEFINITION. The words of the MWM (00_scope.md R6, R10): every value is unsigned, bit 0 is the least significant. -/

namespace Sys2Proof

/-- A device cell, a data frame, an operand of a command (BYTE_WIDTH = 8, R6). -/
abbrev Byte := BitVec 8

/-- A host-visible register (10_state.md R21). -/
abbrev Word := BitVec 32

/-- The index of a host register (`bus_idx`, 20_memory.md R63). -/
abbrev RegIdx := BitVec 3

/-- A device address (DEV_ADDR_BITS = 6, R6). -/
abbrev DevAddr := BitVec 6

/-- A 9-bit command frame (CMD_FRAME_WIDTH = 9, R6). -/
abbrev Frame := BitVec 9

/-- An elaboration-time header parameter (R7, 30_encoding.md R110). -/
abbrev Header := BitVec 16

/-- The one-bit word of a level. -/
abbrev bit (b : Bool) : BitVec 1 := BitVec.ofBool b

end Sys2Proof
end

