-- ==== Sys2Proof/Config.lean ====
section
/-! DEFINITION. What is fixed when the hardware is built (00_scope.md R6, R7), and the free values: levels and words the
spec leaves open, opaque constants without a body, so that no proof can lean on one. -/

namespace Sys2Proof

/-- CMD_FRAME_WIDTH (R6). -/
def Config.cmdFrameWidth : Nat := 9

/-- DATA_FRAME_WIDTH (R6). -/
def Config.dataFrameWidth : Nat := 8

/-- READ_BITS (R6): sampled bits per read. -/
def Config.readBits : Nat := 8

/-- The number of device cells: addresses 0 to 63 (R6, DEV_ADDR_BITS = 6). -/
def Config.devCells : Nat := 64

/-- SYNC_STAGES (R7), fixed: the flip-flops of the DO synchronizer, `do_s1` and `do_s2` of the state. -/
def Config.syncStages : Nat := 2

/-- The elaboration-time parameters of R7. The model takes each as an argument: they are data of the state that no
step changes, and the MWM's rules hold for all their values (93_implementation_defined.md section 3). The defaults are
the spec's choice (D8, D9; X1, X2). -/
structure Params where
  /-- READ_HDR -/
  readHdr : Header := 0x180#16
  /-- WRITE_HDR -/
  writeHdr : Header := 0x140#16
  /-- EWEN_FRAME -/
  ewenFrame : Header := 0x130#16
  /-- EWDS_FRAME -/
  ewdsFrame : Header := 0x100#16
  /-- CS_ACTIVE_HIGH: the CS pin is high when CS is asserted -/
  csActiveHigh : Bool := true
deriving DecidableEq, Repr

/-- The parameters at their defaults (R7). -/
def Params.default : Params := {}

/-- DO_FLOAT (R9, D36, U1): the DO level of a cycle in which no device drives the line. A FREE VALUE of each cycle. -/
opaque Config.doFloat : Nat → Bool

/-- A device cell in a cycle in which the outcome of a write is unknown (R241, U6), given the cycle and the cell's address. A
FREE VALUE of each cycle and cell (log entry 21). -/
opaque Config.openCell : Nat → Nat → Byte

/-- What `do_s1` resolves to when DO changes asynchronously near the edge that ends a cycle (R242, U7): the old level or the
new one. A FREE VALUE of each cycle. -/
opaque Config.metastable : Nat → Bool

/-- `bus_rdata` in a cycle that carries a host WRITE: R61 states it for a read and for `bus_en` = 0 only. A FREE VALUE of
each cycle (DESIGN CHOICE, log entry 6). -/
opaque Config.writeCycleRdata : Nat → Word

/-- F_CLK (D37, U16, OPEN): the frequency of `clk` in Hz. Only a real-time figure needs it (R246). A FREE VALUE. -/
opaque Config.fClk : Nat

end Sys2Proof
end

