-- ==== Sys2Proof/Syntax.lean ====
section
/-! DEFINITION. The instructions: one constructor for each row of spec/opcode_table.json, and the host assembly of
30_encoding.md R112 and R113 above them. -/

namespace Sys2Proof

/-- One constructor per row of the opcode table. The first eight are the CMD32 words, selected by OP alone (R102); every
one carries the ADDR and DATA fields of its word, since both are latched (R39) and read back (R23) even where the command
does not use them. `wr` and `rd` are the two HOSTBUS cycles (R112). The last five are the wire frames (R105, R107). -/
inductive Instr where
  /-- INIT, OP = 0 (R173) -/
  | init (addr data : Byte)
  /-- READ, OP = 1 (R161) -/
  | read (addr data : Byte)
  /-- WRITE, OP = 2 (R164) -/
  | write (addr data : Byte)
  /-- EWEN, OP = 3 (R166) -/
  | ewen (addr data : Byte)
  /-- EWDS, OP = 4 (R167) -/
  | ewds (addr data : Byte)
  /-- WRITEB, OP = 5 (R168) -/
  | writeb (addr data : Byte)
  /-- RESERVED6, OP = 6 (R172) -/
  | reserved6 (addr data : Byte)
  /-- RESERVED7, OP = 7 (R172) -/
  | reserved7 (addr data : Byte)
  /-- WR: a host bus write (R62) -/
  | wr (idx : RegIdx) (wdata : Word)
  /-- RD: a host bus read (R61) -/
  | rd (idx : RegIdx)
  /-- FRAME_READ: the READ frame of a cell (R105) -/
  | frameRead (a : DevAddr)
  /-- FRAME_WRITE: the WRITE frame of a cell (R105) -/
  | frameWrite (a : DevAddr)
  /-- FRAME_EWEN: erase/write enable (R105) -/
  | frameEwen
  /-- FRAME_EWDS: erase/write disable (R105) -/
  | frameEwds
  /-- FRAME_DATA: written data on DI, or read data on DO (R107) -/
  | frameData (d : Byte)
deriving DecidableEq, Repr

/-- The register names of the host assembly (R112). -/
inductive RegName where
  | cmd | status | rdata | timing | pollMax | config
deriving DecidableEq, Repr

/-- `idx(reg)` of R112. -/
def RegName.idx : RegName → RegIdx
  | .cmd => 0#3
  | .status => 1#3
  | .rdata => 2#3
  | .timing => 3#3
  | .pollMax => 4#3
  | .config => 5#3

/-- A line of host assembly (R112, R113), its operands numbers as they are written. -/
inductive Pseudo where
  | wr (reg : RegName) (imm : Nat)
  | rd (reg : RegName)
  | idle (n : Nat)
  | init
  | read (a : Nat)
  | write (a d : Nat)
  | ewen
  | ewds
  | writeb (a d : Nat)
  | setTime (h s c : Nat)
  | clrSt
  | waitIdle
deriving DecidableEq, Repr

end Sys2Proof
end

