-- ==== Sys2Proof/WellFormed.lean ====
section
/-! DEFINITION. Which terms of the syntax are well formed. The operands of `Instr` are bit vectors of exactly the widths
the formats give them (30_encoding.md R101, R105, R112), so the type itself carries its well-formedness; the operands of
the host assembly are numbers, and R112 and R113 give their widths. -/

namespace Sys2Proof

/-- Every term of `Instr` fits its format: the widths are in the types. Listed constructor by constructor, so that a
constructor added later has to be looked at. -/
def Instr.wellFormed : Instr → Bool
  | .init _ _ | .read _ _ | .write _ _ | .ewen _ _ | .ewds _ _ | .writeb _ _ | .reserved6 _ _ | .reserved7 _ _ => true
  | .wr _ _ | .rd _ => true
  | .frameRead _ | .frameWrite _ | .frameEwen | .frameEwds | .frameData _ => true

/-- A number that fits `w` bits. -/
def fits (w n : Nat) : Bool := n < 2 ^ w

/-- R112: an immediate has 32 bits. R113: `a` and `d` are 8-bit immediates; `h`, `s` and `c` fit the fields of TIMING
(10_state.md R32). -/
def Pseudo.wellFormed : Pseudo → Bool
  | .wr _ imm => fits 32 imm
  | .rd _ => true
  | .idle _ => true
  | .init => true
  | .read a => fits 8 a
  | .write a d => fits 8 a && fits 8 d
  | .ewen => true
  | .ewds => true
  | .writeb a d => fits 8 a && fits 8 d
  | .setTime h s c => fits 16 h && fits 8 s && fits 8 c
  | .clrSt => true
  | .waitIdle => true

end Sys2Proof
end

