-- ==== Sys2Proof/Decode.lean ====
section
/-! DEFINITION. The four formats (30_encoding.md R100), the decoder and the encoder, written from the same tables
(R101, R102, R105, R112), and both on bytes. -/

namespace Sys2Proof

/-- The bits of one instruction in its format (R100). -/
inductive Raw where
  /-- CMD32: a word written to CMD (R101) -/
  | cmd32 (w : BitVec 32)
  /-- HOSTBUS: bit 35 `bus_we`, bits 34:32 `bus_idx`, bits 31:0 `bus_wdata`, with `bus_en` = 1 (R112, opcode table) -/
  | hostbus (w : BitVec 36)
  /-- WIRE9: a command frame (R105) -/
  | wire9 (w : BitVec 9)
  /-- WIRE8: a data frame (R107) -/
  | wire8 (w : BitVec 8)
deriving DecidableEq, Repr

/-- Why bits are no instruction. -/
inductive DecodeError where
  /-- a 9-bit frame that is none of the four of R105 (aliased addresses, R106) -/
  | unknownFrame
  /-- a length that is none of the four formats -/
  | badLength
  /-- bits set above the width of the format -/
  | badPadding
deriving DecidableEq, Repr

/-- What a decoder answers: an instruction, or why there is none. -/
inductive Decoded where
  | instr (i : Instr)
  | error (e : DecodeError)
deriving DecidableEq, Repr

/-- The instruction of a decoder's answer. -/
def Decoded.toOption : Decoded → Option Instr
  | .instr i => some i
  | .error _ => none

/-! ## Decoding -/

/-- R101: OP = bits [2:0]. -/
def cmdOp (w : BitVec 32) : BitVec 3 := w.extractLsb' 0 3

/-- R101: ADDR = bits [15:8]. -/
def cmdAddr (w : BitVec 32) : Byte := w.extractLsb' 8 8

/-- R101: DATA = bits [23:16]. -/
def cmdData (w : BitVec 32) : Byte := w.extractLsb' 16 8

/-- R102: OP alone selects the command; the reserved bits [7:3] and [31:24] take no part (R103). -/
def decodeCmd32 (w : BitVec 32) : Instr :=
  match (cmdOp w).toNat with
  | 0 => .init (cmdAddr w) (cmdData w)
  | 1 => .read (cmdAddr w) (cmdData w)
  | 2 => .write (cmdAddr w) (cmdData w)
  | 3 => .ewen (cmdAddr w) (cmdData w)
  | 4 => .ewds (cmdAddr w) (cmdData w)
  | 5 => .writeb (cmdAddr w) (cmdData w)
  | 6 => .reserved6 (cmdAddr w) (cmdData w)
  | _ => .reserved7 (cmdAddr w) (cmdData w)

/-- R112: bit 35 is `bus_we`; a read ignores its data bits (opcode table, row RD). -/
def decodeHostbus (w : BitVec 36) : Instr :=
  if w.getLsbD 35 then .wr (w.extractLsb' 32 3) (w.extractLsb' 0 32) else .rd (w.extractLsb' 32 3)

/-- R105: the start bit and opcode are bits [8:6]; the READ and WRITE frames carry an address in bits [5:0], the other two
are whole constants. Every other pattern is refused by name. -/
def decodeWire9 (w : BitVec 9) : Decoded :=
  if w.extractLsb' 6 3 = 0b110#3 then .instr (.frameRead (w.extractLsb' 0 6))
  else if w.extractLsb' 6 3 = 0b101#3 then .instr (.frameWrite (w.extractLsb' 0 6))
  else if w = 0b100110000#9 then .instr .frameEwen
  else if w = 0b100000000#9 then .instr .frameEwds
  else .error .unknownFrame

/-- The decoder over the four formats. -/
def decode : Raw → Decoded
  | .cmd32 w => .instr (decodeCmd32 w)
  | .hostbus w => .instr (decodeHostbus w)
  | .wire9 w => decodeWire9 w
  | .wire8 w => .instr (.frameData w)

/-! ## Bytes

The spec gives the host bus no byte addressing and no byte order (20_memory.md R65). A word is laid out here with its least
significant byte first, and its length names its format (DESIGN CHOICE, log entry 5). -/

/-- The `k` lowest bytes of a number, the lowest first. -/
def bytesOf : Nat → Nat → List Byte
  | 0, _ => []
  | k + 1, n => BitVec.ofNat 8 n :: bytesOf k (n / 256)

/-- The number whose bytes, the lowest first, are given. -/
def ofBytes : List Byte → Nat
  | [] => 0
  | b :: r => b.toNat + 256 * ofBytes r

/-- The format of so many bytes, its padding bits 0. -/
def rawOfBytes (bs : List Byte) : Option Raw :=
  match bs.length with
  | 1 => some (.wire8 (BitVec.ofNat 8 (ofBytes bs)))
  | 2 => if ofBytes bs < 2 ^ 9 then some (.wire9 (BitVec.ofNat 9 (ofBytes bs))) else none
  | 4 => some (.cmd32 (BitVec.ofNat 32 (ofBytes bs)))
  | 5 => if ofBytes bs < 2 ^ 36 then some (.hostbus (BitVec.ofNat 36 (ofBytes bs))) else none
  | _ => none

/-- The decoder on bytes, total: any other length and any set padding bit is refused by name. -/
def decodeBytes (bs : List Byte) : Decoded :=
  match rawOfBytes bs with
  | some r => decode r
  | none => if bs.length = 2 ∨ bs.length = 5 then .error .badPadding else .error .badLength

/-- The host's question: the instruction whose bits are `w`, numbered as the opcode table numbers them. -/
def decodeTableWord (nbits w : Nat) : Option Instr :=
  (decodeBytes (bytesOf ((nbits + 7) / 8) w)).toOption

/-! ## Encoding -/

/-- R101: `{8'b0, DATA, ADDR, 5'b0, OP}`, the reserved bits 0. -/
def cmdWord (op : BitVec 3) (addr data : Byte) : BitVec 32 := 0#8 ++ data ++ addr ++ 0#5 ++ op

/-- R112: a host bus write cycle. -/
def busWriteBits (idx : RegIdx) (wdata : Word) : BitVec 36 := 1#1 ++ idx ++ wdata

/-- R112: a host bus read cycle; the ignored data bits are 0. -/
def busReadBits (idx : RegIdx) : BitVec 36 := 0#1 ++ idx ++ 0#32

/-- The encoder over the four formats. -/
def encode : Instr → Raw
  | .init a d => .cmd32 (cmdWord 0#3 a d)
  | .read a d => .cmd32 (cmdWord 1#3 a d)
  | .write a d => .cmd32 (cmdWord 2#3 a d)
  | .ewen a d => .cmd32 (cmdWord 3#3 a d)
  | .ewds a d => .cmd32 (cmdWord 4#3 a d)
  | .writeb a d => .cmd32 (cmdWord 5#3 a d)
  | .reserved6 a d => .cmd32 (cmdWord 6#3 a d)
  | .reserved7 a d => .cmd32 (cmdWord 7#3 a d)
  | .wr idx v => .hostbus (busWriteBits idx v)
  | .rd idx => .hostbus (busReadBits idx)
  | .frameRead a => .wire9 (0b110#3 ++ a)
  | .frameWrite a => .wire9 (0b101#3 ++ a)
  | .frameEwen => .wire9 0b100110000#9
  | .frameEwds => .wire9 0b100000000#9
  | .frameData d => .wire8 d

/-- The bytes of a format's bits. -/
def Raw.bytes : Raw → List Byte
  | .cmd32 w => bytesOf 4 w.toNat
  | .hostbus w => bytesOf 5 w.toNat
  | .wire9 w => bytesOf 2 w.toNat
  | .wire8 w => bytesOf 1 w.toNat

/-- The encoder on bytes. -/
def encodeBytes (i : Instr) : List Byte := (encode i).bytes

end Sys2Proof
end

