-- ==== Sys2Proof/Machine/State.lean ====
section
/-! DEFINITION. The state of the machine as plain data (10_state.md, 20_memory.md section 5), why a step may stop, and the
state right after reset (70_reset_and_hazards.md R231). The three agents of 00_scope.md R16 stand side by side: the MWM, the
host (its script) and the environment. -/

namespace Sys2Proof.Machine

/-! ## The MWM -/

/-- The phase marker within the current cell or slot (R44): which action comes next when the delay counter runs out. -/
inductive Phase where
  /-- no micro-op is running -/
  | idle
  /-- CS_ON or CS_OFF waits out T_CS (R131, R132) -/
  | hold
  /-- a cell waits out T_SU before CLK rises (R134, R138) -/
  | setup
  /-- the first half of a pulse or slot, before CLK falls (R133, R141) -/
  | high
  /-- the second half of a pulse or slot, before the cell or slot ends -/
  | low
deriving DecidableEq, Repr

/-- The host-visible registers (10_state.md section 2). BUSY and the line mirrors of STATUS stand where the sequencer keeps
them. -/
structure HostRegs where
  /-- CMD, the last accepted command word with its reserved bits 0 (R23) -/
  cmd : Word
  /-- STATUS.DONE (R25) -/
  done : Bool
  /-- STATUS.TIMEOUT (R26) -/
  timeout : Bool
  /-- STATUS.ILLEGAL (R27) -/
  illegal : Bool
  /-- STATUS.DROPPED (R28) -/
  dropped : Bool
  /-- RDATA.DATA (R31) -/
  rdata : Byte
  /-- TIMING.T_HALF (R32) -/
  tHalf : BitVec 16
  /-- TIMING.T_SU (R32) -/
  tSu : BitVec 8
  /-- TIMING.T_CS (R32) -/
  tCs : BitVec 8
  /-- POLL_MAX.COUNT (R33) -/
  pollMax : Word
  /-- CONFIG.POLL_CLK (R34) -/
  pollClk : Bool
deriving DecidableEq, Repr

/-- The working registers, latched when a command is accepted (R39). -/
structure Work where
  /-- `w_op` -/
  op : BitVec 3
  /-- `w_addr` -/
  addr : Byte
  /-- `w_data` -/
  data : Byte
  /-- `w_th` -/
  th : BitVec 16
  /-- `w_su` -/
  su : BitVec 8
  /-- `w_cs` -/
  cs : BitVec 8
  /-- `w_pmax` -/
  pmax : Word
  /-- `w_pclk` -/
  pclk : Bool
deriving DecidableEq, Repr

/-- The sequencer: its control state, the line registers only it writes (R36), the working registers and the datapath
(R39 to R44). -/
structure Seq where
  /-- `busy`, STATUS.BUSY (R24, R43) -/
  busy : Bool
  /-- `cs_q`, the logical chip-select (R36) -/
  csQ : Bool
  /-- `clk_q` (R36) -/
  clkQ : Bool
  /-- `di_q` (R36) -/
  diQ : Bool
  /-- `w_op` to `w_pclk` (R39) -/
  work : Work
  /-- `acc`, the read accumulator (R40) -/
  acc : Byte
  /-- `sh_val`, the frame being sent (R41) -/
  shVal : Frame
  /-- `bit_idx`, the index of the bit being presented (R41) -/
  bitIdx : BitVec 4
  /-- `slot_ctr`, the poll slots completed (R42) -/
  slotCtr : Word
  /-- `timed_out` (R42) -/
  timedOut : Bool
  /-- `upc`, the index of the micro-op that executes (R43) -/
  upc : BitVec 4
  /-- `dly`, the edges left until the next action; hidden (R44) -/
  dly : BitVec 17
  /-- the phase marker; hidden (R44) -/
  phase : Phase
  /-- the loop index of RECV8 (R139), the MODEL's own hidden counter (log entry 7) -/
  cell : BitVec 4
deriving DecidableEq, Repr

/-- The registers of one MWM, in the groups of R20. -/
structure Mwm where
  host : HostRegs
  seq : Seq
  /-- `do_s1` (R38) -/
  doS1 : Bool
  /-- `do_s2` (R38) -/
  doS2 : Bool
deriving DecidableEq, Repr

/-- The host-visible registers at reset (R231). -/
def HostRegs.reset : HostRegs where
  cmd := 0#32
  done := false
  timeout := false
  illegal := false
  dropped := false
  rdata := 0#8
  tHalf := 65535#16
  tSu := 255#8
  tCs := 255#8
  pollMax := 0xFFFFFFFF#32
  pollClk := false

/-- The working registers at reset (R231). -/
def Work.reset : Work where
  op := 0#3
  addr := 0#8
  data := 0#8
  th := 0#16
  su := 0#8
  cs := 0#8
  pmax := 0#32
  pclk := false

/-- The sequencer at reset (R231): idle, the lines at their idle levels. -/
def Seq.reset : Seq where
  busy := false
  csQ := false
  clkQ := false
  diQ := false
  work := Work.reset
  acc := 0#8
  shVal := 0#9
  bitIdx := 0#4
  slotCtr := 0#32
  timedOut := false
  upc := 0#4
  dly := 0#17
  phase := .idle
  cell := 0#4

/-- Every register at its reset value (R231). -/
def Mwm.reset : Mwm where
  host := HostRegs.reset
  seq := Seq.reset
  doS1 := false
  doS2 := false

/-! ## The environment (20_memory.md section 5) -/

/-- The device cells: pairs of an address and a byte, addresses strictly rising, no byte equal to what an unlisted cell
reads as (the operations and the form are in Ops.lean). -/
abbrev Memory := List Host.Cell

/-- DEV_BUSY_MODE (R9): what the device's busy time counts. -/
inductive BusyMode where
  | cycles
  | pulses
deriving DecidableEq, Repr

/-- The phase of the reference device (R75). -/
inductive DevPhase where
  | idle
  | cmdIn
  | readOut
  | wData
  | waitCs
  | ignore
deriving DecidableEq, Repr

/-- The reference device model (R75), its two environment parameters, and the levels it saw in the cycle before (R76). -/
structure Device where
  /-- DEV_BUSY (R9) -/
  devBusy : Nat
  /-- DEV_BUSY_MODE (R9) -/
  mode : BusyMode
  mem : Memory
  wen : Bool
  phase : DevPhase
  /-- bits shifted in the current phase -/
  n : Nat
  shreg : Frame
  a : DevAddr
  d : Byte
  /-- read pulses -/
  k : Nat
  snap : Byte
  busy : Bool
  busyRem : Nat
  pendA : DevAddr
  pendD : Byte
  /-- cs(c−1), the logical level (R76) -/
  csPrev : Bool
  /-- clk(c−1) (R76) -/
  clkPrev : Bool
deriving DecidableEq, Repr

/-- The device at power-up (R75): `mem` = DEV_MEM_INIT, `wen` = 0, `phase` = IDLE, `busy` = 0, every other field 0. The
levels before power-up are those of idle lines (DESIGN CHOICE, log entry 9). -/
def Device.powerUp (devBusy : Nat) (mode : BusyMode) (memInit : Memory) : Device where
  devBusy := devBusy
  mode := mode
  mem := memInit
  wen := false
  phase := .idle
  n := 0
  shreg := 0#9
  a := 0#6
  d := 0#8
  k := 0
  snap := 0#8
  busy := false
  busyRem := 0
  pendA := 0#6
  pendD := 0#8
  csPrev := false
  clkPrev := false

/-- What drives DO: the reference device (R75 to R86), nothing (R87), or a device stuck busy (R87). -/
inductive EnvKind where
  | reference
  | absent
  | stuckBusy
deriving DecidableEq, Repr

/-- The device's datasheet minima, in cycles of `clk`, that the programmed intervals must exceed (70_reset_and_hazards.md R241):
of T_HALF, T_SU and T_CS. No source gives them; the MODEL's own parameter of the environment (log entry 21). -/
structure Minima where
  half : Nat
  su : Nat
  cs : Nat
deriving DecidableEq, Repr

/-- What is known of the device, the MODEL's own field (log entry 21). -/
inductive Conduct where
  /-- it follows R75 to R86 -/
  | sound
  /-- a command ran with timing that is too fast for it: what it drives on DO is a draw (R241, U6) -/
  | readsOpen
  /-- and a write was under way then or later: its cells are any value too (R241, U6) -/
  | cellsOpen
deriving DecidableEq, Repr

/-- The environment agent (00_scope.md R16 (3)). -/
structure Env where
  kind : EnvKind
  /-- the device's datasheet minima (R241) -/
  minima : Minima
  conduct : Conduct
  /-- DO changes are asynchronous to `clk`, so that `do_s1` may go metastable at a change (R242, U7); the MODEL's own
  field (log entry 8) -/
  asyncDo : Bool
  /-- the DO level of the cycle before; the MODEL's own field (log entry 8) -/
  doPrev : Bool
  dev : Device
deriving DecidableEq, Repr

/-! ## The host and the platform -/

/-- What the host does in one cycle (R63, R112, R113): nothing; a bus cycle given by its 36 bits; a write of a CMD32 word to
CMD; one round of the `WAITIDLE` loop, a read of STATUS that is repeated while it reads BUSY = 1. -/
inductive HostReq where
  | idle
  | bus (bits : BitVec 36)
  | cmd (word : BitVec 32)
  | waitIdle
deriving DecidableEq, Repr

/-- The input ports in one cycle: `rst` (R230) and the host's access (R63). -/
structure Pins where
  rst : Bool
  req : HostReq
deriving DecidableEq, Repr

/-! ## The whole machine -/

/-- One MWM with its host and its environment, at the start of a cycle. -/
structure State where
  /-- the elaboration-time parameters (00_scope.md R7) -/
  params : Params
  mwm : Mwm
  env : Env
  /-- what the input ports carry in this cycle (the head) and in the coming ones; past its end `bus_en` = 0 and
  `rst` = 0. The MODEL's own field (log entry 1) -/
  script : List Pins
  /-- the level `bus_rdata` carried in the last cycle (R61) -/
  busRdata : Word
  /-- `rst` has been asserted since power-on (R47); the MODEL's own field (log entry 10) -/
  resetSeen : Bool
  /-- the index of this cycle (R11), which also selects the free values; the MODEL's own field (log entry 2) -/
  cycle : Nat
deriving DecidableEq, Repr

/-- Why the machine stops with an error. The MWM itself raises no exception (60_exceptions.md R200); the one fault is the
spec's own word on a state it gives no value. -/
inductive Fault where
  /-- A cycle without `rst` and without a host access before the first reset (10_state.md R47): the lines the environment
  would see have no value. Raised by every cycle in that situation. Safe: the machine stops where hardware would go on. -/
  | stateUnknown
deriving DecidableEq, Repr

/-- Why the machine gives an instruction no meaning. -/
inductive Refusal where
  /-- An instruction that the model does not hold. Raised by no arm of this model. Safe. -/
  | notModelled (mnemonic : String)
  /-- A host access before the first reset (93_implementation_defined.md U9). Raised by every host cycle and every frame in
  that situation. Safe: the machine stops where hardware would go on. -/
  | beforeFirstReset
  /-- A wire frame that the running micro-program neither starts to send nor finishes receiving at the edge that ends this
  cycle: a micro-op occurs only inside a micro-program (40_primitives.md, opening). Raised by the five frame meanings. Safe:
  `step` never meets it. -/
  | frameNotDue
deriving DecidableEq, Repr

/-- The environment of the model's reset state: the reference device at power-up, as program P1 of 95_test_vectors.md has it
(DEV_BUSY = 10 in `cycles` mode, every cell 0xFF). The minima of R241 are 0, which every
legal TIMING exceeds. DESIGN CHOICE, log entries 3, 4 and 21: these are environment parameters, and every statement about the
machine is about all their values. -/
def Env.initial : Env where
  kind := .reference
  minima := ⟨0, 0, 0⟩
  conduct := .sound
  asyncDo := false
  doPrev := false
  dev := Device.powerUp 10 .cycles []

/-- The machine right after reset (R231), its parameters at their defaults, no host access pending. -/
def State.reset : State where
  params := Params.default
  mwm := Mwm.reset
  env := Env.initial
  script := []
  busRdata := 0#32
  resetSeen := true
  cycle := 0

end Sys2Proof.Machine
end

