-- ==== Sys2Proof/Machine/Operands.lean ====
section
/-! DEFINITION. Operand forms: the fields of a written register word with their legal values (10_state.md R32 to R34), and
the assembly of wire frames from headers and operands (30_encoding.md R104). -/

namespace Sys2Proof.Machine

/-! ## Written register words (20_memory.md R62) -/

/-- T_HALF of a TIMING word: `max(v[15:0], 2)` (R32, R62). -/
def warlTHalf (v : Word) : BitVec 16 :=
  if (v.extractLsb' 0 16).toNat < 2 then 2#16 else v.extractLsb' 0 16

/-- T_SU of a TIMING word: `max(v[23:16], 1)` (R32, R62). -/
def warlTSu (v : Word) : BitVec 8 :=
  if (v.extractLsb' 16 8).toNat < 1 then 1#8 else v.extractLsb' 16 8

/-- T_CS of a TIMING word: `max(v[31:24], 1)` (R32, R62). -/
def warlTCs (v : Word) : BitVec 8 :=
  if (v.extractLsb' 24 8).toNat < 1 then 1#8 else v.extractLsb' 24 8

/-- COUNT of a POLL_MAX word: `max(v, 1)` (R33, R62). -/
def warlPollMax (v : Word) : Word := if v.toNat < 1 then 1#32 else v

/-- CMD readback of a written word: `{8'b0, v[23:16], v[15:8], 5'b0, v[2:0]}` (R23, R160). -/
def cmdReadback (v : Word) : Word := cmdWord (cmdOp v) (cmdAddr v) (cmdData v)

/-! ## Wire frames -/

/-- Which frame a SEND of a micro-program sends (R104). -/
inductive FrameSrc where
  | read
  | write
  | ewen
  | ewds
  | data
deriving DecidableEq, Repr

/-- `trunc_9(header | zext_16(w_addr))` (R104): the address is zero-extended, and header bits 9 and above are never sent
(R110). -/
def addrFrame (header : Header) (addr : Byte) : Frame := (header ||| addr.setWidth 16).setWidth 9

/-- The bits SEND is given (R104). The data frame has 8 bits; the command frames have 9. -/
def FrameSrc.raw (p : Params) (w : Work) : FrameSrc → Raw
  | .read => .wire9 (addrFrame p.readHdr w.addr)
  | .write => .wire9 (addrFrame p.writeHdr w.addr)
  | .ewen => .wire9 (p.ewenFrame.setWidth 9)
  | .ewds => .wire9 (p.ewdsFrame.setWidth 9)
  | .data => .wire8 w.data

/-- The width of a wire frame (R6, R136 (c)). -/
def frameWidth : Raw → Nat
  | .wire9 _ => Config.cmdFrameWidth
  | .wire8 _ => Config.dataFrameWidth
  | .cmd32 _ => 0
  | .hostbus _ => 0

/-- The value SEND loads into `sh_val`: `trunc_9(v)` (R135). -/
def frameBits : Raw → Frame
  | .wire9 v => v
  | .wire8 v => v.setWidth 9
  | .cmd32 _ => 0#9
  | .hostbus _ => 0#9

/-- `acc <- trunc_8((acc << 1) | b)` (R40, R139). -/
def shiftIn (acc : Byte) (b : Bool) : Byte := (acc <<< 1) ||| BitVec.setWidth 8 (bit b)

/-- `slot_ctr` after one more slot: `min(j, 0xFFFFFFFF)` (R141). -/
def nextSlot (ctr : Word) : Word := if ctr = 0xFFFFFFFF#32 then ctr else ctr + 1#32

end Sys2Proof.Machine
end

