-- ==== Sys2Proof/Machine/Flags.lean ====
section
/-! DEFINITION. STATUS and its flags (10_state.md R24 to R30), and the recording of a condition (60_exceptions.md R200):
the MWM's whole counterpart of taking an exception. -/

namespace Sys2Proof.Machine

/-- The conditions of R200. -/
inductive Condition where
  | timeout
  | illegal
  | dropped
deriving DecidableEq, Repr

/-- The cause code of a condition: its STATUS bit (R200). -/
def Condition.code : Condition → Nat
  | .timeout => 2
  | .illegal => 3
  | .dropped => 4

/-- `raise <Condition>` (00_scope.md R12): the flag is set. No state is saved, no mode changes, control goes nowhere
(R200, R209). -/
def HostRegs.raise (c : Condition) (h : HostRegs) : HostRegs :=
  match c with
  | .timeout => { h with timeout := true }
  | .illegal => { h with illegal := true }
  | .dropped => { h with dropped := true }

/-- STATUS as read (R61): `{20'b0, do_s2, di_q, clk_q, cs_q, 3'b0, DROPPED, ILLEGAL, TIMEOUT, DONE, busy}`. -/
def Mwm.status (m : Mwm) : Word :=
  0#20 ++ bit m.doS2 ++ bit m.seq.diQ ++ bit m.seq.clkQ ++ bit m.seq.csQ ++ 0#3
    ++ bit m.host.dropped ++ bit m.host.illegal ++ bit m.host.timeout ++ bit m.host.done ++ bit m.seq.busy

/-- A host write of STATUS (R62): each of bits 1 to 4 of `v` that is 1 clears its flag; every other bit is ignored. A set
at the same edge wins (R206 (c)), because the sequencer's flags are set after this. -/
def HostRegs.writeStatus (v : Word) (h : HostRegs) : HostRegs :=
  { h with
    done := h.done && !v.getLsbD 1
    timeout := h.timeout && !v.getLsbD 2
    illegal := h.illegal && !v.getLsbD 3
    dropped := h.dropped && !v.getLsbD 4 }

/-- The flags at an accept edge, before the command's own writes (R160): DONE, TIMEOUT and ILLEGAL are cleared, DROPPED
stays (R28). -/
def HostRegs.clearFlags (h : HostRegs) : HostRegs := { h with done := false, timeout := false, illegal := false }

/-- The flags and RDATA at a completion edge (R171): DONE <- 1; RDATA <- `acc` for a READ (R162); TIMEOUT <- `timed_out`
for a WRITEB (R170). -/
def HostRegs.complete (q : Seq) (h : HostRegs) : HostRegs :=
  { h with
    done := true
    rdata := if q.work.op = 1#3 then q.acc else h.rdata
    timeout := if q.work.op = 5#3 then q.timedOut else h.timeout }

end Sys2Proof.Machine
end

