-- ==== Sys2Proof/Machine/Ops.lean ====
section
/-! DEFINITION. The named operations over the device cells, the lines, the synchronizer and the host-visible registers. -/

namespace Sys2Proof.Machine

/-! ## The device cells (20_memory.md R67, R75)

DEV_MEM_INIT is an argument of the environment (R9): the cells of the state one starts from. -/

/-- What a cell that the list does not name holds: 0xFF, as in program P1 of 95_test_vectors.md (DESIGN CHOICE, log
entry 3). -/
def Memory.unlisted : Byte := 0xFF#8

/-- One cell. -/
def Memory.read : Memory → Nat → Byte
  | [], _ => Memory.unlisted
  | c :: r, a => if c.1 = a then c.2 else Memory.read r a

/-- A cell put before a list whose addresses all lie above it; a byte that an unlisted cell reads as is not listed. -/
def Memory.put (a : Nat) (b : Byte) (m : Memory) : Memory := if b = Memory.unlisted then m else (a, b) :: m

/-- One cell written, in canonical form. -/
def Memory.write : Memory → Nat → Byte → Memory
  | [], a, b => Memory.put a b []
  | c :: r, a, b =>
    if a < c.1 then Memory.put a b (c :: r)
    else if a = c.1 then Memory.put a b r
    else c :: Memory.write r a b

/-- All cells written with the given values. Irreducible: the lemmas `Memory.fill_spec` and `Memory.fill_read_other` say what
it does. -/
@[irreducible] def Memory.fill (f : Nat → Byte) (m : Memory) : Memory :=
  (List.range Config.devCells).foldl (fun m a => Memory.write m a (f a)) m

/-- The canonical form: addresses strictly rising and below 64, no byte equal to what an unlisted cell reads as. -/
abbrev Memory.wf (m : Memory) : Prop :=
  m.Pairwise (fun x y => x.1 < y.1) ∧ ∀ c ∈ m, c.1 < Config.devCells ∧ c.2 ≠ Memory.unlisted

/-! ## Lines (00_scope.md R12, 10_state.md R36, R37) -/

/-- `SetCS(b)`. -/
def Seq.setCS (b : Bool) (q : Seq) : Seq := { q with csQ := b }

/-- `SetCLK(b)`. -/
def Seq.setCLK (b : Bool) (q : Seq) : Seq := { q with clkQ := b }

/-- `SetDI(b)`. -/
def Seq.setDI (b : Bool) (q : Seq) : Seq := { q with diQ := b }

/-- `Wait(n)` before the action that `ph` names (R12, R44). -/
def Seq.wait (n : Nat) (ph : Phase) (q : Seq) : Seq := { q with dly := BitVec.ofNat 17 n, phase := ph }

/-- The CS pin level: `cs_q`, inverted when CS_ACTIVE_HIGH = 0 (R37). -/
def Mwm.csPin (p : Params) (m : Mwm) : Bool := if p.csActiveHigh then m.seq.csQ else !m.seq.csQ

/-- The CLK pin level (R37). -/
def Mwm.clkPin (m : Mwm) : Bool := m.seq.clkQ

/-- The DI pin level (R37). -/
def Mwm.diPin (m : Mwm) : Bool := m.seq.diQ

/-- `SampleDO()`: `do_s2` as the cycle that ends at this edge holds it (R12, R38). -/
def Mwm.sampleDO (m : Mwm) : Bool := m.doS2

/-! ## Host-visible registers -/

/-- `MemRead(idx, 4)` (R61): the register as it stands; indices 6 and 7 read 0 (R35). -/
def Mwm.regRead (m : Mwm) (idx : RegIdx) : Word :=
  match idx.toNat with
  | 0 => m.host.cmd
  | 1 => m.status
  | 2 => 0#24 ++ m.host.rdata
  | 3 => m.host.tCs ++ m.host.tSu ++ m.host.tHalf
  | 4 => m.host.pollMax
  | 5 => 0#31 ++ bit m.host.pollClk
  | _ => 0#32

/-- A host write of TIMING (R32, R62). -/
def HostRegs.writeTiming (v : Word) (h : HostRegs) : HostRegs :=
  { h with tHalf := warlTHalf v, tSu := warlTSu v, tCs := warlTCs v }

/-- A host write of POLL_MAX (R33, R62). -/
def HostRegs.writePollMax (v : Word) (h : HostRegs) : HostRegs := { h with pollMax := warlPollMax v }

/-- A host write of CONFIG (R34, R62). -/
def HostRegs.writeConfig (v : Word) (h : HostRegs) : HostRegs := { h with pollClk := v.getLsbD 0 }

/-- A host write of a register other than CMD (R62): RDATA and the indices 6 and 7 ignore it. -/
def HostRegs.write (idx : RegIdx) (v : Word) (h : HostRegs) : HostRegs :=
  match idx.toNat with
  | 1 => h.writeStatus v
  | 3 => h.writeTiming v
  | 4 => h.writePollMax v
  | 5 => h.writeConfig v
  | _ => h

end Sys2Proof.Machine
end

