-- ==== Sys2Proof/Machine/Device.lean ====
section
/-! DEFINITION. The environment: the reference device model (20_memory.md R75 to R86), the absent device and the device that
is stuck busy (R87); and the reference device under timing that is too fast for it (70_reset_and_hazards.md R241). It sees the
pins and drives DO, and shares no state with the MWM (R74). -/

namespace Sys2Proof.Machine

/-! ## Commits (R85) -/

/-- The pending write reaches its cell, and `busy` falls in the same cycle (R85). -/
def Device.commit (d : Device) : Device :=
  { d with mem := d.mem.write d.pendA.toNat d.pendD, busy := false }

/-- One count of the busy time: `busy_rem <- busy_rem - 1`, and at 0 the commit (R77, R80). -/
def Device.count (d : Device) : Device :=
  if d.busyRem - 1 = 0 then { d with busyRem := d.busyRem - 1 }.commit else { d with busyRem := d.busyRem - 1 }

/-! ## The events of one cycle, in the order of R76 -/

/-- R77: the count-down of a cycle. -/
def Device.countDown (d : Device) : Device :=
  if d.busy && decide (d.mode = .cycles) then d.count else d

/-- The pending write of a CS fall in WAITCS (R78). -/
def Device.startWrite (d : Device) : Device :=
  if d.devBusy = 0 then { d with pendA := d.a, pendD := d.d, mem := d.mem.write d.a.toNat d.d }
  else { d with pendA := d.a, pendD := d.d, busy := true, busyRem := d.devBusy }

/-- Does a CS fall start a write (R78)? -/
def Device.writeReady (d : Device) : Bool := decide (d.phase = .waitCs) && d.wen && !d.busy

/-- R78: a CS fall. -/
def Device.csFall (d : Device) : Device :=
  { (if d.writeReady then d.startWrite else d) with phase := .idle }

/-- R79: a CS rise. -/
def Device.csRise (d : Device) : Device := { d with phase := .cmdIn, n := 0, shreg := 0#9 }

/-- R82: the decode of a whole 9-bit frame. -/
def Device.decode (d : Device) : Device :=
  let op := d.shreg.extractLsb' 6 3
  let fa := d.shreg.extractLsb' 0 6
  if op = 0b110#3 then { d with a := fa, snap := d.mem.read fa.toNat, k := 0, phase := .readOut }
  else if op = 0b101#3 then { d with a := fa, n := 0, d := 0#8, phase := .wData }
  else if op = 0b100#3 ∧ fa.extractLsb' 4 2 = 0b11#2 then { d with wen := true, phase := .ignore }
  else if op = 0b100#3 ∧ fa.extractLsb' 4 2 = 0b00#2 then { d with wen := false, phase := .ignore }
  else { d with phase := .ignore }

/-- One bit shifted into the frame: `shreg <- trunc_9((shreg << 1) | di); n <- n + 1` (R81). -/
def Device.shiftFrame (di : Bool) (d : Device) : Device :=
  { d with shreg := (d.shreg <<< 1) ||| BitVec.setWidth 9 (bit di), n := d.n + 1 }

/-- R81: a rising clock in CMDIN; zeros before the start bit are skipped. -/
def Device.clockCmdIn (di : Bool) (d : Device) : Device :=
  if d.n = 0 ∧ di = false then d
  else if d.n + 1 = 9 then (d.shiftFrame di).decode else d.shiftFrame di

/-- R83: a rising clock in READOUT. -/
def Device.clockReadOut (d : Device) : Device := if d.k < 8 then { d with k := d.k + 1 } else d

/-- R84: a rising clock in WDATA. -/
def Device.clockWData (di : Bool) (d : Device) : Device :=
  { d with
    d := shiftIn d.d di
    n := d.n + 1
    phase := if d.n + 1 = 8 then .waitCs else .wData }

/-- A rising clock (R80, R81, R83, R84). While busy it only counts, in `pulses` mode. -/
def Device.clockRise (di : Bool) (d : Device) : Device :=
  if d.busy then (match d.mode with
    | .pulses => d.count
    | .cycles => d)
  else match d.phase with
    | .cmdIn => d.clockCmdIn di
    | .readOut => d.clockReadOut
    | .wData => d.clockWData di
    | .waitCs => d
    | .ignore => d
    | .idle => d

/-- The CS events of a cycle (R76). -/
def Device.csEvents (cs : Bool) (d : Device) : Device :=
  if d.csPrev && !cs then d.csFall else if !d.csPrev && cs then d.csRise else d

/-- The clock event of a cycle (R76): a rise with CS asserted. -/
def Device.clkEvents (cs clk di : Bool) (d : Device) : Device :=
  if cs && !d.clkPrev && clk then d.clockRise di else d

/-- The device over one cycle, given the levels it sees (R76). -/
def Device.observe (cs clk di : Bool) (d : Device) : Device :=
  { ((d.countDown.csEvents cs).clkEvents cs clk di) with csPrev := cs, clkPrev := clk }

/-- R86: DO in a cycle, from the updated state. `undriven` is the draw of that cycle. -/
def Device.drive (cs undriven : Bool) (d : Device) : Bool :=
  if !cs then undriven
  else if d.busy then false
  else match d.phase with
    | .cmdIn => decide (d.n = 0)
    | .readOut => decide (1 ≤ d.k) && d.snap.getLsbD (8 - d.k)
    | .wData => false
    | .waitCs => false
    | .ignore => false
    | .idle => false

/-! ## The environment -/

/-- The logical CS level of a pin level: the polarity of R37 undone (R76). -/
def csLogical (p : Params) (pin : Bool) : Bool := if p.csActiveHigh then pin else !pin

/-- The intervals of a command exceed the device's minima (R241). -/
def Work.exceeds (x : Minima) (w : Work) : Bool :=
  decide (x.half < w.th.toNat) && decide (x.su < w.su.toNat) && decide (x.cs < w.cs.toNat)

/-- A command runs with timing that is too fast for the device (R241). -/
def Mwm.tooFast (x : Minima) (m : Mwm) : Bool := m.seq.busy && !m.seq.work.exceeds x

/-- A write is under way: a WRITE or WRITEB runs, or the device's write cycle does. -/
def Env.writing (m : Mwm) (e : Env) : Bool :=
  (m.seq.busy && (decide (m.seq.work.op = 2#3) || decide (m.seq.work.op = 5#3))) || e.dev.busy

/-- What is known of the device in a cycle (R241, U6). Timing that is too fast leaves its answers open, and a write then or
later its cells, for good: DESIGN CHOICE, log entry 21, since no source says what would end it. -/
def Env.nextConduct (m : Mwm) (e : Env) : Conduct :=
  match e.conduct with
  | .sound => if m.tooFast e.minima then (if e.writing m then .cellsOpen else .readsOpen) else .sound
  | .readsOpen => if e.writing m then .cellsOpen else .readsOpen
  | .cellsOpen => .cellsOpen

/-- The device's place over cycle `c`: the reference device as long as it is sound (R76); afterwards it is not followed, and
with its cells open each of them is a free value of every cycle (R241, U6). -/
def Env.observeDevice (p : Params) (m : Mwm) (c : Nat) (e : Env) : Env :=
  match e.nextConduct m with
  | .sound => { e with conduct := .sound, dev := e.dev.observe (csLogical p (m.csPin p)) m.clkPin m.diPin }
  | .readsOpen => { e with conduct := .readsOpen }
  | .cellsOpen => { e with conduct := .cellsOpen, dev := { e.dev with mem := Memory.fill (Config.openCell c) e.dev.mem } }

/-- The environment over cycle `c`: it sees the pins. Only the reference device has state of its own (R87). -/
def Env.observe (p : Params) (m : Mwm) (c : Nat) (e : Env) : Env :=
  match e.kind with
  | .reference => e.observeDevice p m c
  | .absent => e
  | .stuckBusy => e

/-- DO in cycle `c` where the device is, from its updated state: R86 while it is sound, a draw afterwards (R241, U6). -/
def Env.driveDevice (p : Params) (m : Mwm) (c : Nat) (e : Env) : Bool :=
  match e.conduct with
  | .sound => e.dev.drive (csLogical p (m.csPin p)) (Config.doFloat c)
  | .readsOpen => Config.doFloat c
  | .cellsOpen => Config.doFloat c

/-- DO in cycle `c`, from the updated environment (R86, R87). -/
def Env.drive (p : Params) (m : Mwm) (c : Nat) (e : Env) : Bool :=
  match e.kind with
  | .reference => e.driveDevice p m c
  | .absent => Config.doFloat c
  | .stuckBusy => false

/-- DO in the first reset cycle, in which the lines have no value (10_state.md R47): 0 for the device that is stuck busy (R87),
otherwise a draw (DESIGN CHOICE, log entry 9). -/
def Env.firstLevel (c : Nat) (e : Env) : Bool :=
  match e.kind with
  | .reference => Config.doFloat c
  | .absent => Config.doFloat c
  | .stuckBusy => false

/-- The level `do_s1` takes at the edge that ends cycle `c`: the pin level, or, when DO changes asynchronously, a free
choice between the old and the new one (R38, R242, U7). -/
def Env.resolve (c : Nat) (pin : Bool) (e : Env) : Bool :=
  if e.asyncDo && (pin != e.doPrev) then Config.metastable c else pin

/-! ## Which cells a cycle may write (R77, R78, R80) -/

/-- The count of this cycle commits the pending write (R77). -/
def Device.countDownCommits (d : Device) : Bool :=
  d.busy && decide (d.mode = .cycles) && decide (d.busyRem - 1 = 0)

/-- The CS fall of this cycle writes its cell at once (R78, DEV_BUSY = 0). -/
def Device.fallCommits (cs : Bool) (d : Device) : Bool :=
  d.csPrev && !cs && d.countDown.writeReady && decide (d.devBusy = 0)

/-- The clock rise of this cycle commits the pending write (R80). -/
def Device.pulseCommits (cs clk : Bool) (d : Device) : Bool :=
  cs && !d.clkPrev && clk && d.busy && decide (d.mode = .pulses) && decide (d.busyRem - 1 = 0)

/-- The addresses of the cells a cycle writes. -/
def Device.commitAddrs (cs clk : Bool) (d : Device) : List Nat :=
  (if d.countDownCommits || d.pulseCommits cs clk then [d.pendA.toNat] else [])
    ++ (if d.fallCommits cs then [d.a.toNat] else [])

/-- The addresses of the cells the device's place writes: all of them once they are open. -/
def Env.deviceCommitAddrs (p : Params) (m : Mwm) (e : Env) : List Nat :=
  match e.nextConduct m with
  | .sound => e.dev.commitAddrs (csLogical p (m.csPin p)) m.clkPin
  | .readsOpen => []
  | .cellsOpen => List.range Config.devCells

/-- The addresses of the cells the environment's cycle writes: none but for the reference device. -/
def Env.commitAddrs (p : Params) (m : Mwm) (e : Env) : List Nat :=
  match e.kind with
  | .reference => e.deviceCommitAddrs p m
  | .absent => []
  | .stuckBusy => []

end Sys2Proof.Machine
end

