-- ==== Sys2Proof/Machine/MicroOps.lean ====
section
/-! DEFINITION. The micro-ops of 40_primitives.md, each as the actions at the edges its timeline names. S = `w_su`,
H = `w_th`, C = `w_cs`. -/

namespace Sys2Proof.Machine

/-- The micro-ops (00_scope.md R13). -/
inductive MicroOp where
  /-- CS_ON (R131) -/
  | csOn
  /-- CS_OFF (R132) -/
  | csOff
  /-- SEND of the frame that the source names, with the width of that frame (R135) -/
  | send (src : FrameSrc)
  /-- RECV8 (R139) -/
  | recv8
  /-- POLL(unbounded) is `poll false` (R141), POLL(bounded) is `poll true` (R142) -/
  | poll (bounded : Bool)
deriving DecidableEq, Repr

/-- CS_ON at its start edge: `cs_q <- 1`, then C cycles (R131). -/
def Seq.startCsOn (q : Seq) : Seq := (q.setCS true).wait q.work.cs.toNat .hold

/-- CS_OFF at its start edge: `cs_q <- 0; di_q <- 0`, then C cycles (R132). -/
def Seq.startCsOff (q : Seq) : Seq := ((q.setCS false).setDI false).wait q.work.cs.toNat .hold

/-- The start of a SEND cell that presents bit `i` of `sh_val`: `di_q <- b`, then S cycles (R134). -/
def Seq.startSendCell (i : Nat) (q : Seq) : Seq :=
  ({ q with bitIdx := BitVec.ofNat 4 i }.setDI (q.shVal.getLsbD i)).wait q.work.su.toNat .setup

/-- SEND(v, w) at its start edge: `sh_val <- trunc_9(v)`, and the cell of bit w − 1 (R135). -/
def Seq.startSend (v : Frame) (w : Nat) (q : Seq) : Seq := { q with shVal := v }.startSendCell (w - 1)

/-- The start of a RECV cell: DI keeps its value, S cycles before CLK rises (R138). -/
def Seq.startRecvCell (j : Nat) (q : Seq) : Seq := { q with cell := BitVec.ofNat 4 j }.wait q.work.su.toNat .setup

/-- RECV8 at its start edge: `acc <- 0`, and cell 0 (R139). -/
def Seq.startRecv8 (q : Seq) : Seq := { q with acc := 0#8 }.startRecvCell 0

/-- The start of a poll slot: with `w_pclk` = 1 CLK rises, otherwise it stays 0; H cycles (R141). -/
def Seq.startSlot (q : Seq) : Seq := (q.setCLK q.work.pclk).wait q.work.th.toNat .high

/-- The start of a pulse in a cell: CLK rises for H cycles (R133). -/
def Seq.clkRise (q : Seq) : Seq := (q.setCLK true).wait q.work.th.toNat .high

/-- The middle of a pulse or slot: CLK is low for H cycles (R133, R141). -/
def Seq.clkFall (q : Seq) : Seq := (q.setCLK false).wait q.work.th.toNat .low

/-- The first edge of a micro-op (R130). -/
def Seq.startOp (p : Params) (q : Seq) : MicroOp → Seq
  | .csOn => q.startCsOn
  | .csOff => q.startCsOff
  | .send src => q.startSend (frameBits (src.raw p q.work)) (frameWidth (src.raw p q.work))
  | .recv8 => q.startRecv8
  | .poll _ => q.startSlot

/-- The sample `b` of a RECV cell: `acc <- trunc_8((acc << 1) | b)` (R138). -/
def Seq.sampleBit (b : Bool) (q : Seq) : Seq := { q with acc := shiftIn q.acc b }

/-- The end of a poll slot: `slot_ctr` counts it (R141, R142). -/
def Seq.countSlot (q : Seq) : Seq := { q with slotCtr := nextSlot q.slotCtr }

/-- A bounded poll whose slot `w_pmax` sampled 0 records it (R142). -/
def Seq.pollTimesOut (q : Seq) : Seq := { q with timedOut := true }

/-! ## The micro-programs of 41_commands.md -/

/-- R161. -/
def programRead : List MicroOp := [.csOn, .send .read, .recv8, .csOff]

/-- R166. -/
def programEwen : List MicroOp := [.csOn, .send .ewen, .csOff]

/-- R167. -/
def programEwds : List MicroOp := [.csOn, .send .ewds, .csOff]

/-- R164, and with a bounded poll R168. -/
def programWrite (bounded : Bool) : List MicroOp :=
  [.csOn, .send .ewen, .csOff,
   .csOn, .send .write, .send .data, .csOff,
   .csOn, .poll bounded, .csOff,
   .csOn, .send .ewds, .csOff]

/-- The micro-program of an OP; INIT and the reserved OPs have none (R172, R173). -/
def microProgram (op : BitVec 3) : List MicroOp :=
  match op.toNat with
  | 1 => programRead
  | 2 => programWrite false
  | 3 => programEwen
  | 4 => programEwds
  | 5 => programWrite true
  | _ => []

end Sys2Proof.Machine
end

