-- ==== Sys2Proof/Machine/Sequencer.lean ====
section
/-! DEFINITION. The sequencer: how a micro-program advances from edge to edge (10_state.md R43, 40_primitives.md R130), and
the start of a command (41_commands.md R160). The argument `b` is `SampleDO()` at the edge (R38). -/

namespace Sys2Proof.Machine

/-- The micro-op that executes (R43). -/
def Seq.currentOp (q : Seq) : Option MicroOp := (microProgram q.work.op)[q.upc.toNat]?

/-- The micro-op after it. -/
def Seq.followingOp (q : Seq) : Option MicroOp := (microProgram q.work.op)[q.upc.toNat + 1]?

/-- The sequencer at a completion edge (R171): `busy <- 0; upc <- 0`. The flags and RDATA: `HostRegs.complete`. -/
def Seq.complete (q : Seq) : Seq := { q with busy := false, upc := 0#4, dly := 0#17, phase := .idle }

/-- A micro-op ends: `upc` advances by 1 and the next one starts at this edge; after the last one the command completes
(R43, R130). -/
def Seq.finishOp (p : Params) (q : Seq) : Seq :=
  match q.followingOp with
  | some op => { q with upc := q.upc + 1#4 }.startOp p op
  | none => q.complete

/-- The action of SEND at the end of a wait (R134, R135). -/
def Seq.actSend (p : Params) (q : Seq) : Seq :=
  match q.phase with
  | .setup => q.clkRise
  | .high => q.clkFall
  | .low => if q.bitIdx = 0#4 then q.finishOp p else q.startSendCell (q.bitIdx.toNat - 1)
  | .idle => q
  | .hold => q

/-- The action of RECV8 at the end of a wait (R138, R139). -/
def Seq.actRecv8 (p : Params) (b : Bool) (q : Seq) : Seq :=
  match q.phase with
  | .setup => q.clkRise
  | .high => q.clkFall
  | .low => if q.cell = 7#4 then (q.sampleBit b).finishOp p else (q.sampleBit b).startRecvCell (q.cell.toNat + 1)
  | .idle => q
  | .hold => q

/-- The action of POLL at the end of a wait (R141, R142): a sample of 1 ends it; bounded, so does the sample of slot
`w_pmax`, and success wins over the bound at the same slot. -/
def Seq.actPoll (p : Params) (bounded b : Bool) (q : Seq) : Seq :=
  match q.phase with
  | .high => q.clkFall
  | .low =>
    if b then q.countSlot.finishOp p
    else if bounded && q.countSlot.slotCtr == q.work.pmax then q.countSlot.pollTimesOut.finishOp p
    else q.countSlot.startSlot
  | .setup => q
  | .idle => q
  | .hold => q

/-- The action of the running micro-op when its wait runs out. With no micro-op at `upc`, which no run reaches, nothing
happens. -/
def Seq.act (p : Params) (b : Bool) (q : Seq) : Seq :=
  match q.currentOp with
  | some .csOn => q.finishOp p
  | some .csOff => q.finishOp p
  | some (.send _) => q.actSend p
  | some .recv8 => q.actRecv8 p b
  | some (.poll bounded) => q.actPoll p bounded b
  | none => q

/-- The sequencer at an edge while a command runs (R43, R44): the delay counter counts down, and at the last edge of a wait
the micro-op acts. -/
def Seq.edge (p : Params) (b : Bool) (q : Seq) : Seq :=
  if q.dly.toNat ≤ 1 then q.act p b else { q with dly := q.dly - 1#17 }

/-! ## Command start (R160) -/

/-- The working registers an accepted word loads (R39, R160). -/
def Work.latch (v : Word) (h : HostRegs) : Work where
  op := cmdOp v
  addr := cmdAddr v
  data := cmdData v
  th := h.tHalf
  su := h.tSu
  cs := h.tCs
  pmax := h.pollMax
  pclk := h.pollClk

/-- What every accepted word does (R160): CMD and the working registers are loaded, `slot_ctr` and `timed_out` and the
flags of the last command cleared. -/
def Mwm.latch (v : Word) (m : Mwm) : Mwm :=
  { m with
    host := { m.host.clearFlags with cmd := cmdReadback v }
    seq := { m.seq with work := Work.latch v m.host, slotCtr := 0#32, timedOut := false } }

/-- INIT (R173): `cs_q <- 0; clk_q <- 0; di_q <- 0; DONE <- 1`. -/
def Mwm.initCommand (m : Mwm) : Mwm :=
  { m with host := { m.host with done := true }, seq := ((m.seq.setCS false).setCLK false).setDI false }

/-- A reserved command (R172): `ILLEGAL <- 1; DONE <- 1`. -/
def Mwm.reservedCommand (m : Mwm) : Mwm := { m with host := { m.host.raise .illegal with done := true } }

/-- A command with a micro-program starts its first micro-op at the accept edge (R130, R160). -/
def Mwm.startCommand (p : Params) (m : Mwm) : Mwm :=
  match microProgram m.seq.work.op with
  | op :: _ => { m with seq := { m.seq with busy := true, upc := 0#4 }.startOp p op }
  | [] => m

/-- An accepted word (R160). -/
def Mwm.accept (p : Params) (v : Word) (m : Mwm) : Mwm :=
  match (cmdOp v).toNat with
  | 0 => (m.latch v).initCommand
  | 6 => (m.latch v).reservedCommand
  | 7 => (m.latch v).reservedCommand
  | _ => (m.latch v).startCommand p

/-- A host write of CMD (R160): dropped and recorded while busy (R205), accepted otherwise. -/
def Mwm.writeCmd (p : Params) (v : Word) (m : Mwm) : Mwm :=
  if m.seq.busy then { m with host := m.host.raise .dropped } else m.accept p v

/-- `MemWrite(idx, 4, v)` (R62). -/
def Mwm.regWrite (p : Params) (idx : RegIdx) (v : Word) (m : Mwm) : Mwm :=
  if idx = 0#3 then m.writeCmd p v else { m with host := m.host.write idx v }

/-- The sequencer's part of an edge while a command runs: its action `act`, and at the completion edge the flags and RDATA
(R171). -/
def Mwm.seqEdge (act : Bool → Seq → Seq) (m : Mwm) : Mwm :=
  { m with
    seq := act m.sampleDO m.seq
    host := if (act m.sampleDO m.seq).busy then m.host else m.host.complete m.seq }

/-! ## Frames about to be sent or received

A micro-program hands SEND its frames and RECV8 assembles one; these functions say which frame that is at the edge that
ends this cycle. -/

/-- Does the running micro-op end at this edge? (POLL is not asked: no frame follows it.) -/
def Seq.opEnds (q : Seq) : Bool :=
  q.busy && decide (q.dly.toNat ≤ 1) &&
    match q.currentOp with
    | some .csOn => true
    | some .csOff => true
    | some (.send _) => decide (q.phase = .low) && decide (q.bitIdx = 0#4)
    | some .recv8 => decide (q.phase = .low) && decide (q.cell = 7#4)
    | some (.poll _) => false
    | none => false

/-- The frame whose SEND starts at this edge. -/
def Seq.sendDue (p : Params) (q : Seq) : Option Raw :=
  match q.opEnds, q.followingOp with
  | true, some (.send src) => some (src.raw p q.work)
  | _, _ => none

/-- The data frame that RECV8 completes at this edge (R107: read data on DO). -/
def Seq.recvDue (b : Bool) (q : Seq) : Option Byte :=
  match q.opEnds, q.currentOp with
  | true, some .recv8 => some (shiftIn q.acc b)
  | _, _ => none

/-- The frame of this edge, sent or received. -/
def Mwm.frameDue (p : Params) (m : Mwm) : Option Raw :=
  match m.seq.sendDue p with
  | some r => some r
  | none => (m.seq.recvDue m.sampleDO).map Raw.wire8

/-- The edge at which the SEND of a frame starts (R130, R135): the micro-op before it ends, `upc` advances, `sh_val`,
`bit_idx` and `di_q` take the frame and its first bit. -/
def Seq.beginFrame (r : Raw) (q : Seq) : Seq :=
  { q with upc := q.upc + 1#4 }.startSend (frameBits r) (frameWidth r)

/-- The edge at which RECV8 completes a data frame (R139): `acc` holds it, and the next micro-op starts. -/
def Seq.takeByte (p : Params) (d : Byte) (q : Seq) : Seq := { q with acc := d }.finishOp p

end Sys2Proof.Machine
end

