-- ==== Sys2Proof/Machine/Cycle.lean ====
section
/-! DEFINITION. One cycle of `clk` and the edge that ends it (00_scope.md R11): the environment, the host access, the
sequencer, the synchronizer, reset. Every meaning is one call of `hostCycle`, `sendCycle` or `dataCycle`. -/

namespace Sys2Proof.Machine

/-- A host access of one cycle (20_memory.md R63). -/
inductive Access where
  /-- `bus_en` = 0 -/
  | none
  | read (idx : RegIdx)
  | write (idx : RegIdx) (v : Word)
deriving DecidableEq, Repr

/-- The access that an instruction's bus cycle makes: a CMD32 word is written to CMD (30_encoding.md R113). -/
def accessOf : Instr → Access
  | .init a d => .write 0#3 (cmdWord 0#3 a d)
  | .read a d => .write 0#3 (cmdWord 1#3 a d)
  | .write a d => .write 0#3 (cmdWord 2#3 a d)
  | .ewen a d => .write 0#3 (cmdWord 3#3 a d)
  | .ewds a d => .write 0#3 (cmdWord 4#3 a d)
  | .writeb a d => .write 0#3 (cmdWord 5#3 a d)
  | .reserved6 a d => .write 0#3 (cmdWord 6#3 a d)
  | .reserved7 a d => .write 0#3 (cmdWord 7#3 a d)
  | .wr idx v => .write idx v
  | .rd idx => .read idx
  | .frameRead _ | .frameWrite _ | .frameEwen | .frameEwds | .frameData _ => .none

/-- The bits a host request puts on the bus; `WAITIDLE` reads STATUS (R113). -/
def HostReq.raw : HostReq → Option Raw
  | .idle => none
  | .bus bits => some (.hostbus bits)
  | .cmd word => some (.cmd32 word)
  | .waitIdle => some (.hostbus (busReadBits RegName.status.idx))

/-- The request of this cycle. -/
def State.req (s : State) : HostReq :=
  match s.script with
  | [] => .idle
  | q :: _ => q.req

/-- `rst` in this cycle (70_reset_and_hazards.md R230). -/
def State.rst (s : State) : Bool :=
  match s.script with
  | [] => false
  | q :: _ => q.rst

/-- The access of this cycle's request. -/
def State.portAccess (s : State) : Access :=
  match s.req with
  | .idle => .none
  | .bus bits => accessOf (decodeHostbus bits)
  | .cmd word => .write 0#3 word
  | .waitIdle => .read RegName.status.idx

/-- The script after this cycle: the `WAITIDLE` loop goes round while it reads BUSY = 1 (R113), every other entry is
used up. -/
def State.nextScript (s : State) : List Pins :=
  match s.script with
  | [] => []
  | q :: rest => if q.req = .waitIdle ∧ s.mwm.seq.busy = true then { q with rst := false } :: rest else rest

/-- `bus_rdata` in this cycle (R61): the register as it stands, 0 with `bus_en` = 0; in a write cycle the spec states no
value (a free value, log entry 6). -/
def State.rdataOut (acc : Access) (s : State) : Word :=
  match acc with
  | .none => 0#32
  | .read idx => s.mwm.regRead idx
  | .write _ _ => Config.writeCycleRdata s.cycle

/-- What the access does at the edge that ends the cycle (R62); reads change nothing (R66). -/
def Mwm.hostEdge (p : Params) (acc : Access) (m : Mwm) : Mwm :=
  match acc with
  | .none => m
  | .read _ => m
  | .write idx v => m.regWrite p idx v

/-- The DO pin in this cycle (R86, R87). -/
def State.doPin (s : State) : Bool := (s.env.observe s.params s.mwm s.cycle).drive s.params s.mwm s.cycle

/-- The level `do_s1` takes at the edge that ends this cycle (R38, R242). -/
def State.doIn (s : State) : Bool := s.env.resolve s.cycle s.doPin

/-- The MWM after the edge that ends this cycle. The host access and the sequencer, which acts if `busy` was 1 in the
cycle, see the registers of the cycle; the sequencer's flags are set after the host's clears, so that a set wins (R206);
the synchronizer shifts (R38); `rst` overrides everything (R230). -/
def State.mwmEdge (acc : Access) (act : Bool → Seq → Seq) (s : State) : Mwm :=
  if s.rst then Mwm.reset
  else
    let m := s.mwm.hostEdge s.params acc
    { (if s.mwm.seq.busy then m.seqEdge act else m) with doS1 := s.doIn, doS2 := s.mwm.doS1 }

/-- One whole cycle with a given action of the sequencer. -/
def State.cycleWith (acc : Access) (act : Bool → Seq → Seq) (s : State) : State :=
  { s with
    mwm := s.mwmEdge acc act
    env := { s.env.observe s.params s.mwm s.cycle with doPrev := s.doPin }
    script := s.nextScript
    busRdata := s.rdataOut acc
    cycle := s.cycle + 1 }

/-- One whole cycle (R11, R16). -/
def State.clkCycle (acc : Access) (s : State) : State := s.cycleWith acc (Seq.edge s.params)

/-- The first reset edge (R47, R230): every register takes its reset value. The lines had no value in this cycle, so the
device is taken to power up with it, its view of CS and CLK that of idle lines, and the DO level of this cycle, which the next
one compares with, is a draw (DESIGN CHOICE, log entry 9). -/
def State.firstReset (acc : Access) (s : State) : State :=
  { s with
    mwm := Mwm.reset
    env := { s.env with
      doPrev := s.env.firstLevel s.cycle
      dev := { s.env.dev with csPrev := false, clkPrev := false } }
    script := s.script.tail
    busRdata := s.rdataOut acc
    resetSeen := true
    cycle := s.cycle + 1 }

/-- A cycle before the first reset (R47, U9): with `rst` = 1 the reset edge, unless the host observes a register; with
`rst` = 0 an access is refused, and a cycle without one is a fault. -/
def State.beforeReset (acc : Access) (s : State) : Host.Outcome State Fault Refusal :=
  match s.rst, acc with
  | true, .none => .next (s.firstReset .none)
  | true, .write idx v => .next (s.firstReset (.write idx v))
  | true, .read _ => .refused .beforeFirstReset
  | false, .none => .fault .stateUnknown
  | false, .write _ _ => .refused .beforeFirstReset
  | false, .read _ => .refused .beforeFirstReset

/-- A cycle with a host access. -/
def State.hostCycle (acc : Access) (s : State) : Host.Outcome State Fault Refusal :=
  if s.resetSeen then .next (s.clkCycle acc) else s.beforeReset acc

/-- A cycle at whose end the SEND of the frame `r` starts, whatever access the host makes in it. -/
def State.sendCycle (r : Raw) (s : State) : Host.Outcome State Fault Refusal :=
  if s.resetSeen = false then .refused .beforeFirstReset
  else if s.mwm.seq.sendDue s.params = some r then .next (s.cycleWith s.portAccess fun _ => Seq.beginFrame r)
  else .refused .frameNotDue

/-- A cycle at whose end a data frame starts on DI (SEND), or is complete on DO (RECV8) (R107). -/
def State.dataCycle (d : Byte) (s : State) : Host.Outcome State Fault Refusal :=
  if s.resetSeen = true ∧ s.mwm.seq.recvDue s.mwm.sampleDO = some d then
    .next (s.cycleWith s.portAccess fun _ => Seq.takeByte s.params d)
  else s.sendCycle (.wire8 d)

end Sys2Proof.Machine
end

