-- ==== Sys2Proof/Machine/Commands.lean ====
section
/-! DEFINITION. The eight CMD32 words (30_encoding.md R102). Each is a host write of its word to CMD (R113): one cycle, at
whose end the command is accepted, or dropped while another one is busy (41_commands.md R160, 60_exceptions.md R205). What
it does at the accept edge is in `Mwm.accept`, its micro-program in `microProgram`; the micro-program runs over the cycles
that follow, edge by edge (`Mwm.seqEdge`), until `Mwm.complete`. Before the first reset: `State.beforeReset`. -/

namespace Sys2Proof.Machine

/-- INIT (R173): at the accept edge the lines go to their idle levels and DONE is set; `busy` stays 0. -/
def execInit (addr data : Byte) (s : State) : Host.Outcome State Fault Refusal :=
  s.hostCycle (.write 0#3 (cmdWord 0#3 addr data))

/-- READ (R161, R162, R163): micro-program `programRead`, RDATA from `acc` at completion. -/
def execRead (addr data : Byte) (s : State) : Host.Outcome State Fault Refusal :=
  s.hostCycle (.write 0#3 (cmdWord 1#3 addr data))

/-- WRITE (R164, R165): micro-program `programWrite false`, with the unbounded poll that may never end (R207). -/
def execWrite (addr data : Byte) (s : State) : Host.Outcome State Fault Refusal :=
  s.hostCycle (.write 0#3 (cmdWord 2#3 addr data))

/-- EWEN (R166, R174): micro-program `programEwen`; ADDR and DATA are latched and ignored. -/
def execEwen (addr data : Byte) (s : State) : Host.Outcome State Fault Refusal :=
  s.hostCycle (.write 0#3 (cmdWord 3#3 addr data))

/-- EWDS (R167, R174): micro-program `programEwds`; ADDR and DATA are latched and ignored. -/
def execEwds (addr data : Byte) (s : State) : Host.Outcome State Fault Refusal :=
  s.hostCycle (.write 0#3 (cmdWord 4#3 addr data))

/-- WRITEB (R168, R169, R170): micro-program `programWrite true`, TIMEOUT from `timed_out` at completion. -/
def execWriteb (addr data : Byte) (s : State) : Host.Outcome State Fault Refusal :=
  s.hostCycle (.write 0#3 (cmdWord 5#3 addr data))

/-- RESERVED6, OP = 6 (R172): at the accept edge ILLEGAL and DONE are set; no line changes. -/
def execReserved6 (addr data : Byte) (s : State) : Host.Outcome State Fault Refusal :=
  s.hostCycle (.write 0#3 (cmdWord 6#3 addr data))

/-- RESERVED7, OP = 7 (R172): at the accept edge ILLEGAL and DONE are set; no line changes. -/
def execReserved7 (addr data : Byte) (s : State) : Host.Outcome State Fault Refusal :=
  s.hostCycle (.write 0#3 (cmdWord 7#3 addr data))

end Sys2Proof.Machine
end

