-- ==== Sys2Proof/Machine/Frames.lean ====
section
/-! DEFINITION. The five wire frames (30_encoding.md R105, R107). A frame goes on the wire inside a micro-program: its
meaning is the cycle at whose end its SEND starts (40_primitives.md R135), the frame in `sh_val` and its first bit on DI;
the bits follow over the next w·L edges (R137). The data frame also comes in on DO (R107): then its meaning is the cycle at
whose end RECV8 completes it (R139). Where the running micro-program has no such frame at this edge the frame is refused. -/

namespace Sys2Proof.Machine

/-- FRAME_READ (R105): `1 10 a5..a0`. -/
def execFrameRead (a : DevAddr) (s : State) : Host.Outcome State Fault Refusal :=
  s.sendCycle (.wire9 (0b110#3 ++ a))

/-- FRAME_WRITE (R105): `1 01 a5..a0`. -/
def execFrameWrite (a : DevAddr) (s : State) : Host.Outcome State Fault Refusal :=
  s.sendCycle (.wire9 (0b101#3 ++ a))

/-- FRAME_EWEN (R105): `1 00 11 0000`. -/
def execFrameEwen (s : State) : Host.Outcome State Fault Refusal :=
  s.sendCycle (.wire9 0b100110000#9)

/-- FRAME_EWDS (R105): `1 00 00 0000`. -/
def execFrameEwds (s : State) : Host.Outcome State Fault Refusal :=
  s.sendCycle (.wire9 0b100000000#9)

/-- FRAME_DATA (R107): the 8 data bits, on DI or on DO. -/
def execFrameData (d : Byte) (s : State) : Host.Outcome State Fault Refusal :=
  s.dataCycle d

end Sys2Proof.Machine
end

