-- ==== Sys2Proof/Machine/HostBus.lean ====
section
/-! DEFINITION. The two HOSTBUS cycles (20_memory.md R61, R62), and the expansion of the host assembly into what the ports
carry (30_encoding.md R112, R113). -/

namespace Sys2Proof.Machine

/-- WR (R62, R112): one cycle with `bus_en` = 1, `bus_we` = 1. -/
def execWr (idx : RegIdx) (wdata : Word) (s : State) : Host.Outcome State Fault Refusal :=
  s.hostCycle (.write idx wdata)

/-- RD (R61, R112): one cycle with `bus_en` = 1, `bus_we` = 0; the value read stands in `busRdata` after it. -/
def execRd (idx : RegIdx) (s : State) : Host.Outcome State Fault Refusal :=
  s.hostCycle (.read idx)

/-- The host assembly as cycles of the ports, `rst` low (R112, R113). -/
def expand : Pseudo → List HostReq
  | .wr reg imm => [.bus (busWriteBits reg.idx (BitVec.ofNat 32 imm))]
  | .rd reg => [.bus (busReadBits reg.idx)]
  | .idle n => List.replicate n .idle
  | .init => [.cmd 0x0#32]
  | .read a => [.cmd (BitVec.ofNat 32 (a * 2 ^ 8 + 0x1))]
  | .write a d => [.cmd (BitVec.ofNat 32 (d * 2 ^ 16 + a * 2 ^ 8 + 0x2))]
  | .ewen => [.cmd 0x3#32]
  | .ewds => [.cmd 0x4#32]
  | .writeb a d => [.cmd (BitVec.ofNat 32 (d * 2 ^ 16 + a * 2 ^ 8 + 0x5))]
  | .setTime h s c => [.bus (busWriteBits RegName.timing.idx (BitVec.ofNat 32 (c * 2 ^ 24 + s * 2 ^ 16 + h)))]
  | .clrSt => [.bus (busWriteBits RegName.status.idx 0x1E#32)]
  | .waitIdle => [.waitIdle]

/-- A host program as a script. -/
def scriptOf (prog : List Pseudo) : List Pins := (prog.flatMap expand).map fun q => ⟨false, q⟩

end Sys2Proof.Machine
end

