-- ==== Sys2Proof/Machine/Dispatch.lean ====
section
/-! DEFINITION. One arm per constructor of `Instr`, one meaning per arm. -/

namespace Sys2Proof.Machine

def exec (i : Instr) (s : State) : Host.Outcome State Fault Refusal :=
  match i with
  | .init addr data => Sys2Proof.Machine.execInit addr data s
  | .read addr data => Sys2Proof.Machine.execRead addr data s
  | .write addr data => Sys2Proof.Machine.execWrite addr data s
  | .ewen addr data => Sys2Proof.Machine.execEwen addr data s
  | .ewds addr data => Sys2Proof.Machine.execEwds addr data s
  | .writeb addr data => Sys2Proof.Machine.execWriteb addr data s
  | .reserved6 addr data => Sys2Proof.Machine.execReserved6 addr data s
  | .reserved7 addr data => Sys2Proof.Machine.execReserved7 addr data s
  | .wr idx wdata => Sys2Proof.Machine.execWr idx wdata s
  | .rd idx => Sys2Proof.Machine.execRd idx s
  | .frameRead a => Sys2Proof.Machine.execFrameRead a s
  | .frameWrite a => Sys2Proof.Machine.execFrameWrite a s
  | .frameEwen => Sys2Proof.Machine.execFrameEwen s
  | .frameEwds => Sys2Proof.Machine.execFrameEwds s
  | .frameData d => Sys2Proof.Machine.execFrameData d s

end Sys2Proof.Machine
end

