-- ==== Sys2Proof/Machine/Fetch.lean ====
section
/-! DEFINITION. Where the bits of an instruction come from, and how they are put there. The MWM fetches nothing from memory
(20_memory.md R73): a host instruction stands on the host bus in its cycle, and a wire frame comes out of the micro-program
of the running command. -/

namespace Sys2Proof.Machine

/-- The bits of this cycle: the host's request; in a cycle without one, the frame whose SEND starts, or whose RECV8
completes, at the edge that ends it. With `rst` no micro-op acts (R230), and before the first reset nothing is known of the
sequencer (R47). -/
def State.fetch (s : State) : Option Raw :=
  match s.req.raw with
  | some r => some r
  | none => if s.rst || !s.resetSeen then none else s.mwm.frameDue s.params

/-- The host puts `r` on its port in this cycle. -/
def State.withReq (r : HostReq) (s : State) : State := { s with script := ⟨false, r⟩ :: s.script.tail }

/-- The MWM at the last cycle before micro-op `upc + 1` of the command `op` begins, its timing that of the host-visible
registers (R39): the micro-op before it is at the end of its last wait. -/
def Mwm.atOpEnd (op : BitVec 3) (addr data : Byte) (upc : BitVec 4) (ph : Phase) (m : Mwm) : Mwm :=
  { m with
    seq := { m.seq with
      busy := true
      work := Work.latch (cmdWord op addr data) m.host
      upc := upc
      phase := ph
      dly := 1#17
      bitIdx := 0#4
      csQ := true
      clkQ := false } }

/-- A frame placed where the micro-program of a command is about to send it: a READ for a READ frame, and so on. The header
parameter is set so that R104 gives these very bits; for the default frames it is the default. -/
def State.withFrame (r : Raw) (s : State) : State :=
  let s := s.withReq .idle
  match decode r with
  | .instr (.frameRead a) =>
    { s with
      params := { s.params with readHdr := 0x180#16 }
      mwm := s.mwm.atOpEnd 1#3 (a.setWidth 8) 0#8 0#4 .hold }
  | .instr (.frameWrite a) =>
    { s with
      params := { s.params with writeHdr := 0x140#16 }
      mwm := s.mwm.atOpEnd 2#3 (a.setWidth 8) 0#8 3#4 .hold }
  | .instr .frameEwen =>
    { s with params := { s.params with ewenFrame := 0x130#16 }, mwm := s.mwm.atOpEnd 3#3 0#8 0#8 0#4 .hold }
  | .instr .frameEwds =>
    { s with params := { s.params with ewdsFrame := 0x100#16 }, mwm := s.mwm.atOpEnd 4#3 0#8 0#8 0#4 .hold }
  | .instr (.frameData d) => { s with mwm := s.mwm.atOpEnd 2#3 0#8 d 4#4 .low }
  | _ =>
    { s with
      params := { s.params with readHdr := (frameBits r).setWidth 16 }
      mwm := s.mwm.atOpEnd 1#3 0#8 0#8 0#4 .hold }

/-- The bits of an instruction where its format is fetched from. -/
def State.withRaw (r : Raw) (s : State) : State :=
  match r with
  | .cmd32 w => s.withReq (.cmd w)
  | .hostbus w => s.withReq (.bus w)
  | .wire9 _ => s.withFrame r
  | .wire8 _ => s.withFrame r

/-- The instruction whose bits are `w`, numbered as the opcode table numbers them, where `step` fetches next. A word of no
format leaves the state as it is. -/
def State.placeWord (s : State) (nbits w : Nat) : State :=
  match rawOfBytes (bytesOf ((nbits + 7) / 8) w) with
  | some r => s.withRaw r
  | none => s

end Sys2Proof.Machine
end

