-- ==== Sys2Proof/Machine/Step.lean ====
section
/-! DEFINITION. One step of the machine is one cycle of `clk`. -/

namespace Sys2Proof.Machine

/-- One step: the bits of this cycle are decoded and their meaning is the cycle. Bits that are no instruction are a frame
that an aliased address or a header made (30_encoding.md R106, R110): the MWM sends it like any other, so the cycle passes
as the sequencer has it. Without bits the cycle passes with no host access. -/
def step (s : State) : Host.Outcome State Fault Refusal :=
  match s.fetch with
  | some r =>
    match decode r with
    | .instr i => exec i s
    | .error _ => s.hostCycle s.portAccess
  | none => s.hostCycle .none

/-- The instruction whose bits are `w` placed where the next step fetches. -/
def State.withFetchWord (s : State) (nbits w : Nat) : State := s.placeWord nbits w

end Sys2Proof.Machine
end

