-- ==== Sys2Proof/Machine/Events.lean ====
section
/-! DEFINITION. The event-level reading of the machine (40_primitives.md R144): the ordered list of line events that edges
produce, and the list that the rule gives each micro-op. -/

namespace Sys2Proof.Machine

/-- The line events (R144). -/
inductive LineEvent where
  | csUp
  | csDown
  | di (b : Bool)
  | clkUp
  | clkDown
  | sample (b : Bool)
deriving DecidableEq, Repr

/-! ## The lines that events move -/

/-- The levels of the three line registers (10_state.md R36). -/
structure Lines where
  cs : Bool
  clk : Bool
  di : Bool
deriving DecidableEq, Repr

/-- The idle levels (R46 (a)). -/
def Lines.idle : Lines := ⟨false, false, false⟩

/-- The lines of the MWM: `cs_q`, `clk_q`, `di_q`. -/
def Mwm.lines (m : Mwm) : Lines := ⟨m.seq.csQ, m.seq.clkQ, m.seq.diQ⟩

/-- What one event does to the lines; a sample does nothing to them. -/
def Lines.move (l : Lines) : LineEvent → Lines
  | .csUp => { l with cs := true }
  | .csDown => { l with cs := false }
  | .di b => { l with di := b }
  | .clkUp => { l with clk := true }
  | .clkDown => { l with clk := false }
  | .sample _ => l

/-- The lines after these events. -/
def Lines.after (l : Lines) (es : List LineEvent) : Lines := es.foldl Lines.move l

/-! ## The lists of R144 -/

/-- A SEND cell: `[DI := b, CLK↑, CLK↓]`. -/
def sendCellEvents (b : Bool) : List LineEvent := [.di b, .clkUp, .clkDown]

/-- SEND of the `w` low bits of `v`, from bit w − 1 down to bit 0 (R135, R145). -/
def sendEvents (v : Frame) : Nat → List LineEvent
  | 0 => []
  | w + 1 => sendCellEvents (v.getLsbD w) ++ sendEvents v w

/-- RECV cells with the given samples: `[CLK↑, CLK↓, sample]` each. -/
def recvEvents (samples : List Bool) : List LineEvent :=
  samples.flatMap fun b => [.clkUp, .clkDown, .sample b]

/-- Poll slots with the given samples: clocked, `[CLK↑, CLK↓, sample]`; otherwise `[sample]`. -/
def pollEvents (clocked : Bool) (samples : List Bool) : List LineEvent :=
  samples.flatMap fun b => if clocked then [.clkUp, .clkDown, .sample b] else [.sample b]

/-- CS_ON. -/
def csOnEvents : List LineEvent := [.csUp]

/-- CS_OFF. -/
def csOffEvents : List LineEvent := [.csDown, .di false]

/-- EWEN and EWDS as a whole, with the frame they send (R108, R144; vector V4.2). -/
def enableEvents (frame : Frame) : List LineEvent := csOnEvents ++ sendEvents frame 9 ++ csOffEvents

/-- READ as a whole, with its frame and its eight samples (R108, R144). -/
def readEvents (frame : Frame) (samples : List Bool) : List LineEvent :=
  csOnEvents ++ sendEvents frame 9 ++ recvEvents samples ++ csOffEvents

/-- WRITE and WRITEB up to the poll: the EWEN transaction, the WRITE frame with its data, and the CS↑ of the poll (R108,
R164). -/
def writeHeadEvents (ewen frame : Frame) (data : Byte) : List LineEvent :=
  enableEvents ewen ++ (csOnEvents ++ sendEvents frame 9 ++ sendEvents (data.setWidth 9) 8 ++ csOffEvents) ++ csOnEvents

/-- WRITE and WRITEB as a whole, with the samples of their poll (R108, R144, R164, R168). -/
def writeEvents (ewen frame : Frame) (data : Byte) (ewds : Frame) (clocked : Bool) (samples : List Bool) : List LineEvent :=
  writeHeadEvents ewen frame data ++ pollEvents clocked samples ++ csOffEvents ++ enableEvents ewds

/-! ## The events of an edge -/

/-- The events at the start edge of a micro-op. -/
def Seq.startEvents (p : Params) (q : Seq) : MicroOp → List LineEvent
  | .csOn => csOnEvents
  | .csOff => csOffEvents
  | .send src => [.di ((frameBits (src.raw p q.work)).getLsbD (frameWidth (src.raw p q.work) - 1))]
  | .recv8 => []
  | .poll _ => if q.work.pclk then [.clkUp] else []

/-- The events at the edge where a micro-op ends: those of the next one's start. -/
def Seq.finishEvents (p : Params) (q : Seq) : List LineEvent :=
  match q.followingOp with
  | some op => q.startEvents p op
  | none => []

/-- The events of SEND when its wait runs out. -/
def Seq.sendActEvents (p : Params) (q : Seq) : List LineEvent :=
  match q.phase with
  | .setup => [.clkUp]
  | .high => [.clkDown]
  | .low => if q.bitIdx = 0#4 then q.finishEvents p else [.di (q.shVal.getLsbD (q.bitIdx.toNat - 1))]
  | .idle => []
  | .hold => []

/-- The events of RECV8 when its wait runs out. -/
def Seq.recvActEvents (p : Params) (b : Bool) (q : Seq) : List LineEvent :=
  match q.phase with
  | .setup => [.clkUp]
  | .high => [.clkDown]
  | .low => .sample b :: (if q.cell = 7#4 then q.finishEvents p else [])
  | .idle => []
  | .hold => []

/-- The events of POLL when its wait runs out. -/
def Seq.pollActEvents (p : Params) (bounded b : Bool) (q : Seq) : List LineEvent :=
  match q.phase with
  | .high => if q.work.pclk then [.clkDown] else []
  | .low =>
    .sample b ::
      (if b then q.finishEvents p
       else if bounded && q.countSlot.slotCtr == q.work.pmax then q.finishEvents p
       else if q.work.pclk then [.clkUp] else [])
  | .setup => []
  | .idle => []
  | .hold => []

/-- The events of the running micro-op when its wait runs out. -/
def Seq.actEvents (p : Params) (b : Bool) (q : Seq) : List LineEvent :=
  match q.currentOp with
  | some .csOn => q.finishEvents p
  | some .csOff => q.finishEvents p
  | some (.send _) => q.sendActEvents p
  | some .recv8 => q.recvActEvents p b
  | some (.poll bounded) => q.pollActEvents p bounded b
  | none => []

/-- The events of the sequencer at an edge while a command runs. -/
def Seq.edgeEvents (p : Params) (b : Bool) (q : Seq) : List LineEvent :=
  if q.dly.toNat ≤ 1 then q.actEvents p b else []

/-- The events of the edge that ends this cycle: those of the sequencer, or CS↑ where a command with a micro-program is
accepted. Reset is no event of a command (R230). -/
def State.edgeEvents (acc : Access) (s : State) : List LineEvent :=
  if s.rst then []
  else if s.mwm.seq.busy then s.mwm.seq.edgeEvents s.params s.mwm.sampleDO
  else match acc with
    | .write idx v => if idx = 0#3 ∧ microProgram (cmdOp v) ≠ [] then csOnEvents else []
    | .read _ => []
    | .none => []

/-- The events of `n` steps. -/
def eventsOver : Nat → State → List LineEvent
  | 0, _ => []
  | n + 1, s =>
    match step s with
    | .next t => s.edgeEvents s.portAccess ++ eventsOver n t
    | .fault _ => []
    | .refused _ => []

end Sys2Proof.Machine
end

