-- ==== Sys2Proof/Machine/Timing.lean ====
section
/-! DEFINITION. How long the micro-ops and the commands take, in cycles of `clk` (40_primitives.md R137, R140, R143;
70_reset_and_hazards.md R245), with S, H and C the working or the host-visible copies of TIMING. -/

namespace Sys2Proof.Machine

/-- L = S + 2·H: one cell (40_primitives.md, opening). -/
def cellCycles (su th : Nat) : Nat := su + 2 * th

/-- SEND of `w` bits: w·L (R137). -/
def sendCycles (su th w : Nat) : Nat := w * cellCycles su th

/-- RECV8: 8·L (R140). -/
def recvCycles (su th : Nat) : Nat := Config.readBits * cellCycles su th

/-- POLL of `k` slots: 2·H·k (R143). -/
def pollCycles (th k : Nat) : Nat := 2 * th * k

/-- EWEN and EWDS from accept to completion: 2C + 9L (R245). -/
def enableCycles (su th cs : Nat) : Nat := 2 * cs + sendCycles su th 9

/-- READ from accept to completion: 2C + 17L (R245). -/
def readCycles (su th cs : Nat) : Nat := 2 * cs + 17 * cellCycles su th

/-- WRITE and WRITEB from accept to completion, with `k` poll slots: 8C + 35L + 2Hk (R245). -/
def writeCycles (su th cs k : Nat) : Nat := 8 * cs + 35 * cellCycles su th + pollCycles th k

/-- The duration of EWEN or EWDS accepted with these host-visible registers: S, H, C are latched from them at the accept
edge (R39). -/
def HostRegs.enableTime (h : HostRegs) : Nat := enableCycles h.tSu.toNat h.tHalf.toNat h.tCs.toNat

/-- The same for READ. -/
def HostRegs.readTime (h : HostRegs) : Nat := readCycles h.tSu.toNat h.tHalf.toNat h.tCs.toNat

/-- The same for WRITE and WRITEB with `k` poll slots. -/
def HostRegs.writeTime (h : HostRegs) (k : Nat) : Nat := writeCycles h.tSu.toNat h.tHalf.toNat h.tCs.toNat k

/-- From the accept edge of WRITE or WRITEB to the start edge of its poll: 5C + 26L (R131, R132, R137, R164). -/
def HostRegs.pollStart (h : HostRegs) : Nat :=
  5 * h.tCs.toNat + sendCycles h.tSu.toNat h.tHalf.toNat 26

/-- The real time of so many cycles, in seconds (R246, D37): F_CLK is open. -/
def realTime (cycles : Nat) : Rat := (cycles : Rat) / (Config.fClk : Rat)

end Sys2Proof.Machine
end

