-- ==== Sys2Proof/Safety.lean ====
section
/-! DEFINITION. What a good state is, and the terms the statements are written in. -/

namespace Sys2Proof.Machine

/-! ## The invariant of the machine (10_state.md R46, and the legal values of R32, R33, R39) -/

/-- The host-visible registers hold legal values (R32, R33), and CMD shows its reserved bits as 0 (R23, R103). -/
def HostRegs.Legal (h : HostRegs) : Prop :=
  2 ≤ h.tHalf.toNat ∧ 1 ≤ h.tSu.toNat ∧ 1 ≤ h.tCs.toNat ∧ 1 ≤ h.pollMax.toNat ∧ h.cmd = cmdReadback h.cmd

/-- The working operands are those of the word CMD shows (R23, R39). -/
def Mwm.operandsLatched (m : Mwm) : Prop :=
  m.seq.work.op = cmdOp m.host.cmd ∧ m.seq.work.addr = cmdAddr m.host.cmd ∧ m.seq.work.data = cmdData m.host.cmd

/-- ILLEGAL belongs to a reserved OP, TIMEOUT to WRITEB (R26, R27, R206 (a)); while a command runs the three flags of the
last command are clear (R160). -/
def Mwm.flagsLegal (m : Mwm) : Prop :=
  (m.host.illegal = true → m.seq.work.op = 6#3 ∨ m.seq.work.op = 7#3) ∧
    (m.host.timeout = true → m.seq.work.op = 5#3) ∧
    (m.seq.busy = true → m.host.done = false ∧ m.host.timeout = false ∧ m.host.illegal = false)

/-- R46 (a): idle, the three lines are 0; nothing of the sequencer is under way. -/
def Seq.idleLegal (q : Seq) : Prop :=
  q.csQ = false ∧ q.clkQ = false ∧ q.diQ = false ∧ q.upc = 0#4 ∧ q.dly = 0#17 ∧ q.phase = .idle

/-- The longest wait of a phase (R131, R132, R134, R138, R141). -/
def Seq.phaseCycles (q : Seq) : Nat :=
  match q.phase with
  | .idle => 0
  | .hold => q.work.cs.toNat
  | .setup => q.work.su.toNat
  | .high => q.work.th.toNat
  | .low => q.work.th.toNat

/-- CLK and the phase within a cell: CLK is 1 in the high phase and in no other (R133). -/
def Seq.cellLegal (q : Seq) : Prop :=
  q.csQ = true ∧ (q.phase = .setup ∨ q.phase = .high ∨ q.phase = .low) ∧ q.clkQ = decide (q.phase = .high)

/-- The lines and counters of each micro-op while it runs (R46 (b), R131 to R142). -/
def Seq.opLegal (p : Params) (q : Seq) : Prop :=
  match q.currentOp with
  | some .csOn => q.phase = .hold ∧ q.csQ = true ∧ q.clkQ = false ∧ q.diQ = false
  | some .csOff => q.phase = .hold ∧ q.csQ = false ∧ q.clkQ = false ∧ q.diQ = false
  | some (.send src) =>
    q.cellLegal ∧ q.shVal = frameBits (src.raw p q.work) ∧ q.bitIdx.toNat < frameWidth (src.raw p q.work) ∧
      q.diQ = q.shVal.getLsbD q.bitIdx.toNat
  | some .recv8 => q.cellLegal ∧ q.cell.toNat < 8
  | some (.poll bounded) =>
    q.csQ = true ∧ q.diQ = false ∧ (q.phase = .high ∨ q.phase = .low) ∧
      q.clkQ = (decide (q.phase = .high) && q.work.pclk) ∧ (bounded = true → q.slotCtr.toNat < q.work.pmax.toNat)
  | none => False

/-- Legal working timing (R32, R33, R39). -/
def Work.Legal (w : Work) : Prop := 2 ≤ w.th.toNat ∧ 1 ≤ w.su.toNat ∧ 1 ≤ w.cs.toNat ∧ 1 ≤ w.pmax.toNat

/-- A command is running (R43): legal working timing, a micro-op at `upc`, a wait within its phase; `timed_out` only after
a bounded poll, and before it `slot_ctr` is 0 (R42). -/
def Seq.runLegal (p : Params) (q : Seq) : Prop :=
  q.work.Legal ∧ 1 ≤ q.dly.toNat ∧ q.dly.toNat ≤ q.phaseCycles ∧ q.opLegal p ∧
    (q.upc.toNat < 8 → q.slotCtr = 0#32 ∧ q.timedOut = false) ∧ (q.upc.toNat = 8 → q.timedOut = false)

/-- The invariant of the MWM. -/
def Mwm.Legal (p : Params) (m : Mwm) : Prop :=
  m.host.Legal ∧ m.operandsLatched ∧ m.flagsLegal ∧ (m.seq.timedOut = true → m.seq.work.op = 5#3) ∧
    (m.seq.busy = false → m.seq.idleLegal) ∧ (m.seq.busy = true → m.seq.runLegal p)

/-- The invariant of the reference device (20_memory.md R75): its cells in canonical form, its counters in their ranges, a
busy device with time left. -/
def Device.Legal (d : Device) : Prop :=
  Memory.wf d.mem ∧ (d.phase = .cmdIn → d.n ≤ 8) ∧ (d.phase = .wData → d.n ≤ 7) ∧ d.k ≤ 8 ∧
    (d.busy = true → 1 ≤ d.busyRem)

/-- The invariant of the machine. Before the first reset nothing is known of the MWM (R47). -/
def State.Legal (s : State) : Prop :=
  (s.resetSeen = true → s.mwm.Legal s.params) ∧ s.env.dev.Legal

/-! ## Terms of the statements -/

/-- An ordinary cycle: `rst` has been seen, and it is low in this one. -/
def State.running (s : State) : Prop := s.resetSeen = true ∧ s.rst = false

/-- `rst` stays low for as long as the script goes. -/
def State.quiet (s : State) : Prop := s.resetSeen = true ∧ ∀ q ∈ s.script, q.rst = false

/-- Everything of a cycle but the MWM's registers and the level of `bus_rdata`: the parameters stay, the host moves on in
its script, the environment sees the pins, and every device cell but those the environment commits in this cycle is
unchanged. -/
def State.othersAdvance (s t : State) : Prop :=
  t.params = s.params ∧ t.resetSeen = true ∧ t.cycle = s.cycle + 1 ∧ t.script = s.nextScript ∧
    t.env = { s.env.observe s.params s.mwm s.cycle with doPrev := s.doPin } ∧
    ∀ a, a ∉ s.env.commitAddrs s.params s.mwm →
      Memory.read t.env.dev.mem a = Memory.read s.env.dev.mem a

/-- The environment is the reference device, nothing too fast has happened to it, and the TIMING that the next command latches
exceeds its minima (70_reset_and_hazards.md R241). -/
def State.deviceFollows (s : State) : Prop :=
  s.env.kind = .reference ∧ s.env.conduct = .sound ∧ s.env.minima.half < s.mwm.host.tHalf.toNat ∧
    s.env.minima.su < s.mwm.host.tSu.toNat ∧ s.env.minima.cs < s.mwm.host.tCs.toNat

/-- The sequencer after the edge that ends this cycle, were there no host access and no `rst`: idle, it stays as it is. -/
def State.seqNext (s : State) : Seq :=
  if s.mwm.seq.busy then s.mwm.seq.edge s.params s.mwm.doS2 else s.mwm.seq

/-- Does the running command complete at the edge that ends this cycle? -/
def State.completes (s : State) : Bool := s.mwm.seq.busy && !s.seqNext.busy

/-- The host-visible registers after that edge, were there no host access and no `rst` (R171). -/
def State.hostNext (s : State) : HostRegs :=
  if s.completes then
    { s.mwm.host with
      done := true
      rdata := if s.mwm.seq.work.op = 1#3 then s.mwm.seq.acc else s.mwm.host.rdata
      timeout := if s.mwm.seq.work.op = 5#3 then s.mwm.seq.timedOut else s.mwm.host.timeout }
  else s.mwm.host

/-- An MWM with these registers, after the synchronizer has taken this cycle's DO (R38). -/
def State.synced (s : State) (host : HostRegs) (seq : Seq) : Mwm :=
  { host := host, seq := seq, doS1 := s.doIn, doS2 := s.mwm.doS1 }

/-- The host-visible registers when the word `{8'b0, data, addr, 5'b0, op}` has just been accepted (R160). -/
def HostRegs.accepted (op : BitVec 3) (addr data : Byte) (h : HostRegs) : HostRegs :=
  { h with cmd := 0#8 ++ data ++ addr ++ 0#5 ++ op, done := false, timeout := false, illegal := false }

/-- The sequencer when that word has just been accepted, and nothing started yet (R39, R160). -/
def Mwm.acceptedSeq (op : BitVec 3) (addr data : Byte) (m : Mwm) : Seq :=
  { m.seq with
    work :=
      { op := op, addr := addr, data := data, th := m.host.tHalf, su := m.host.tSu, cs := m.host.tCs,
        pmax := m.host.pollMax, pclk := m.host.pollClk }
    slotCtr := 0#32
    timedOut := false }

/-- The host instructions that write CMD: the eight CMD32 words and WR to index 0, with the word each writes. -/
def writesCmd : Instr → Option Word
  | .init a d => some (cmdWord 0#3 a d)
  | .read a d => some (cmdWord 1#3 a d)
  | .write a d => some (cmdWord 2#3 a d)
  | .ewen a d => some (cmdWord 3#3 a d)
  | .ewds a d => some (cmdWord 4#3 a d)
  | .writeb a d => some (cmdWord 5#3 a d)
  | .reserved6 a d => some (cmdWord 6#3 a d)
  | .reserved7 a d => some (cmdWord 7#3 a d)
  | .wr idx v => if idx = 0#3 then some v else none
  | .rd _ => none
  | .frameRead _ | .frameWrite _ | .frameEwen | .frameEwds | .frameData _ => none

/-- The instructions that are host bus cycles. -/
def isHostInstr : Instr → Bool
  | .init _ _ | .read _ _ | .write _ _ | .ewen _ _ | .ewds _ _ | .writeb _ _ | .reserved6 _ _ | .reserved7 _ _ => true
  | .wr _ _ | .rd _ => true
  | .frameRead _ | .frameWrite _ | .frameEwen | .frameEwds | .frameData _ => false

/-- The word that a host access gets accepted in this cycle (R160). -/
def State.acceptedWord (acc : Access) (s : State) : Option Word :=
  match acc with
  | .write idx v => if idx = 0#3 ∧ s.mwm.seq.busy = false then some v else none
  | .read _ => none
  | .none => none

/-- The host access clears the STATUS flag at bit `n` (R62). -/
def clearsFlag (acc : Access) (n : Nat) : Bool :=
  match acc with
  | .write idx v => decide (idx = 1#3) && v.getLsbD n
  | .read _ => false
  | .none => false

/-- The device after rising clocks that carry the given DI bits (20_memory.md R80 to R84). -/
def Device.clockBits (bits : List Bool) (d : Device) : Device := bits.foldl (fun d b => d.clockRise b) d

/-- The bits of a 9-bit frame in DI order (R135). -/
def frameDiBits (v : Frame) : List Bool := (List.range 9).map fun j => v.getLsbD (8 - j)

/-- The bits of a byte in DI order (R135). -/
def byteDiBits (v : Byte) : List Bool := (List.range 8).map fun j => v.getLsbD (7 - j)

/-- After `n` steps the machine is in a state of which `P` holds. -/
def After (n : Nat) (s : State) (P : State → Prop) : Prop :=
  ∃ t, Host.Core.run Sys2Proof.core n s = .next t ∧ P t

end Sys2Proof.Machine
end

