-- ==== Sys2Proof/Certificates/Slice0/Obligations.lean ====
section
/-! DEFINITION. The statements for the provers. -/

open Sys2Proof Sys2Proof.Machine

/-! ## Encoding -/

/-- Decoding an encoded instruction gives it back, on bits and on bytes. (The byte layout is the model's choice, log
entry 5.) -/
def Obligations.DecodeEncodeRoundTrip : Prop :=
  ∀ i : Instr, i.wellFormed = true → decode (encode i) = .instr i ∧ decodeBytes (encodeBytes i) = .instr i

/-- Encoding a decoded word gives the word with its ignored bits at 0; a 9-bit word that is none of the four frames is
refused by name. -/
def Obligations.EncodeDecodeCanonicalWord : Prop :=
  (∀ w : BitVec 32, encode (decodeCmd32 w) = .cmd32 (w &&& 0x00FFFF07#32)) ∧
  (∀ w : BitVec 36, encode (decodeHostbus w) = .hostbus (if w.getLsbD 35 then w else w &&& 0xF00000000#36)) ∧
  (∀ w : BitVec 9, (∃ i, decodeWire9 w = .instr i ∧ encode i = .wire9 w) ∨ decodeWire9 w = .error .unknownFrame)

/-- Words written out from the tables of 30_encoding.md decode to the instructions they stand for. -/
def Obligations.WrittenOutWordsDecode : Prop :=
  decode (.cmd32 0x00A50502#32) = .instr (.write 0x05#8 0xA5#8) ∧
  decode (.cmd32 0x00003F01#32) = .instr (.read 0x3F#8 0x00#8) ∧
  decode (.hostbus 0xB01010002#36) = .instr (.wr 3#3 0x01010002#32) ∧
  decode (.hostbus 0x100000000#36) = .instr (.rd 1#3) ∧
  decode (.wire9 0b110000101#9) = .instr (.frameRead 5#6) ∧
  decode (.wire9 0b101111111#9) = .instr (.frameWrite 63#6) ∧
  decode (.wire9 0b100110000#9) = .instr .frameEwen ∧
  decode (.wire9 0b100000000#9) = .instr .frameEwds ∧
  decode (.wire9 0b111000000#9) = .error .unknownFrame ∧
  decode (.wire8 0xA5#8) = .instr (.frameData 0xA5#8)

/-- R103: bits [7:3] and [31:24] of a CMD word change nothing, read back as 0 and never cause ILLEGAL. -/
def Obligations.CmdReservedBitsIgnored : Prop :=
  ∀ (v w : Word) (s : State), cmdOp v = cmdOp w → cmdAddr v = cmdAddr w → cmdData v = cmdData w →
    decodeCmd32 v = decodeCmd32 w ∧
    exec (.wr 0#3 v) s = exec (.wr 0#3 w) s ∧
    (s.running → s.mwm.seq.busy = false → ∃ t, exec (.wr 0#3 v) s = .next t ∧
      (t.mwm.regRead 0#3).extractLsb' 3 5 = 0#5 ∧ (t.mwm.regRead 0#3).extractLsb' 24 8 = 0#8 ∧
      (t.mwm.host.illegal = true → cmdOp v = 6#3 ∨ cmdOp v = 7#3))

/-- A CMD32 instruction is the host bus write of its word to CMD (R101, R102, R113). -/
def Obligations.CommandIsWriteOfCmd : Prop :=
  ∀ (w : Word) (s : State), exec (decodeCmd32 w) s = exec (.wr 0#3 w) s

/-- R113: the pseudo-instructions expand to the host bus cycles the table gives; `WAITIDLE` is a read of STATUS that is
repeated while it reads BUSY = 1. A `.cmd` request is a `WR CMD` cycle of its word. -/
def Obligations.PseudoExpansions : Prop :=
  (∀ a d : Byte,
    expand .init = [.cmd 0x00000000#32] ∧
    expand (.read a.toNat) = [.cmd ((a.setWidth 32 <<< 8) ||| 0x1#32)] ∧
    expand (.write a.toNat d.toNat) = [.cmd ((d.setWidth 32 <<< 16) ||| (a.setWidth 32 <<< 8) ||| 0x2#32)] ∧
    expand .ewen = [.cmd 0x00000003#32] ∧
    expand .ewds = [.cmd 0x00000004#32] ∧
    expand (.writeb a.toNat d.toNat) = [.cmd ((d.setWidth 32 <<< 16) ||| (a.setWidth 32 <<< 8) ||| 0x5#32)] ∧
    expand .clrSt = [.bus (busWriteBits 1#3 0x0000001E#32)]) ∧
  (∀ (w : Word) (s : State) (rest : List Pins),
    step { s with script := ⟨false, .cmd w⟩ :: rest } =
      step { s with script := ⟨false, .bus (busWriteBits 0#3 w)⟩ :: rest }) ∧
  (∀ (h : BitVec 16) (s c : BitVec 8), expand (.setTime h.toNat s.toNat c.toNat) =
    [.bus (busWriteBits 3#3 ((c.setWidth 32 <<< 24) ||| (s.setWidth 32 <<< 16) ||| h.setWidth 32))]) ∧
  (∀ (s : State) (rest : List Pins), s.resetSeen = true → s.script = ⟨false, .waitIdle⟩ :: rest →
    expand .waitIdle = [.waitIdle] ∧
    ∃ t, step s = .next t ∧ exec (.rd 1#3) s = .next t ∧ t.busRdata = s.mwm.status ∧
      (s.mwm.status.getLsbD 0 = true → t.script = s.script) ∧ (s.mwm.status.getLsbD 0 = false → t.script = rest))

/-! ## The step -/

/-- When the bits of this cycle decode to an instruction, the step is its meaning. The bits are the host's request, or, in
a cycle with no request and no reset, the frame that the running micro-program starts to send, or finishes receiving. -/
def Obligations.StepRunsDecodedInstruction : Prop :=
  (∀ (s : State) (r : Raw) (i : Instr), s.fetch = some r → decode r = .instr i → i.wellFormed = true →
    step s = exec i s) ∧
  (∀ (s : State) (rst : Bool) (rest : List Pins) (w : BitVec 32),
    s.script = ⟨rst, .cmd w⟩ :: rest → s.fetch = some (.cmd32 w)) ∧
  (∀ (s : State) (rst : Bool) (rest : List Pins) (b : BitVec 36),
    s.script = ⟨rst, .bus b⟩ :: rest → s.fetch = some (.hostbus b)) ∧
  (∀ (s : State) (r : Raw), s.req = .idle → s.running → s.mwm.seq.sendDue s.params = some r → s.fetch = some r) ∧
  (∀ (s : State) (d : Byte), s.req = .idle → s.running → s.mwm.seq.recvDue s.mwm.sampleDO = some d → s.fetch = some (.wire8 d))

/-- After the first reset no step stops: every step is one whole cycle with the access that stands on the port. -/
def Obligations.EveryStepIsOneCycle : Prop :=
  ∀ s : State, s.resetSeen = true → step s = .next (s.clkCycle s.portAccess)

/-! ## Reset -/

/-- R230: at an edge with `rst` = 1 every register of the MWM takes its reset value, whatever the host does and whatever
runs, the first reset edge included; a read in that cycle shows the registers as they stand. The device is not reset
(R233). -/
def Obligations.ResetEdgeWinsOverEverything : Prop :=
  (∀ (i : Instr) (s : State), isHostInstr i = true → s.resetSeen = true → s.rst = true →
    ∃ t, exec i s = .next t ∧ t.mwm = Mwm.reset ∧ s.othersAdvance t ∧
      ∀ idx, i = .rd idx → t.busRdata = s.mwm.regRead idx) ∧
  (∀ s : State, s.rst = true → (s.resetSeen = true ∨ ∀ idx, s.portAccess ≠ .read idx) →
    ∃ t, step s = .next t ∧ t.mwm = Mwm.reset ∧ t.resetSeen = true ∧ (s.resetSeen = true → s.othersAdvance t))

/-- R231: the reset value of every register; after reset the MWM is idle and accepts a command in its first cycle. -/
def Obligations.ResetValues : Prop :=
  (State.reset.mwm = Mwm.reset ∧ Mwm.reset.regRead 0#3 = 0#32 ∧ Mwm.reset.regRead 1#3 = 0#32 ∧
    Mwm.reset.regRead 2#3 = 0#32 ∧ Mwm.reset.regRead 3#3 = 0xFFFFFFFF#32 ∧ Mwm.reset.regRead 4#3 = 0xFFFFFFFF#32 ∧
    Mwm.reset.regRead 5#3 = 0#32 ∧ Mwm.reset.host.cmd = 0#32 ∧ Mwm.reset.host.done = false ∧
    Mwm.reset.host.timeout = false ∧ Mwm.reset.host.illegal = false ∧ Mwm.reset.host.dropped = false ∧
    Mwm.reset.host.rdata = 0x00#8 ∧ Mwm.reset.host.tHalf.toNat = 65535 ∧ Mwm.reset.host.tSu.toNat = 255 ∧
    Mwm.reset.host.tCs.toNat = 255 ∧ Mwm.reset.host.pollMax = 0xFFFFFFFF#32 ∧ Mwm.reset.host.pollClk = false) ∧
  (Mwm.reset.seq.busy = false ∧ Mwm.reset.seq.csQ = false ∧ Mwm.reset.seq.clkQ = false ∧ Mwm.reset.seq.diQ = false ∧
    Mwm.reset.doS1 = false ∧ Mwm.reset.doS2 = false ∧ Mwm.reset.seq.work.op = 0#3 ∧ Mwm.reset.seq.work.addr = 0#8 ∧
    Mwm.reset.seq.work.data = 0#8 ∧ Mwm.reset.seq.work.th = 0#16 ∧ Mwm.reset.seq.work.su = 0#8 ∧
    Mwm.reset.seq.work.cs = 0#8 ∧ Mwm.reset.seq.work.pmax = 0#32 ∧ Mwm.reset.seq.work.pclk = false ∧
    Mwm.reset.seq.acc = 0#8 ∧ Mwm.reset.seq.shVal = 0#9 ∧ Mwm.reset.seq.bitIdx = 0#4 ∧
    Mwm.reset.seq.slotCtr = 0#32 ∧ Mwm.reset.seq.timedOut = false ∧ Mwm.reset.seq.upc = 0#4 ∧
    Mwm.reset.seq.dly = 0#17 ∧ Mwm.reset.seq.phase = .idle) ∧
  (∀ (s : State) (a d : Byte), s.running → s.mwm = Mwm.reset →
    ∃ t, exec (.read a d) s = .next t ∧ t.mwm.seq.busy = true ∧ t.mwm.host.cmd = 0#8 ++ d ++ a ++ 0#5 ++ 1#3)

/-- The machine's invariant holds right after reset. -/
def Obligations.ResetStateIsLegal : Prop := State.reset.Legal

/-- Every step keeps the invariant: R46 (a) and (b), the legal values of TIMING and POLL_MAX, the micro-op and its lines,
the frame in `sh_val`, the device's cells in canonical form. -/
def Obligations.StepKeepsLegal : Prop :=
  ∀ s t : State, s.Legal → step s = .next t → t.Legal

/-- Before the first reset nothing is observed (R47, U9): accesses are refused, a cycle without one is a fault, and only
`rst` goes on. (Which of fault and refusal is the model's choice, log entry 10.) -/
def Obligations.NothingObservedBeforeReset : Prop :=
  ∀ s : State, s.resetSeen = false →
    (∀ idx, exec (.rd idx) s = .refused .beforeFirstReset) ∧
    (s.rst = false → ∀ i : Instr, exec i s = .refused .beforeFirstReset) ∧
    (s.rst = false → s.req = .idle → step s = .fault .stateUnknown) ∧
    (s.rst = true → ∀ idx v, ∃ t, exec (.wr idx v) s = .next t ∧ t.mwm = Mwm.reset ∧ t.resetSeen = true)

/-! ## The host bus -/

/-- R61: what a read shows for every index, and that it changes no state: the MWM goes on as in a cycle without an access,
in which `bus_rdata` is 0. With `rst` = 1 too. -/
def Obligations.HostReadShowsRegister : Prop :=
  ∀ (s : State) (idx : RegIdx), s.resetSeen = true →
    ∃ t u, exec (.rd idx) s = .next t ∧ s.hostCycle .none = .next u ∧
      t.mwm = u.mwm ∧ (s.rst = false → t.mwm = s.synced s.hostNext s.seqNext) ∧ s.othersAdvance t ∧ s.othersAdvance u ∧
      u.busRdata = 0#32 ∧
      (idx = 0#3 → t.busRdata = s.mwm.host.cmd) ∧
      (idx = 1#3 → t.busRdata = 0#20 ++ bit s.mwm.doS2 ++ bit s.mwm.seq.diQ ++ bit s.mwm.seq.clkQ ++
        bit s.mwm.seq.csQ ++ 0#3 ++ bit s.mwm.host.dropped ++ bit s.mwm.host.illegal ++ bit s.mwm.host.timeout ++
        bit s.mwm.host.done ++ bit s.mwm.seq.busy) ∧
      (idx = 2#3 → t.busRdata = 0#24 ++ s.mwm.host.rdata) ∧
      (idx = 3#3 → t.busRdata = s.mwm.host.tCs ++ s.mwm.host.tSu ++ s.mwm.host.tHalf) ∧
      (idx = 4#3 → t.busRdata = s.mwm.host.pollMax) ∧
      (idx = 5#3 → t.busRdata = 0#31 ++ bit s.mwm.host.pollClk) ∧
      (idx = 6#3 ∨ idx = 7#3 → t.busRdata = 0#32)

/-- R62: what a host write does at the edge that ends its cycle, for every index, whether a command runs or not. The
sequencer goes on as it would without the write; a STATUS flag that the edge sets stays set. -/
def Obligations.HostWriteTakesEffect : Prop :=
  ∀ (s : State) (idx : RegIdx) (v : Word), s.running →
    ∃ t, exec (.wr idx v) s = .next t ∧ s.othersAdvance t ∧
      (idx = 0#3 → s.mwm.seq.busy = true → t.mwm = s.synced { s.hostNext with dropped := true } s.seqNext) ∧
      (idx = 0#3 → s.mwm.seq.busy = false →
        t.mwm = s.synced (s.mwm.accept s.params v).host (s.mwm.accept s.params v).seq) ∧
      (idx = 1#3 → t.mwm = s.synced
        { s.hostNext with
          done := s.completes || (s.mwm.host.done && !v.getLsbD 1)
          timeout := if s.completes && decide (s.mwm.seq.work.op = 5#3) then s.mwm.seq.timedOut
            else s.mwm.host.timeout && !v.getLsbD 2
          illegal := s.mwm.host.illegal && !v.getLsbD 3
          dropped := s.mwm.host.dropped && !v.getLsbD 4 } s.seqNext) ∧
      (idx = 3#3 → t.mwm = s.synced
        { s.hostNext with
          tHalf := BitVec.ofNat 16 (max (v.extractLsb' 0 16).toNat 2)
          tSu := BitVec.ofNat 8 (max (v.extractLsb' 16 8).toNat 1)
          tCs := BitVec.ofNat 8 (max (v.extractLsb' 24 8).toNat 1) } s.seqNext) ∧
      (idx = 4#3 → t.mwm = s.synced { s.hostNext with pollMax := BitVec.ofNat 32 (max v.toNat 1) } s.seqNext) ∧
      (idx = 5#3 → t.mwm = s.synced { s.hostNext with pollClk := v.getLsbD 0 } s.seqNext) ∧
      (idx = 2#3 ∨ idx = 6#3 ∨ idx = 7#3 → t.mwm = s.synced s.hostNext s.seqNext)

/-- R25 to R28: the STATUS bit and the reset value of each of the four flags, and when it is set and cleared, for every
access of a cycle. -/
def Obligations.StatusFlagRules : Prop :=
  (∀ m : Mwm, m.status.getLsbD 1 = m.host.done ∧ m.status.getLsbD 2 = m.host.timeout ∧
    m.status.getLsbD 3 = m.host.illegal ∧ m.status.getLsbD 4 = m.host.dropped) ∧
  (Mwm.reset.host.done = false ∧ Mwm.reset.host.timeout = false ∧ Mwm.reset.host.illegal = false ∧
    Mwm.reset.host.dropped = false) ∧
  ∀ (s : State) (acc : Access), s.running →
    ∃ t, s.hostCycle acc = .next t ∧
      (∀ v, s.acceptedWord acc = some v →
        t.mwm.host.done = decide (cmdOp v = 0#3 ∨ cmdOp v = 6#3 ∨ cmdOp v = 7#3) ∧
        t.mwm.host.timeout = false ∧
        t.mwm.host.illegal = decide (cmdOp v = 6#3 ∨ cmdOp v = 7#3) ∧
        t.mwm.host.dropped = s.mwm.host.dropped) ∧
      (s.acceptedWord acc = none →
        t.mwm.host.done = (s.completes || (s.mwm.host.done && !clearsFlag acc 1)) ∧
        t.mwm.host.timeout = (if s.completes && decide (s.mwm.seq.work.op = 5#3) then s.mwm.seq.timedOut
          else s.mwm.host.timeout && !clearsFlag acc 2) ∧
        t.mwm.host.illegal = (s.mwm.host.illegal && !clearsFlag acc 3) ∧
        (t.mwm.host.dropped = true ↔ (∃ v, acc = .write 0#3 v ∧ s.mwm.seq.busy = true) ∨
          (s.mwm.host.dropped = true ∧ clearsFlag acc 4 = false)))

/-! ## Commands -/

/-- R205: a CMD write in a cycle with `busy` = 1, the one that ends at the completion edge included, sets DROPPED and
disturbs nothing; with `busy` = 0 the word is accepted. For all nine instructions that write CMD. -/
def Obligations.CmdWriteWhileBusyIsDropped : Prop :=
  ∀ (i : Instr) (v : Word) (s : State), writesCmd i = some v → s.running →
    (s.mwm.seq.busy = true → ∃ t, exec i s = .next t ∧
      t.mwm = s.synced { s.hostNext with dropped := true } s.seqNext ∧ s.othersAdvance t ∧
      t.mwm.host.cmd = s.mwm.host.cmd ∧ t.mwm.seq.work = s.mwm.seq.work) ∧
    (s.mwm.seq.busy = false → ∃ t, exec i s = .next t ∧
      t.mwm.host.cmd = 0#8 ++ cmdData v ++ cmdAddr v ++ 0#5 ++ cmdOp v ∧
      t.mwm.host.dropped = s.mwm.host.dropped ∧ s.othersAdvance t)

/-- R160, the command start rule, for every word and every OP: what the edge does to the host-visible registers, the working
registers, the control state and the lines. -/
def Obligations.CommandStartRule : Prop :=
  ∀ (v : Word) (s : State), s.running →
    ∃ t, exec (.wr 0#3 v) s = .next t ∧ s.othersAdvance t ∧
      (s.mwm.seq.busy = true → t.mwm = s.synced { s.hostNext with dropped := true } s.seqNext) ∧
      (s.mwm.seq.busy = false →
        t.mwm.host = { s.mwm.host with
          cmd := 0#8 ++ v.extractLsb' 16 8 ++ v.extractLsb' 8 8 ++ 0#5 ++ v.extractLsb' 0 3
          done := decide (cmdOp v = 0#3 ∨ cmdOp v = 6#3 ∨ cmdOp v = 7#3)
          timeout := false
          illegal := decide (cmdOp v = 6#3 ∨ cmdOp v = 7#3) } ∧
        t.mwm.seq.work =
          { op := v.extractLsb' 0 3, addr := v.extractLsb' 8 8, data := v.extractLsb' 16 8, th := s.mwm.host.tHalf
            su := s.mwm.host.tSu, cs := s.mwm.host.tCs, pmax := s.mwm.host.pollMax, pclk := s.mwm.host.pollClk } ∧
        t.mwm.seq.slotCtr = 0#32 ∧ t.mwm.seq.timedOut = false ∧
        (cmdOp v = 0#3 → t.mwm.seq.busy = false ∧ t.mwm.seq.csQ = false ∧ t.mwm.seq.clkQ = false ∧
          t.mwm.seq.diQ = false) ∧
        (1 ≤ (cmdOp v).toNat ∧ (cmdOp v).toNat ≤ 5 → t.mwm.seq.busy = true ∧ t.mwm.seq.upc = 0#4 ∧
          t.mwm.seq.currentOp = some .csOn ∧ t.mwm.seq.csQ = true ∧ t.mwm.seq.clkQ = s.mwm.seq.clkQ ∧
          t.mwm.seq.diQ = s.mwm.seq.diQ ∧ t.mwm.seq.phase = .hold ∧ t.mwm.seq.dly = s.mwm.host.tCs.setWidth 17) ∧
        (cmdOp v = 6#3 ∨ cmdOp v = 7#3 → t.mwm.seq.busy = false ∧ t.mwm.seq.csQ = s.mwm.seq.csQ ∧
          t.mwm.seq.clkQ = s.mwm.seq.clkQ ∧ t.mwm.seq.diQ = s.mwm.seq.diQ))

/-- R173: INIT, its whole effect; from a legal state no line changes. -/
def Obligations.InitSetsDoneAndIdleLevels : Prop :=
  ∀ (a d : Byte) (s : State), s.running → s.mwm.seq.busy = false →
    ∃ t, exec (.init a d) s = .next t ∧ s.othersAdvance t ∧
      t.mwm = s.synced { s.mwm.host.accepted 0#3 a d with done := true }
        { s.mwm.acceptedSeq 0#3 a d with csQ := false, clkQ := false, diQ := false } ∧
      (s.mwm.Legal s.params → t.mwm.seq.csQ = s.mwm.seq.csQ ∧ t.mwm.seq.clkQ = s.mwm.seq.clkQ ∧
        t.mwm.seq.diQ = s.mwm.seq.diQ)

/-- R172: OP = 6 and OP = 7 set ILLEGAL and DONE, start nothing and change no line. -/
def Obligations.ReservedOpsSetIllegal : Prop :=
  ∀ (a d : Byte) (s : State), s.running → s.mwm.seq.busy = false →
    (∃ t, exec (.reserved6 a d) s = .next t ∧ s.othersAdvance t ∧
      t.mwm = s.synced { s.mwm.host.accepted 6#3 a d with illegal := true, done := true } (s.mwm.acceptedSeq 6#3 a d)) ∧
    (∃ t, exec (.reserved7 a d) s = .next t ∧ s.othersAdvance t ∧
      t.mwm = s.synced { s.mwm.host.accepted 7#3 a d with illegal := true, done := true } (s.mwm.acceptedSeq 7#3 a d))

/-- READ, WRITE, EWEN, EWDS and WRITEB at their accept edge: the word and the timing are latched, the flags of the last
command cleared, and micro-op 0, CS_ON, starts (R39, R131, R160). -/
def Obligations.CommandsStartWithCsOn : Prop :=
  ∀ (a d : Byte) (s : State), s.running → s.mwm.seq.busy = false →
    let started := fun op : BitVec 3 => s.synced (s.mwm.host.accepted op a d)
      { s.mwm.acceptedSeq op a d with
        busy := true, upc := 0#4, csQ := true, dly := s.mwm.host.tCs.setWidth 17, phase := .hold }
    (∃ t, exec (.read a d) s = .next t ∧ s.othersAdvance t ∧ t.mwm = started 1#3) ∧
    (∃ t, exec (.write a d) s = .next t ∧ s.othersAdvance t ∧ t.mwm = started 2#3) ∧
    (∃ t, exec (.ewen a d) s = .next t ∧ s.othersAdvance t ∧ t.mwm = started 3#3) ∧
    (∃ t, exec (.ewds a d) s = .next t ∧ s.othersAdvance t ∧ t.mwm = started 4#3) ∧
    (∃ t, exec (.writeb a d) s = .next t ∧ s.othersAdvance t ∧ t.mwm = started 5#3)

/-- R171: the completion edge. From a legal state it is the end edge of the last micro-op: the edge at which the wait of a
micro-op that no other follows runs out. -/
def Obligations.CompletionEdge : Prop :=
  (∀ s : State, s.Legal → s.running →
    (s.completes = true ↔ s.mwm.seq.busy = true ∧ s.mwm.seq.followingOp = none ∧ s.mwm.seq.dly = 1#17)) ∧
  ∀ s : State, s.running → s.completes = true →
    ∃ t, step s = .next t ∧ t.mwm.seq.busy = false ∧ t.mwm.seq.upc = 0#4 ∧ t.mwm.host.done = true ∧
      (s.mwm.seq.work.op = 1#3 → t.mwm.host.rdata = s.mwm.seq.acc) ∧
      (s.mwm.seq.work.op = 5#3 → t.mwm.host.timeout = s.mwm.seq.timedOut) ∧
      (s.Legal → t.mwm.seq.csQ = false ∧ t.mwm.seq.clkQ = false ∧ t.mwm.seq.diQ = false)

/-- R31 and R162: RDATA takes `acc` at the completion edge of READ, and nothing else changes it but reset. -/
def Obligations.RdataChangesOnlyWhenReadCompletes : Prop :=
  Mwm.reset.host.rdata = 0x00#8 ∧
  ∀ s : State, s.running → ∃ t, step s = .next t ∧ t.mwm.regRead 2#3 = 0#24 ++ t.mwm.host.rdata ∧
    t.mwm.host.rdata = if s.completes = true ∧ s.mwm.seq.work.op = 1#3 then s.mwm.seq.acc else s.mwm.host.rdata

/-! ## Frames -/

/-- R104: the value of each frame, header bits 9 and above dropped (R110). -/
def Obligations.FrameAssembly : Prop :=
  ∀ (p : Params) (w : Work),
    (∃ f, FrameSrc.raw p w .read = .wire9 f ∧ f.toNat = (p.readHdr.toNat ||| w.addr.toNat) % 2 ^ 9) ∧
    (∃ f, FrameSrc.raw p w .write = .wire9 f ∧ f.toNat = (p.writeHdr.toNat ||| w.addr.toNat) % 2 ^ 9) ∧
    (∃ f, FrameSrc.raw p w .ewen = .wire9 f ∧ f.toNat = p.ewenFrame.toNat % 2 ^ 9) ∧
    (∃ f, FrameSrc.raw p w .ewds = .wire9 f ∧ f.toNat = p.ewdsFrame.toNat % 2 ^ 9) ∧
    FrameSrc.raw p w .data = .wire8 w.data

/-- R106: with the default headers, an address of 0 to 63 stays out of the opcode bits; ADDR bits 6 and 7 are ORed into
frame bits 6 and 7. -/
def Obligations.AddressesStayOutOfOpcode : Prop :=
  ∀ a : Byte,
    (a.toNat < 64 →
      (addrFrame Params.default.readHdr a).toNat = 0x180 + a.toNat ∧
      (addrFrame Params.default.writeHdr a).toNat = 0x140 + a.toNat) ∧
    (addrFrame Params.default.readHdr a).extractLsb' 6 3 = (if a.getLsbD 6 then 0b111#3 else 0b110#3) ∧
    (addrFrame Params.default.writeHdr a).extractLsb' 6 3 = (if a.getLsbD 7 then 0b111#3 else 0b101#3)

/-- The frames as instructions: where the micro-program of the running command sends this frame at the edge that ends the
cycle, SEND starts (R135): `upc` advances, `sh_val` takes the frame, `bit_idx` the index of its first bit, DI that bit, and
S cycles of setup begin. For the four 9-bit frames and the data frame on DI; the host registers change as the access of the
cycle says. -/
def Obligations.FramesStartTheirSend : Prop :=
  ∀ s : State, s.running →
    let sent := fun (v : Frame) (i : Nat) => s.synced (s.mwm.hostEdge s.params s.portAccess).host
      { s.mwm.seq with
        upc := s.mwm.seq.upc + 1#4, shVal := v, bitIdx := BitVec.ofNat 4 i, diQ := v.getLsbD i
        dly := s.mwm.seq.work.su.setWidth 17, phase := .setup }
    (∀ a, s.mwm.seq.sendDue s.params = some (.wire9 (0b110#3 ++ a)) →
      ∃ t, exec (.frameRead a) s = .next t ∧ s.othersAdvance t ∧ t.mwm = sent (0b110#3 ++ a) 8) ∧
    (∀ a, s.mwm.seq.sendDue s.params = some (.wire9 (0b101#3 ++ a)) →
      ∃ t, exec (.frameWrite a) s = .next t ∧ s.othersAdvance t ∧ t.mwm = sent (0b101#3 ++ a) 8) ∧
    (s.mwm.seq.sendDue s.params = some (.wire9 0x130#9) →
      ∃ t, exec .frameEwen s = .next t ∧ s.othersAdvance t ∧ t.mwm = sent 0x130#9 8) ∧
    (s.mwm.seq.sendDue s.params = some (.wire9 0x100#9) →
      ∃ t, exec .frameEwds s = .next t ∧ s.othersAdvance t ∧ t.mwm = sent 0x100#9 8) ∧
    (∀ d : Byte, s.mwm.seq.sendDue s.params = some (.wire8 d) →
      ∃ t, exec (.frameData d) s = .next t ∧ s.othersAdvance t ∧ t.mwm = sent (d.setWidth 9) 7)

/-- The data frame on DO (R107, R139): where RECV8 completes this byte at the edge that ends the cycle, `acc` holds it and
CS_OFF starts (R132, R161). -/
def Obligations.DataFrameReceived : Prop :=
  ∀ (s : State) (d : Byte), s.running → s.mwm.seq.recvDue s.mwm.sampleDO = some d →
    d = shiftIn s.mwm.seq.acc s.mwm.doS2 ∧
    ∃ t, exec (.frameData d) s = .next t ∧ s.othersAdvance t ∧
      t.mwm = s.synced (s.mwm.hostEdge s.params s.portAccess).host
        { s.mwm.seq with
          acc := d, upc := s.mwm.seq.upc + 1#4, csQ := false, diQ := false
          dly := s.mwm.seq.work.cs.setWidth 17, phase := .hold }

/-- A frame that is not the one the running micro-program starts, or finishes receiving, at this edge is refused by name: the
model's choice, log entry 11. -/
def Obligations.FrameNotDueIsRefused : Prop :=
  ∀ s : State, s.resetSeen = true →
    (∀ a, s.mwm.seq.sendDue s.params ≠ some (.wire9 (0b110#3 ++ a)) → exec (.frameRead a) s = .refused .frameNotDue) ∧
    (∀ a, s.mwm.seq.sendDue s.params ≠ some (.wire9 (0b101#3 ++ a)) → exec (.frameWrite a) s = .refused .frameNotDue) ∧
    (s.mwm.seq.sendDue s.params ≠ some (.wire9 0x130#9) → exec .frameEwen s = .refused .frameNotDue) ∧
    (s.mwm.seq.sendDue s.params ≠ some (.wire9 0x100#9) → exec .frameEwds s = .refused .frameNotDue) ∧
    ∀ d, s.mwm.seq.sendDue s.params ≠ some (.wire8 d) → s.mwm.seq.recvDue s.mwm.sampleDO ≠ some d →
      exec (.frameData d) s = .refused .frameNotDue

/-! ## Micro-ops and whole commands -/

/-- The end of a poll slot (R141, R142): a sample of 1 ends the poll, without a timeout even at slot `w_pmax`; a bounded
poll ends with `timed_out` at slot `w_pmax`; otherwise the next slot starts, with a CLK rise exactly when `w_pclk` is 1. -/
def Obligations.PollSlotEnds : Prop :=
  ∀ (s : State) (bounded : Bool), s.running → s.mwm.seq.busy = true → s.mwm.seq.currentOp = some (.poll bounded) →
    s.mwm.seq.phase = .low → s.mwm.seq.dly.toNat ≤ 1 →
    ∃ t, step s = .next t ∧ t.mwm.seq.slotCtr.toNat = min (s.mwm.seq.slotCtr.toNat + 1) 0xFFFFFFFF ∧
      (s.mwm.doS2 = true →
        t.mwm.seq.upc = s.mwm.seq.upc + 1#4 ∧ t.mwm.seq.csQ = false ∧ t.mwm.seq.diQ = false ∧
        t.mwm.seq.timedOut = s.mwm.seq.timedOut) ∧
      (s.mwm.doS2 = false → bounded = true → t.mwm.seq.slotCtr = s.mwm.seq.work.pmax →
        t.mwm.seq.upc = s.mwm.seq.upc + 1#4 ∧ t.mwm.seq.csQ = false ∧ t.mwm.seq.diQ = false ∧
        t.mwm.seq.timedOut = true) ∧
      (s.mwm.doS2 = false → (bounded = true → t.mwm.seq.slotCtr ≠ s.mwm.seq.work.pmax) →
        t.mwm.seq.upc = s.mwm.seq.upc ∧ t.mwm.seq.phase = .high ∧ t.mwm.seq.clkQ = s.mwm.seq.work.pclk ∧
        t.mwm.seq.dly = s.mwm.seq.work.th.setWidth 17 ∧ t.mwm.seq.timedOut = s.mwm.seq.timedOut ∧
        t.mwm.seq.csQ = s.mwm.seq.csQ ∧ t.mwm.seq.diQ = s.mwm.seq.diQ)

/-- R166, R167, R245: EWEN and EWDS run for exactly 2C + 9L cycles, whatever the host does meanwhile, and end with DONE set
and the lines idle. -/
def Obligations.EnableCommandsTakeExactTime : Prop :=
  ∀ (a d : Byte) (s : State), s.Legal → s.quiet → s.mwm.seq.busy = false →
    ∀ i : Instr, i = .ewen a d ∨ i = .ewds a d →
      ∃ t, exec i s = .next t ∧
        (∀ n, n < s.mwm.host.enableTime → After n t fun u => u.mwm.seq.busy = true ∧ u.mwm.host.done = false) ∧
        After s.mwm.host.enableTime t fun u => u.mwm.seq.busy = false ∧ u.mwm.host.done = true ∧
          u.mwm.seq.csQ = false ∧ u.mwm.seq.clkQ = false ∧ u.mwm.seq.diQ = false

/-- The events of an edge are those of the lines: the line registers after it are what the events make of those before it,
the CS and CLK events are exactly the changes of `cs_q` and `clk_q`, and a sample is `SampleDO()` (R36, R38, R144). -/
def Obligations.EventsMoveLines : Prop :=
  ∀ s t : State, s.Legal → s.running → step s = .next t →
    let es := s.edgeEvents s.portAccess
    t.mwm.lines = s.mwm.lines.after es ∧
    (LineEvent.csUp ∈ es ↔ s.mwm.seq.csQ = false ∧ t.mwm.seq.csQ = true) ∧
    (LineEvent.csDown ∈ es ↔ s.mwm.seq.csQ = true ∧ t.mwm.seq.csQ = false) ∧
    (LineEvent.clkUp ∈ es ↔ s.mwm.seq.clkQ = false ∧ t.mwm.seq.clkQ = true) ∧
    (LineEvent.clkDown ∈ es ↔ s.mwm.seq.clkQ = true ∧ t.mwm.seq.clkQ = false) ∧
    ∀ b, LineEvent.sample b ∈ es → b = s.mwm.sampleDO

/-- R144, R145: the line events of EWEN and EWDS, from the accept edge to the completion edge, are CS↑, the nine bits of
the frame from bit 8 down, each with exactly one CLK↑ and one CLK↓ after it, CS↓ and DI := 0; after every one of these edges
`cs_q`, `clk_q` and `di_q` are what the events so far make of the idle levels. -/
def Obligations.EnableCommandsLineEvents : Prop :=
  ∀ (a d : Byte) (s : State), s.Legal → s.quiet → s.mwm.seq.busy = false →
    (∃ t, exec (.ewen a d) s = .next t ∧
      let seen := fun n => s.edgeEvents (.write 0#3 (cmdWord 3#3 a d)) ++ eventsOver n t
      seen s.mwm.host.enableTime = enableEvents (s.params.ewenFrame.setWidth 9) ∧
      ∀ n, n ≤ s.mwm.host.enableTime → After n t fun u => u.mwm.lines = Lines.idle.after (seen n)) ∧
    (∃ t, exec (.ewds a d) s = .next t ∧
      let seen := fun n => s.edgeEvents (.write 0#3 (cmdWord 4#3 a d)) ++ eventsOver n t
      seen s.mwm.host.enableTime = enableEvents (s.params.ewdsFrame.setWidth 9) ∧
      ∀ n, n ≤ s.mwm.host.enableTime → After n t fun u => u.mwm.lines = Lines.idle.after (seen n))

/-- R108, R139, R144: the line events of READ are CS↑, the nine bits of the READ frame, each with one pulse, eight pulses with
a sample after each, and CS↓, DI := 0; the lines are what the events make of them; the samples are the bits of RDATA, the first
one bit 7. -/
def Obligations.ReadLineEvents : Prop :=
  ∀ (a d : Byte) (s : State), s.Legal → s.quiet → s.mwm.seq.busy = false →
    ∃ t samples, exec (.read a d) s = .next t ∧ samples.length = 8 ∧
      let seen := fun n => s.edgeEvents (.write 0#3 (cmdWord 1#3 a d)) ++ eventsOver n t
      seen s.mwm.host.readTime = readEvents (addrFrame s.params.readHdr a) samples ∧
      (∀ n, n ≤ s.mwm.host.readTime → After n t fun u => u.mwm.lines = Lines.idle.after (seen n)) ∧
      After s.mwm.host.readTime t fun u => u.mwm.seq.busy = false ∧
        ∀ j, j < 8 → samples[j]? = some (u.mwm.host.rdata.getLsbD (7 - j))

/-- R108, R144, R164 (vector V1.4): the line events of WRITE, in order: the EWEN transaction, the WRITE frame and the data
within one CS assertion, the busy-poll, the EWDS transaction. Either the poll samples 0 some number of times and then 1, or
it samples 0 for ever and the list grows by its slots. After every edge the lines are what the events make of them. -/
def Obligations.WriteLineEvents : Prop :=
  ∀ (a d : Byte) (s : State), s.Legal → s.quiet → s.mwm.seq.busy = false →
    ∃ t, exec (.write a d) s = .next t ∧
      let seen := fun n => s.edgeEvents (.write 0#3 (cmdWord 2#3 a d)) ++ eventsOver n t
      let ewen : Frame := s.params.ewenFrame.setWidth 9
      let frame := addrFrame s.params.writeHdr a
      let clocked := s.mwm.host.pollClk
      (∀ n, After n t fun u => u.mwm.lines = Lines.idle.after (seen n)) ∧
      ((∃ k, After (s.mwm.host.writeTime (k + 1)) t (fun u => u.mwm.seq.busy = false) ∧
          seen (s.mwm.host.writeTime (k + 1)) =
            writeEvents ewen frame d (s.params.ewdsFrame.setWidth 9) clocked (List.replicate k false ++ [true])) ∨
        ∀ k, After (s.mwm.host.pollStart + pollCycles s.mwm.host.tHalf.toNat k) t (fun u => u.mwm.seq.busy = true) ∧
          seen (s.mwm.host.pollStart + pollCycles s.mwm.host.tHalf.toNat k) =
            writeHeadEvents ewen frame d ++ pollEvents clocked (List.replicate k false) ++
              if clocked then [.clkUp] else [])

/-- R108, R144, R168 to R170: the line events of WRITEB are those of a WRITE whose poll takes at most POLL_MAX samples, every
one 0 but the last; the last is 0 only if it is the POLL_MAX-th, and then TIMEOUT is 1. The EWDS transaction follows either
way. -/
def Obligations.BoundedWriteLineEvents : Prop :=
  ∀ (a d : Byte) (s : State), s.Legal → s.quiet → s.mwm.seq.busy = false →
    ∃ t k last, exec (.writeb a d) s = .next t ∧ k < s.mwm.host.pollMax.toNat ∧
      (last = false → k + 1 = s.mwm.host.pollMax.toNat) ∧
      let seen := fun n => s.edgeEvents (.write 0#3 (cmdWord 5#3 a d)) ++ eventsOver n t
      seen (s.mwm.host.writeTime (k + 1)) =
        writeEvents (s.params.ewenFrame.setWidth 9) (addrFrame s.params.writeHdr a) d (s.params.ewdsFrame.setWidth 9)
          s.mwm.host.pollClk (List.replicate k false ++ [last]) ∧
      (∀ n, n ≤ s.mwm.host.writeTime (k + 1) → After n t fun u => u.mwm.lines = Lines.idle.after (seen n)) ∧
      After (s.mwm.host.writeTime (k + 1)) t fun u => u.mwm.seq.busy = false ∧ u.mwm.host.timeout = !last

/-- R161, R245: READ runs for exactly 2C + 17L cycles and ends with DONE set and the lines idle; TIMEOUT and ILLEGAL are
clear. -/
def Obligations.ReadTakesExactTime : Prop :=
  ∀ (a d : Byte) (s : State), s.Legal → s.quiet → s.mwm.seq.busy = false →
    ∃ t, exec (.read a d) s = .next t ∧
      (∀ n, n < s.mwm.host.readTime → After n t fun u => u.mwm.seq.busy = true ∧ u.mwm.host.done = false) ∧
      After s.mwm.host.readTime t fun u => u.mwm.seq.busy = false ∧ u.mwm.host.done = true ∧
        u.mwm.host.timeout = false ∧ u.mwm.host.illegal = false ∧
        u.mwm.seq.csQ = false ∧ u.mwm.seq.clkQ = false ∧ u.mwm.seq.diQ = false

/-- R38, R138, R139, R162: bit 7 − j of the byte that READ leaves in RDATA is the DO pin three cycles before the sample
edge of cell j, whatever drives DO (synchronously to `clk`). -/
def Obligations.ReadAssemblesDoPin : Prop :=
  ∀ (a d : Byte) (s : State) (j : Nat), s.Legal → s.quiet → s.mwm.seq.busy = false → s.env.asyncDo = false → j < 8 →
    let cell := cellCycles s.mwm.host.tSu.toNat s.mwm.host.tHalf.toNat
    let seen := s.mwm.host.tCs.toNat + (9 + (j + 1)) * cell - 3
    ∃ t, exec (.read a d) s = .next t ∧
      After seen t fun u => After (s.mwm.host.readTime - seen) u fun v =>
        v.mwm.host.rdata.getLsbD (7 - j) = u.doPin

/-- R168 to R170, R245: WRITEB always completes, after 8C + 35L + 2Hk cycles with 1 ≤ k ≤ POLL_MAX, with TIMEOUT equal to
`timed_out`; with TIMEOUT = 1, k is POLL_MAX. -/
def Obligations.BoundedWriteCompletes : Prop :=
  ∀ (a d : Byte) (s : State), s.Legal → s.quiet → s.mwm.seq.busy = false →
    ∃ t k, exec (.writeb a d) s = .next t ∧ 1 ≤ k ∧ k ≤ s.mwm.host.pollMax.toNat ∧
      (∀ n, n < s.mwm.host.writeTime k → After n t fun u => u.mwm.seq.busy = true) ∧
      After (s.mwm.host.writeTime k) t fun u => u.mwm.seq.busy = false ∧ u.mwm.host.done = true ∧
        u.mwm.seq.slotCtr.toNat = k ∧ u.mwm.host.timeout = u.mwm.seq.timedOut ∧
        (u.mwm.host.timeout = true → k = s.mwm.host.pollMax.toNat) ∧
        u.mwm.seq.csQ = false ∧ u.mwm.seq.clkQ = false ∧ u.mwm.seq.diQ = false

/-- R141, R164, R245: WRITE is busy until it completes, and if it completes it does so after 8C + 35L + 2Hk cycles for some
number k ≥ 1 of poll slots, with TIMEOUT = 0. -/
def Obligations.WriteCompletesOnlyAtSlotEnds : Prop :=
  ∀ (a d : Byte) (s : State), s.Legal → s.quiet → s.mwm.seq.busy = false →
    ∃ t, exec (.write a d) s = .next t ∧
      ((∀ n, After n t fun u => u.mwm.seq.busy = true) ∨
        ∃ k, 1 ≤ k ∧ (∀ n, n < s.mwm.host.writeTime k → After n t fun u => u.mwm.seq.busy = true) ∧
          After (s.mwm.host.writeTime k) t fun u => u.mwm.seq.busy = false ∧ u.mwm.host.done = true ∧
            u.mwm.host.timeout = false ∧ u.mwm.seq.csQ = false ∧ u.mwm.seq.clkQ = false ∧ u.mwm.seq.diQ = false)

/-- R207, U3: against a device that is stuck busy WRITE never completes: every number of steps leads to a state in which
BUSY is 1; from the poll on, CS is 1, DI is 0, CLK pulses with period 2H if `w_pclk` is 1 and otherwise stays 0, a CMD
write is dropped, and `rst` ends it. -/
def Obligations.WriteHangsOnStuckDevice : Prop :=
  ∀ (a d : Byte) (s : State), s.Legal → s.quiet → s.mwm.seq.busy = false → s.env.kind = .stuckBusy →
    s.env.asyncDo = false →
    let pollStart := 5 * s.mwm.host.tCs.toNat + 26 * cellCycles s.mwm.host.tSu.toNat s.mwm.host.tHalf.toNat
    let half := s.mwm.host.tHalf.toNat
    ∃ t, exec (.write a d) s = .next t ∧
      ∀ n, After n t fun u => u.mwm.seq.busy = true ∧
        (pollStart ≤ n →
          u.mwm.seq.csQ = true ∧ u.mwm.seq.diQ = false ∧ u.mwm.seq.upc = 8#4 ∧
          u.mwm.seq.clkQ = (s.mwm.host.pollClk && decide ((n - pollStart) % (2 * half) < half)) ∧
          (∀ v, ∃ w, exec (.wr 0#3 v) u = .next w ∧ w.mwm.host.dropped = true ∧ w.mwm.host.cmd = u.mwm.host.cmd ∧
            w.mwm.seq.busy = true ∧ w.mwm.seq.upc = 8#4) ∧
          ∃ w, step { u with script := ⟨true, .idle⟩ :: u.script } = .next w ∧ w.mwm = Mwm.reset)

/-- R39, R211: while a command runs, no host access and no content of the host-visible registers or flags changes anything
that the wire or the running command depends on: two machines that agree in the sequencer, the synchronizer and the
environment agree in them after a cycle, whatever their hosts do. -/
def Obligations.HostCannotDisturbRunningCommand : Prop :=
  ∀ (s s' : State) (acc acc' : Access), s.running → s'.running → s.mwm.seq.busy = true →
    s.params = s'.params → s.env = s'.env → s.cycle = s'.cycle → s.mwm.seq = s'.mwm.seq →
    s.mwm.doS1 = s'.mwm.doS1 → s.mwm.doS2 = s'.mwm.doS2 →
    ∃ t t', s.hostCycle acc = .next t ∧ s'.hostCycle acc' = .next t' ∧
      t.env = t'.env ∧ t.mwm.seq = t'.mwm.seq ∧ t.mwm.doS1 = t'.mwm.doS1 ∧ t.mwm.doS2 = t'.mwm.doS2

/-- R46 (c): from a legal state chip-select changes only where a CS_ON or a CS_OFF starts, or by reset. -/
def Obligations.CsChangesOnlyAtCsOps : Prop :=
  ∀ s t : State, s.Legal → s.running → step s = .next t → t.mwm.seq.csQ ≠ s.mwm.seq.csQ →
    t.mwm.seq.busy = true ∧
      (t.mwm.seq.csQ = true → t.mwm.seq.currentOp = some .csOn) ∧
      (t.mwm.seq.csQ = false → t.mwm.seq.currentOp = some .csOff)

/-! ## Lines and synchronizer -/

/-- R38: at every edge `do_s1` takes the DO pin and `do_s2` takes `do_s1`, so `SampleDO()` at an edge is the pin level
three cycles before it; both are 0 after reset; nothing of the MWM but `do_s1` and `do_s2` depends on the pin or on `do_s1`
at an edge. (DO synchronous to `clk`; the other case is MetastableSampleIsOldOrNew.) -/
def Obligations.DoSampledThreeCyclesLate : Prop :=
  Mwm.reset.doS1 = false ∧ Mwm.reset.doS2 = false ∧
  (∀ s t u : State, s.running → s.env.asyncDo = false → step s = .next t → t.rst = false → step t = .next u →
    t.mwm.doS1 = s.doPin ∧ t.mwm.doS2 = s.mwm.doS1 ∧ u.mwm.sampleDO = s.doPin) ∧
  ∀ (s : State) (e : Env) (d : Bool) (acc : Access), s.running →
    ∃ t u, s.hostCycle acc = .next t ∧
      { s with env := e, mwm := { s.mwm with doS1 := d } }.hostCycle acc = .next u ∧
      t.mwm.host = u.mwm.host ∧ t.mwm.seq = u.mwm.seq

/-- R242, U7: when DO changes asynchronously to `clk`, `do_s1` takes the new level of the pin or the one of the cycle
before. Which of the two is free, so this holds for both (log entry 8). -/
def Obligations.MetastableSampleIsOldOrNew : Prop :=
  ∀ s t : State, s.running → step s = .next t →
    (t.mwm.doS1 = s.doPin ∨ t.mwm.doS1 = s.env.doPrev) ∧ t.mwm.doS2 = s.mwm.doS1 ∧ t.env.doPrev = s.doPin ∧
      (s.env.asyncDo = false → t.mwm.doS1 = s.doPin)

/-- R37: the CS pin is `cs_q`, inverted when CS_ACTIVE_HIGH is 0; CLK and DI are not inverted. The device undoes it. -/
def Obligations.PinLevels : Prop :=
  ∀ (p : Params) (m : Mwm),
    (p.csActiveHigh = true → m.csPin p = m.seq.csQ) ∧ (p.csActiveHigh = false → m.csPin p = !m.seq.csQ) ∧
    m.clkPin = m.seq.clkQ ∧ m.diPin = m.seq.diQ ∧ csLogical p (m.csPin p) = m.seq.csQ

/-- R200: each condition's flag is the STATUS bit of its code, and recording one changes nothing else. -/
def Obligations.ConditionsAreStatusBits : Prop :=
  Condition.timeout.code = 2 ∧ Condition.illegal.code = 3 ∧ Condition.dropped.code = 4 ∧
  ∀ (m : Mwm) (c : Condition),
    { m with host := m.host.raise c }.status = m.status ||| (1#32 <<< c.code) ∧
    { m.host.raise c with timeout := m.host.timeout, illegal := m.host.illegal, dropped := m.host.dropped } = m.host

/-! ## The environment -/

/-- R86: what the reference device drives in a cycle, from its updated state, the logical chip-select and the draw of the
cycle. (Nothing too fast has happened to it; the other case is TooFastTimingOpensDevice.) -/
def Obligations.DeviceDrivesDo : Prop :=
  (∀ s : State, s.env.kind = .reference → s.env.nextConduct s.mwm = .sound →
    s.doPin = (s.env.observe s.params s.mwm s.cycle).dev.drive s.mwm.seq.csQ (Config.doFloat s.cycle)) ∧
  ∀ (d : Device) (undriven : Bool),
    d.drive false undriven = undriven ∧
    (d.busy = true → d.drive true undriven = false) ∧
    (d.busy = false → d.phase = .cmdIn → d.n = 0 → d.drive true undriven = true) ∧
    (d.busy = false → d.phase = .readOut → d.k = 0 → d.drive true undriven = false) ∧
    (d.busy = false → d.phase = .readOut → 1 ≤ d.k → d.drive true undriven = d.snap.getLsbD (8 - d.k)) ∧
    (d.busy = false → ¬(d.phase = .cmdIn ∧ d.n = 0) → d.phase ≠ .readOut → d.drive true undriven = false)

/-- R77, R85: in `cycles` mode, with CS held, a busy device stays busy for as many cycles as it has left, its cells
unchanged; in the last one the pending byte reaches its cell and busy falls. -/
def Obligations.DeviceBusyCountsCycles : Prop :=
  ∀ (d : Device) (cs : Bool) (clk di : Nat → Bool), d.Legal → d.busy = true → d.mode = .cycles → d.csPrev = cs →
    let after := fun n => (List.range n).foldl (fun e c => e.observe cs (clk c) (di c)) d
    (∀ n, n < d.busyRem → (after n).busy = true ∧ (after n).mem = d.mem) ∧
    (after d.busyRem).busy = false ∧
    ∀ x, Memory.read (after d.busyRem).mem x = if x = d.pendA.toNat then d.pendD else Memory.read d.mem x

/-- R80, R85: in `pulses` mode a busy device only counts the rising clocks: as many as it has left keep it busy and its
cells unchanged; at the last one the pending byte reaches its cell and busy falls. In `cycles` mode a busy device ignores
them. -/
def Obligations.DeviceBusyCountsPulses : Prop :=
  (∀ (d : Device) (bits : List Bool), d.busy = true → d.mode = .cycles → d.clockBits bits = d) ∧
  ∀ (d : Device) (bits : List Bool), d.Legal → d.busy = true → d.mode = .pulses → bits.length ≤ d.busyRem →
    (bits.length < d.busyRem →
      d.clockBits bits = { d with busyRem := d.busyRem - bits.length }) ∧
    (bits.length = d.busyRem →
      d.clockBits bits = { d with busyRem := 0, busy := false, mem := (d.clockBits bits).mem } ∧
      ∀ x, Memory.read (d.clockBits bits).mem x = if x = d.pendA.toNat then d.pendD else Memory.read d.mem x)

/-- R78, R81, R82, R84: EWEN and EWDS frames, behind any number of leading zeros, enable and disable writing; with writing
disabled a WRITE frame and its data leave every cell as it was and the device not busy. -/
def Obligations.DeviceWriteEnable : Prop :=
  ∀ (d : Device) (zeros : Nat), d.busy = false →
    let clocked := fun bits : List Bool => d.csRise.clockBits (List.replicate zeros false ++ bits)
    (clocked (frameDiBits 0x130#9)).wen = true ∧ (clocked (frameDiBits 0x100#9)).wen = false ∧
    (clocked (frameDiBits 0x130#9)).mem = d.mem ∧ (clocked (frameDiBits 0x100#9)).mem = d.mem ∧
    (d.wen = false → ∀ (a : DevAddr) (v : Byte),
      let after := (clocked (frameDiBits (0b101#3 ++ a) ++ byteDiBits v)).csFall
      after.mem = d.mem ∧ after.busy = false ∧ after.wen = false ∧ after.phase = .idle)

/-- R78, R80 to R86, the property V1.1 at the pins: a write-enabled device that is clocked a WRITE frame and a data frame
commits the byte at the CS fall (DEV_BUSY = 0), and then, clocked the READ frame of the same cell, it drives that byte on
the eight read pulses, most significant bit first, whatever DI carries. -/
def Obligations.DeviceReturnsWrittenByte : Prop :=
  ∀ (d : Device) (a : DevAddr) (v : Byte), d.Legal → d.busy = false → d.wen = true → d.devBusy = 0 →
    let written := ((d.csRise.clockBits (frameDiBits (0b101#3 ++ a))).clockBits (byteDiBits v)).csFall
    let reading := written.csRise.clockBits (frameDiBits (0b110#3 ++ a))
    (∀ x, Memory.read written.mem x = if x = a.toNat then v else Memory.read d.mem x) ∧
    ∀ j, j < 8 → ∀ (u : Bool) (bits : List Bool), bits.length = j + 1 →
      (reading.clockBits bits).drive true u = v.getLsbD (7 - j)

/-- What the absent and the stuck device drive (R87), and that neither has cells that a run could change: any number of steps
leaves every cell as it was. For the absent device that is V5.8 and U4; for the stuck one it is the model's choice, log
entry 13. -/
def Obligations.UndrivenEnvironmentsKeepCells : Prop :=
  (∀ s : State, (s.env.kind = .absent → s.doPin = Config.doFloat s.cycle) ∧ (s.env.kind = .stuckBusy → s.doPin = false)) ∧
  ∀ (n : Nat) (s t : State), s.env.kind ≠ .reference → Host.Core.run Sys2Proof.core n s = .next t →
    ∀ x, Memory.read t.env.dev.mem x = Memory.read s.env.dev.mem x

/-- R82, R166, R167 (vectors V8.1, V8.2): on a reference device that is not busy, EWEN enables writing and EWDS disables
it, whatever the host does meanwhile; no cell changes. -/
def Obligations.EnableCommandsReachDevice : Prop :=
  ∀ (a d : Byte) (s : State), s.Legal → s.quiet → s.mwm.seq.busy = false → s.deviceFollows →
    s.params.ewenFrame = 0x130#16 → s.params.ewdsFrame = 0x100#16 → s.env.dev.busy = false → s.env.dev.csPrev = false →
    (∃ t, exec (.ewen a d) s = .next t ∧ After s.mwm.host.enableTime t fun u =>
      u.env.dev.wen = true ∧ u.env.dev.busy = false ∧ u.env.dev.mem = s.env.dev.mem) ∧
    (∃ t, exec (.ewds a d) s = .next t ∧ After s.mwm.host.enableTime t fun u =>
      u.env.dev.wen = false ∧ u.env.dev.busy = false ∧ u.env.dev.mem = s.env.dev.mem)

/-- The source's first property (95_test_vectors.md V1.1), with the device in `cycles` mode: WRITE of a byte to a cell
completes, the cell holds it and every other cell is unchanged, and a READ accepted then leaves it in RDATA. -/
def Obligations.WriteThenReadReturnsByte : Prop :=
  ∀ (a : DevAddr) (v x : Byte) (s : State), s.Legal → s.resetSeen = true → s.script = [] → s.mwm.seq.busy = false →
    s.deviceFollows → s.env.asyncDo = false → s.params.readHdr = 0x180#16 → s.params.writeHdr = 0x140#16 →
    s.params.ewenFrame = 0x130#16 → s.params.ewdsFrame = 0x100#16 → s.env.dev.mode = .cycles →
    s.env.dev.busy = false → s.env.dev.csPrev = false →
    ∃ t k, exec (.write (a.setWidth 8) v) s = .next t ∧ 1 ≤ k ∧ After (s.mwm.host.writeTime k) t fun u =>
      u.mwm.seq.busy = false ∧ u.mwm.host.done = true ∧ u.mwm.host.timeout = false ∧ u.env.dev.wen = false ∧
      (∀ c, Memory.read u.env.dev.mem c = if c = a.toNat then v else Memory.read s.env.dev.mem c) ∧
      ∃ w, exec (.read (a.setWidth 8) x) u = .next w ∧ After s.mwm.host.readTime w fun z =>
        z.mwm.seq.busy = false ∧ z.mwm.host.done = true ∧ z.mwm.host.rdata = v

/-- R143: how many slots the poll of a WRITE runs on the reference device. In `cycles` mode max(1, ⌈(DEV_BUSY − 2C + 3) / 2H⌉);
in `pulses` mode with POLL_CLK = 1 max(1, DEV_BUSY); in `pulses` mode with POLL_CLK = 0 and DEV_BUSY ≥ 1 the WRITE never
completes. -/
def Obligations.WriteSlotsOnReferenceDevice : Prop :=
  ∀ (a : DevAddr) (v : Byte) (s : State), s.Legal → s.quiet → s.mwm.seq.busy = false →
    s.deviceFollows → s.env.asyncDo = false → s.params.writeHdr = 0x140#16 →
    s.params.ewenFrame = 0x130#16 → s.params.ewdsFrame = 0x100#16 → s.env.dev.busy = false → s.env.dev.csPrev = false →
    let th := s.mwm.host.tHalf.toNat
    let cycleSlots := max 1 ((s.env.dev.devBusy + 3 - 2 * s.mwm.host.tCs.toNat + (2 * th - 1)) / (2 * th))
    let takes := fun (k : Nat) (t : State) =>
      (∀ n, n < s.mwm.host.writeTime k → After n t fun u => u.mwm.seq.busy = true) ∧
      After (s.mwm.host.writeTime k) t fun u => u.mwm.seq.busy = false ∧ u.mwm.seq.slotCtr.toNat = min k 0xFFFFFFFF
    ∃ t, exec (.write (a.setWidth 8) v) s = .next t ∧
      (s.env.dev.mode = .cycles → takes cycleSlots t) ∧
      (s.env.dev.mode = .pulses → s.mwm.host.pollClk = true → takes (max 1 s.env.dev.devBusy) t) ∧
      (s.env.dev.mode = .pulses → s.mwm.host.pollClk = false → 1 ≤ s.env.dev.devBusy →
        ∀ n, After n t fun u => u.mwm.seq.busy = true)

/-- R241, U6: a command whose timing does not exceed the device's minima runs all the same, and from its first cycle on DO is a
draw; from a write then or later on, every cell is a free value of every cycle. That this lasts for good, and that it is
all cells, is the model's choice, log entry 21. -/
def Obligations.TooFastTimingOpensDevice : Prop :=
  ∀ s : State, s.resetSeen = true → s.env.kind = .reference →
    ((s.mwm.seq.busy = true ∧ s.mwm.seq.work.exceeds s.env.minima = false) ∨ s.env.conduct ≠ .sound) →
    (∀ n, After n s fun u => u.doPin = Config.doFloat u.cycle) ∧
    (s.env.dev.Legal → (s.mwm.seq.busy = true ∧ (s.mwm.seq.work.op = 2#3 ∨ s.mwm.seq.work.op = 5#3)) ∨
        s.env.conduct = .cellsOpen →
      ∀ n, After (n + 1) s fun u => ∀ x, x < 64 → Memory.read u.env.dev.mem x = Config.openCell (s.cycle + n) x)
end

