-- ==== Sys2Proof/Laws/Bits.lean ====
section
/-! SUPPORT. The bits of assembled words, their fields read back, and bytes read back as the number they spell. -/

namespace Sys2Proof

/-- The eight values of a 3-bit field: an OP or a register index. -/
theorem bits3_cases (o : BitVec 3) :
    o = 0#3 ∨ o = 1#3 ∨ o = 2#3 ∨ o = 3#3 ∨ o = 4#3 ∨ o = 5#3 ∨ o = 6#3 ∨ o = 7#3 := by
  revert o; decide

/-! ## The fields of a CMD word -/

@[simp] theorem cmdOp_cmdWord (op : BitVec 3) (addr data : Byte) : cmdOp (cmdWord op addr data) = op := by
  ext i hi
  simp [cmdOp, cmdWord]
  grind

@[simp] theorem cmdAddr_cmdWord (op : BitVec 3) (addr data : Byte) : cmdAddr (cmdWord op addr data) = addr := by
  ext i hi
  simp [cmdAddr, cmdWord]
  grind

@[simp] theorem cmdData_cmdWord (op : BitVec 3) (addr data : Byte) : cmdData (cmdWord op addr data) = data := by
  ext i hi
  simp [cmdData, cmdWord]
  grind

/-- Bit `i` of a CMD word (R101). -/
theorem cmdWord_bit (op : BitVec 3) (a d : Byte) (i : Nat) :
    (cmdWord op a d).getLsbD i =
      if i < 3 then op.getLsbD i
      else if i < 8 then false
      else if i < 16 then a.getLsbD (i - 8)
      else if i < 24 then d.getLsbD (i - 16)
      else false := by
  show @BitVec.getLsbD (8 + 8 + 8 + 5 + 3) (0#8 ++ d ++ a ++ 0#5 ++ op) i = _
  simp only [BitVec.getLsbD_append, BitVec.getLsbD_zero]
  rw [show i - 3 - 5 = i - 8 by omega, show i - 8 - 8 = i - 16 by omega]
  split_ifs <;> first | rfl | omega

/-! ## The bits of a host bus cycle -/

/-- Bit `i` of a write cycle (R112). -/
theorem busWriteBits_bit (idx : RegIdx) (v : Word) (i : Nat) :
    (busWriteBits idx v).getLsbD i =
      if i < 32 then v.getLsbD i else if i - 32 < 3 then idx.getLsbD (i - 32) else (1#1).getLsbD (i - 32 - 3) := by
  show @BitVec.getLsbD (1 + 3 + 32) (1#1 ++ idx ++ v) i = _
  rw [BitVec.getLsbD_append, BitVec.getLsbD_append]

/-- Bit `i` of a read cycle (R112). -/
theorem busReadBits_bit (idx : RegIdx) (i : Nat) :
    (busReadBits idx).getLsbD i =
      if i < 32 then false else if i - 32 < 3 then idx.getLsbD (i - 32) else (0#1).getLsbD (i - 32 - 3) := by
  show @BitVec.getLsbD (1 + 3 + 32) (0#1 ++ idx ++ 0#32) i = _
  rw [BitVec.getLsbD_append, BitVec.getLsbD_append]; simp

/-! ## Bytes -/

@[simp] theorem bytesOf_length (k n : Nat) : (bytesOf k n).length = k := by
  induction k generalizing n with
  | zero => rfl
  | succ k ih => simp [bytesOf, ih]

theorem ofBytes_bytesOf (k n : Nat) (h : n < 256 ^ k) : ofBytes (bytesOf k n) = n := by
  induction k generalizing n with
  | zero => simp at h; subst h; rfl
  | succ k ih =>
    simp only [bytesOf, ofBytes, BitVec.toNat_ofNat]
    rw [ih _ (by rw [pow_succ] at h; omega)]
    omega

/-- What the bytes of a number spell. -/
theorem rawOfBytes_bytesOf {k n : Nat} : n < 256 ^ k → rawOfBytes (bytesOf k n) =
    match k with
    | 1 => some (.wire8 (BitVec.ofNat 8 n))
    | 2 => if n < 2 ^ 9 then some (.wire9 (BitVec.ofNat 9 n)) else none
    | 4 => some (.cmd32 (BitVec.ofNat 32 n))
    | 5 => if n < 2 ^ 36 then some (.hostbus (BitVec.ofNat 36 n)) else none
    | _ => none := by
  intro h
  unfold rawOfBytes
  rw [bytesOf_length, ofBytes_bytesOf k n h] <;> rfl

/-- The bytes of a format's bits spell those bits. -/
theorem rawOfBytes_bytes (r : Raw) : rawOfBytes r.bytes = some r := by
  cases r with
  | cmd32 w =>
    have := w.isLt
    rw [Raw.bytes, rawOfBytes_bytesOf (by omega)]; simp
  | hostbus w =>
    have := w.isLt
    rw [Raw.bytes, rawOfBytes_bytesOf (by omega)]; simp; omega
  | wire9 w =>
    have := w.isLt
    rw [Raw.bytes, rawOfBytes_bytesOf (by omega)]; simp; omega
  | wire8 w =>
    have := w.isLt
    rw [Raw.bytes, rawOfBytes_bytesOf (by omega)]; simp

end Sys2Proof
end

