-- ==== Sys2Proof/Laws/Memory.lean ====
section
/-! SUPPORT. The device cells: a read after a write, and the canonical form, which every operation keeps. -/

namespace Sys2Proof.Machine

@[simp] theorem Memory.read_nil (a : Nat) : Memory.read [] a = Memory.unlisted := rfl

theorem Memory.read_cons (c : Host.Cell) (m : Memory) (a : Nat) :
    Memory.read (c :: m) a = if c.1 = a then c.2 else Memory.read m a := rfl

/-- A cell below every listed address is not listed. -/
theorem Memory.read_below {m : Memory} {a : Nat} (h : ∀ c ∈ m, a < c.1) : Memory.read m a = Memory.unlisted := by
  induction m with
  | nil => rfl
  | cons c r ih =>
    have hc := h c (by simp)
    rw [Memory.read_cons, if_neg (by omega), ih fun x hx => h x (by simp [hx])]

theorem Memory.read_put {m : Memory} {a : Nat} (b : Byte) (h : ∀ c ∈ m, a < c.1) (x : Nat) :
    Memory.read (Memory.put a b m) x = if x = a then b else Memory.read m x := by
  unfold Memory.put
  by_cases hb : b = Memory.unlisted
  · by_cases hx : x = a
    · subst hx; simp [hb, Memory.read_below h]
    · simp [hb, hx]
  · simp only [hb, if_false, Memory.read_cons]
    by_cases hx : x = a
    · simp [hx]
    · simp [hx, Ne.symm hx]

theorem Memory.sorted_cons {c : Host.Cell} {m : Memory} (h : (c :: m).Pairwise fun x y => x.1 < y.1) :
    (∀ x ∈ m, c.1 < x.1) ∧ m.Pairwise fun x y => x.1 < y.1 := List.pairwise_cons.mp h

/-- A read after a write: the byte written, and every other cell as it was. -/
theorem Memory.read_write {m : Memory} (h : m.Pairwise fun x y => x.1 < y.1) (a : Nat) (b : Byte) (x : Nat) :
    Memory.read (Memory.write m a b) x = if x = a then b else Memory.read m x := by
  induction m with
  | nil => simpa [Memory.write] using Memory.read_put (m := []) b (by simp) x
  | cons c r ih =>
    obtain ⟨hlt, hr⟩ := Memory.sorted_cons h
    unfold Memory.write
    by_cases h1 : a < c.1
    · rw [if_pos h1, Memory.read_put b _ x]
      intro y hy
      rcases List.mem_cons.mp hy with rfl | hy
      · exact h1
      · exact h1.trans (hlt y hy)
    · by_cases h2 : a = c.1
      · subst h2
        rw [if_neg h1, if_pos rfl, Memory.read_put b hlt x, Memory.read_cons]
        by_cases hx : x = c.1 <;> simp [hx, eq_comm]
      · rw [if_neg h1, if_neg h2, Memory.read_cons, ih hr, Memory.read_cons]
        by_cases hx : x = a
        · subst hx; simp [Ne.symm h2]
        · simp [hx]

theorem Memory.put_mem {m : Memory} {a : Nat} {b : Byte} {c : Host.Cell} (h : c ∈ Memory.put a b m) :
    c ∈ m ∨ (c = (a, b) ∧ b ≠ Memory.unlisted) := by
  unfold Memory.put at h
  split at h
  · exact .inl h
  · rcases List.mem_cons.mp h with rfl | h
    · exact .inr ⟨rfl, ‹_›⟩
    · exact .inl h

theorem Memory.put_sorted {m : Memory} {a : Nat} {b : Byte} (hm : m.Pairwise fun x y => x.1 < y.1)
    (h : ∀ c ∈ m, a < c.1) : (Memory.put a b m).Pairwise fun x y => x.1 < y.1 := by
  unfold Memory.put
  split
  · exact hm
  · exact List.pairwise_cons.mpr ⟨h, hm⟩

theorem Memory.write_mem {m : Memory} {a : Nat} {b : Byte} {c : Host.Cell} (h : c ∈ Memory.write m a b) :
    c ∈ m ∨ (c = (a, b) ∧ b ≠ Memory.unlisted) := by
  induction m with
  | nil => exact Memory.put_mem h
  | cons d r ih =>
    unfold Memory.write at h
    split at h
    · exact Memory.put_mem h
    · split at h
      · exact (Memory.put_mem h).imp_left fun h => List.mem_cons_of_mem _ h
      · rcases List.mem_cons.mp h with rfl | h
        · simp
        · exact (ih h).imp_left fun h => List.mem_cons_of_mem _ h

theorem Memory.write_sorted {m : Memory} (h : m.Pairwise fun x y => x.1 < y.1) (a : Nat) (b : Byte) :
    (Memory.write m a b).Pairwise fun x y => x.1 < y.1 := by
  induction m with
  | nil => exact Memory.put_sorted .nil (by simp)
  | cons c r ih =>
    obtain ⟨hlt, hr⟩ := Memory.sorted_cons h
    unfold Memory.write
    split
    · rename_i h1
      refine Memory.put_sorted h fun y hy => ?_
      rcases List.mem_cons.mp hy with rfl | hy
      · exact h1
      · exact h1.trans (hlt y hy)
    · split
      · rename_i h2; subst h2; exact Memory.put_sorted hr hlt
      · refine List.pairwise_cons.mpr ⟨fun y hy => ?_, ih hr⟩
        rcases Memory.write_mem hy with hy | ⟨rfl, -⟩
        · exact hlt y hy
        · show c.1 < a
          omega

/-- A write of a device cell keeps the canonical form. -/
theorem Memory.write_wf {m : Memory} (h : Memory.wf m) {a : Nat} (ha : a < Config.devCells) (b : Byte) :
    Memory.wf (Memory.write m a b) := by
  refine ⟨Memory.write_sorted h.1 a b, fun c hc => ?_⟩
  rcases Memory.write_mem hc with hc | ⟨rfl, hb⟩
  · exact h.2 c hc
  · exact ⟨ha, hb⟩

/-- A device address names a cell. -/
theorem devAddr_lt (a : DevAddr) : a.toNat < Config.devCells := a.isLt

/-! ## The operations of the device that write cells -/

theorem Device.commit_mem (d : Device) : d.commit.mem = d.mem.write d.pendA.toNat d.pendD := rfl

theorem Device.commit_wf {d : Device} (h : Memory.wf d.mem) : Memory.wf d.commit.mem :=
  Memory.write_wf h (devAddr_lt _) _

theorem Device.count_wf {d : Device} (h : Memory.wf d.mem) : Memory.wf d.count.mem := by
  unfold Device.count
  split
  · exact Device.commit_wf (d := { d with busyRem := d.busyRem - 1 }) h
  · exact h

theorem Device.startWrite_wf {d : Device} (h : Memory.wf d.mem) : Memory.wf d.startWrite.mem := by
  unfold Device.startWrite
  split
  · exact Memory.write_wf h (devAddr_lt _) _
  · exact h

theorem Device.decode_mem (d : Device) : d.decode.mem = d.mem := by
  unfold Device.decode
  dsimp only
  split_ifs <;> rfl

theorem Device.countDown_wf {d : Device} (h : Memory.wf d.mem) : Memory.wf d.countDown.mem := by
  unfold Device.countDown
  split
  · exact Device.count_wf h
  · exact h

theorem Device.csEvents_wf {d : Device} (cs : Bool) (h : Memory.wf d.mem) : Memory.wf (d.csEvents cs).mem := by
  unfold Device.csEvents Device.csFall Device.csRise
  split_ifs
  · exact Device.startWrite_wf h
  · exact h
  · exact h
  · exact h

theorem Device.clockCmdIn_mem (d : Device) (di : Bool) : (d.clockCmdIn di).mem = d.mem := by
  unfold Device.clockCmdIn
  split_ifs
  · rfl
  · rw [Device.decode_mem]; rfl
  · rfl

theorem Device.clockReadOut_mem (d : Device) : d.clockReadOut.mem = d.mem := by
  unfold Device.clockReadOut
  split_ifs <;> rfl

theorem Device.clockRise_wf {d : Device} (di : Bool) (h : Memory.wf d.mem) : Memory.wf (d.clockRise di).mem := by
  unfold Device.clockRise
  split
  · split
    · exact Device.count_wf h
    · exact h
  · split
    · rw [Device.clockCmdIn_mem]; exact h
    · rw [Device.clockReadOut_mem]; exact h
    all_goals exact h

/-- A cycle of the reference device keeps the canonical form of its cells. -/
theorem Device.observe_wf {d : Device} (cs clk di : Bool) (h : Memory.wf d.mem) :
    Memory.wf (d.observe cs clk di).mem := by
  have h1 := Device.csEvents_wf cs (Device.countDown_wf h)
  show Memory.wf ((d.countDown.csEvents cs).clkEvents cs clk di).mem
  unfold Device.clkEvents
  split
  · exact Device.clockRise_wf di h1
  · exact h1

/-- Writing the first `k` cells one after another. -/
theorem Memory.fill_step (f : Nat → Byte) {m : Memory} (h : Memory.wf m) (k : Nat) (hk : k ≤ Config.devCells) :
    Memory.wf ((List.range k).foldl (fun m a => Memory.write m a (f a)) m) ∧
      ∀ x, Memory.read ((List.range k).foldl (fun m a => Memory.write m a (f a)) m) x
        = if x < k then f x else Memory.read m x := by
  induction k with
  | zero => exact ⟨h, fun x => rfl⟩
  | succ k ih =>
    obtain ⟨h1, h2⟩ := ih (by omega)
    rw [List.range_succ, List.foldl_append]
    refine ⟨Memory.write_wf h1 (by omega) _, fun x => ?_⟩
    show Memory.read (Memory.write _ k (f k)) x = _
    rw [Memory.read_write h1.1, h2]
    by_cases hx : x = k
    · subst hx; simp
    · by_cases h3 : x < k
      · rw [if_neg hx, if_pos h3, if_pos (by omega)]
      · rw [if_neg hx, if_neg h3, if_neg (by omega)]

/-- Cells filled from a function: the canonical form is kept, and each holds its value. -/
theorem Memory.fill_spec (f : Nat → Byte) {m : Memory} (h : Memory.wf m) :
    Memory.wf (Memory.fill f m) ∧
      ∀ x, Memory.read (Memory.fill f m) x = if x < Config.devCells then f x else Memory.read m x :=
  by unfold Memory.fill; exact Memory.fill_step f h Config.devCells (Nat.le_refl _)

/-- A cycle of the environment keeps the canonical form of the cells. -/
theorem Env.observe_wf {e : Env} (p : Params) (m : Mwm) (c : Nat) (h : Memory.wf e.dev.mem) :
    Memory.wf (e.observe p m c).dev.mem := by
  unfold Env.observe
  split
  · unfold Env.observeDevice
    split
    · exact Device.observe_wf _ _ _ h
    · exact h
    · show Memory.wf (Memory.fill (Config.openCell c) e.dev.mem)
      exact (Memory.fill_spec (Config.openCell c) h).1
  · exact h
  · exact h

end Sys2Proof.Machine
end

