-- ==== Sys2Proof/Laws/State.lean ====
section
/-! SUPPORT. One lemma per field per update of the state's records, true by rfl, so that no proof unfolds an update. -/

namespace Sys2Proof.Machine

section
variable (h : HostRegs) 
@[simp] theorem HostRegs.raise_timeout_cmd : (HostRegs.raise .timeout h).cmd = h.cmd := rfl
@[simp] theorem HostRegs.raise_timeout_done : (HostRegs.raise .timeout h).done = h.done := rfl
@[simp] theorem HostRegs.raise_timeout_timeout : (HostRegs.raise .timeout h).timeout = true := rfl
@[simp] theorem HostRegs.raise_timeout_illegal : (HostRegs.raise .timeout h).illegal = h.illegal := rfl
@[simp] theorem HostRegs.raise_timeout_dropped : (HostRegs.raise .timeout h).dropped = h.dropped := rfl
@[simp] theorem HostRegs.raise_timeout_rdata : (HostRegs.raise .timeout h).rdata = h.rdata := rfl
@[simp] theorem HostRegs.raise_timeout_tHalf : (HostRegs.raise .timeout h).tHalf = h.tHalf := rfl
@[simp] theorem HostRegs.raise_timeout_tSu : (HostRegs.raise .timeout h).tSu = h.tSu := rfl
@[simp] theorem HostRegs.raise_timeout_tCs : (HostRegs.raise .timeout h).tCs = h.tCs := rfl
@[simp] theorem HostRegs.raise_timeout_pollMax : (HostRegs.raise .timeout h).pollMax = h.pollMax := rfl
@[simp] theorem HostRegs.raise_timeout_pollClk : (HostRegs.raise .timeout h).pollClk = h.pollClk := rfl
end

section
variable (h : HostRegs) 
@[simp] theorem HostRegs.raise_illegal_cmd : (HostRegs.raise .illegal h).cmd = h.cmd := rfl
@[simp] theorem HostRegs.raise_illegal_done : (HostRegs.raise .illegal h).done = h.done := rfl
@[simp] theorem HostRegs.raise_illegal_timeout : (HostRegs.raise .illegal h).timeout = h.timeout := rfl
@[simp] theorem HostRegs.raise_illegal_illegal : (HostRegs.raise .illegal h).illegal = true := rfl
@[simp] theorem HostRegs.raise_illegal_dropped : (HostRegs.raise .illegal h).dropped = h.dropped := rfl
@[simp] theorem HostRegs.raise_illegal_rdata : (HostRegs.raise .illegal h).rdata = h.rdata := rfl
@[simp] theorem HostRegs.raise_illegal_tHalf : (HostRegs.raise .illegal h).tHalf = h.tHalf := rfl
@[simp] theorem HostRegs.raise_illegal_tSu : (HostRegs.raise .illegal h).tSu = h.tSu := rfl
@[simp] theorem HostRegs.raise_illegal_tCs : (HostRegs.raise .illegal h).tCs = h.tCs := rfl
@[simp] theorem HostRegs.raise_illegal_pollMax : (HostRegs.raise .illegal h).pollMax = h.pollMax := rfl
@[simp] theorem HostRegs.raise_illegal_pollClk : (HostRegs.raise .illegal h).pollClk = h.pollClk := rfl
end

section
variable (h : HostRegs) 
@[simp] theorem HostRegs.raise_dropped_cmd : (HostRegs.raise .dropped h).cmd = h.cmd := rfl
@[simp] theorem HostRegs.raise_dropped_done : (HostRegs.raise .dropped h).done = h.done := rfl
@[simp] theorem HostRegs.raise_dropped_timeout : (HostRegs.raise .dropped h).timeout = h.timeout := rfl
@[simp] theorem HostRegs.raise_dropped_illegal : (HostRegs.raise .dropped h).illegal = h.illegal := rfl
@[simp] theorem HostRegs.raise_dropped_dropped : (HostRegs.raise .dropped h).dropped = true := rfl
@[simp] theorem HostRegs.raise_dropped_rdata : (HostRegs.raise .dropped h).rdata = h.rdata := rfl
@[simp] theorem HostRegs.raise_dropped_tHalf : (HostRegs.raise .dropped h).tHalf = h.tHalf := rfl
@[simp] theorem HostRegs.raise_dropped_tSu : (HostRegs.raise .dropped h).tSu = h.tSu := rfl
@[simp] theorem HostRegs.raise_dropped_tCs : (HostRegs.raise .dropped h).tCs = h.tCs := rfl
@[simp] theorem HostRegs.raise_dropped_pollMax : (HostRegs.raise .dropped h).pollMax = h.pollMax := rfl
@[simp] theorem HostRegs.raise_dropped_pollClk : (HostRegs.raise .dropped h).pollClk = h.pollClk := rfl
end

section
variable (h : HostRegs) (v : Word)
@[simp] theorem HostRegs.writeStatus_cmd : (HostRegs.writeStatus v h).cmd = h.cmd := rfl
@[simp] theorem HostRegs.writeStatus_done : (HostRegs.writeStatus v h).done = (h.done && !v.getLsbD 1) := rfl
@[simp] theorem HostRegs.writeStatus_timeout : (HostRegs.writeStatus v h).timeout = (h.timeout && !v.getLsbD 2) := rfl
@[simp] theorem HostRegs.writeStatus_illegal : (HostRegs.writeStatus v h).illegal = (h.illegal && !v.getLsbD 3) := rfl
@[simp] theorem HostRegs.writeStatus_dropped : (HostRegs.writeStatus v h).dropped = (h.dropped && !v.getLsbD 4) := rfl
@[simp] theorem HostRegs.writeStatus_rdata : (HostRegs.writeStatus v h).rdata = h.rdata := rfl
@[simp] theorem HostRegs.writeStatus_tHalf : (HostRegs.writeStatus v h).tHalf = h.tHalf := rfl
@[simp] theorem HostRegs.writeStatus_tSu : (HostRegs.writeStatus v h).tSu = h.tSu := rfl
@[simp] theorem HostRegs.writeStatus_tCs : (HostRegs.writeStatus v h).tCs = h.tCs := rfl
@[simp] theorem HostRegs.writeStatus_pollMax : (HostRegs.writeStatus v h).pollMax = h.pollMax := rfl
@[simp] theorem HostRegs.writeStatus_pollClk : (HostRegs.writeStatus v h).pollClk = h.pollClk := rfl
end

section
variable (h : HostRegs) 
@[simp] theorem HostRegs.clearFlags_cmd : (HostRegs.clearFlags h).cmd = h.cmd := rfl
@[simp] theorem HostRegs.clearFlags_done : (HostRegs.clearFlags h).done = false := rfl
@[simp] theorem HostRegs.clearFlags_timeout : (HostRegs.clearFlags h).timeout = false := rfl
@[simp] theorem HostRegs.clearFlags_illegal : (HostRegs.clearFlags h).illegal = false := rfl
@[simp] theorem HostRegs.clearFlags_dropped : (HostRegs.clearFlags h).dropped = h.dropped := rfl
@[simp] theorem HostRegs.clearFlags_rdata : (HostRegs.clearFlags h).rdata = h.rdata := rfl
@[simp] theorem HostRegs.clearFlags_tHalf : (HostRegs.clearFlags h).tHalf = h.tHalf := rfl
@[simp] theorem HostRegs.clearFlags_tSu : (HostRegs.clearFlags h).tSu = h.tSu := rfl
@[simp] theorem HostRegs.clearFlags_tCs : (HostRegs.clearFlags h).tCs = h.tCs := rfl
@[simp] theorem HostRegs.clearFlags_pollMax : (HostRegs.clearFlags h).pollMax = h.pollMax := rfl
@[simp] theorem HostRegs.clearFlags_pollClk : (HostRegs.clearFlags h).pollClk = h.pollClk := rfl
end

section
variable (h : HostRegs) (q : Seq)
@[simp] theorem HostRegs.complete_cmd : (HostRegs.complete q h).cmd = h.cmd := rfl
@[simp] theorem HostRegs.complete_done : (HostRegs.complete q h).done = true := rfl
@[simp] theorem HostRegs.complete_timeout : (HostRegs.complete q h).timeout = (if q.work.op = 5#3 then q.timedOut else h.timeout) := rfl
@[simp] theorem HostRegs.complete_illegal : (HostRegs.complete q h).illegal = h.illegal := rfl
@[simp] theorem HostRegs.complete_dropped : (HostRegs.complete q h).dropped = h.dropped := rfl
@[simp] theorem HostRegs.complete_rdata : (HostRegs.complete q h).rdata = (if q.work.op = 1#3 then q.acc else h.rdata) := rfl
@[simp] theorem HostRegs.complete_tHalf : (HostRegs.complete q h).tHalf = h.tHalf := rfl
@[simp] theorem HostRegs.complete_tSu : (HostRegs.complete q h).tSu = h.tSu := rfl
@[simp] theorem HostRegs.complete_tCs : (HostRegs.complete q h).tCs = h.tCs := rfl
@[simp] theorem HostRegs.complete_pollMax : (HostRegs.complete q h).pollMax = h.pollMax := rfl
@[simp] theorem HostRegs.complete_pollClk : (HostRegs.complete q h).pollClk = h.pollClk := rfl
end

section
variable (h : HostRegs) (v : Word)
@[simp] theorem HostRegs.writeTiming_cmd : (HostRegs.writeTiming v h).cmd = h.cmd := rfl
@[simp] theorem HostRegs.writeTiming_done : (HostRegs.writeTiming v h).done = h.done := rfl
@[simp] theorem HostRegs.writeTiming_timeout : (HostRegs.writeTiming v h).timeout = h.timeout := rfl
@[simp] theorem HostRegs.writeTiming_illegal : (HostRegs.writeTiming v h).illegal = h.illegal := rfl
@[simp] theorem HostRegs.writeTiming_dropped : (HostRegs.writeTiming v h).dropped = h.dropped := rfl
@[simp] theorem HostRegs.writeTiming_rdata : (HostRegs.writeTiming v h).rdata = h.rdata := rfl
@[simp] theorem HostRegs.writeTiming_tHalf : (HostRegs.writeTiming v h).tHalf = warlTHalf v := rfl
@[simp] theorem HostRegs.writeTiming_tSu : (HostRegs.writeTiming v h).tSu = warlTSu v := rfl
@[simp] theorem HostRegs.writeTiming_tCs : (HostRegs.writeTiming v h).tCs = warlTCs v := rfl
@[simp] theorem HostRegs.writeTiming_pollMax : (HostRegs.writeTiming v h).pollMax = h.pollMax := rfl
@[simp] theorem HostRegs.writeTiming_pollClk : (HostRegs.writeTiming v h).pollClk = h.pollClk := rfl
end

section
variable (h : HostRegs) (v : Word)
@[simp] theorem HostRegs.writePollMax_cmd : (HostRegs.writePollMax v h).cmd = h.cmd := rfl
@[simp] theorem HostRegs.writePollMax_done : (HostRegs.writePollMax v h).done = h.done := rfl
@[simp] theorem HostRegs.writePollMax_timeout : (HostRegs.writePollMax v h).timeout = h.timeout := rfl
@[simp] theorem HostRegs.writePollMax_illegal : (HostRegs.writePollMax v h).illegal = h.illegal := rfl
@[simp] theorem HostRegs.writePollMax_dropped : (HostRegs.writePollMax v h).dropped = h.dropped := rfl
@[simp] theorem HostRegs.writePollMax_rdata : (HostRegs.writePollMax v h).rdata = h.rdata := rfl
@[simp] theorem HostRegs.writePollMax_tHalf : (HostRegs.writePollMax v h).tHalf = h.tHalf := rfl
@[simp] theorem HostRegs.writePollMax_tSu : (HostRegs.writePollMax v h).tSu = h.tSu := rfl
@[simp] theorem HostRegs.writePollMax_tCs : (HostRegs.writePollMax v h).tCs = h.tCs := rfl
@[simp] theorem HostRegs.writePollMax_pollMax : (HostRegs.writePollMax v h).pollMax = warlPollMax v := rfl
@[simp] theorem HostRegs.writePollMax_pollClk : (HostRegs.writePollMax v h).pollClk = h.pollClk := rfl
end

section
variable (h : HostRegs) (v : Word)
@[simp] theorem HostRegs.writeConfig_cmd : (HostRegs.writeConfig v h).cmd = h.cmd := rfl
@[simp] theorem HostRegs.writeConfig_done : (HostRegs.writeConfig v h).done = h.done := rfl
@[simp] theorem HostRegs.writeConfig_timeout : (HostRegs.writeConfig v h).timeout = h.timeout := rfl
@[simp] theorem HostRegs.writeConfig_illegal : (HostRegs.writeConfig v h).illegal = h.illegal := rfl
@[simp] theorem HostRegs.writeConfig_dropped : (HostRegs.writeConfig v h).dropped = h.dropped := rfl
@[simp] theorem HostRegs.writeConfig_rdata : (HostRegs.writeConfig v h).rdata = h.rdata := rfl
@[simp] theorem HostRegs.writeConfig_tHalf : (HostRegs.writeConfig v h).tHalf = h.tHalf := rfl
@[simp] theorem HostRegs.writeConfig_tSu : (HostRegs.writeConfig v h).tSu = h.tSu := rfl
@[simp] theorem HostRegs.writeConfig_tCs : (HostRegs.writeConfig v h).tCs = h.tCs := rfl
@[simp] theorem HostRegs.writeConfig_pollMax : (HostRegs.writeConfig v h).pollMax = h.pollMax := rfl
@[simp] theorem HostRegs.writeConfig_pollClk : (HostRegs.writeConfig v h).pollClk = v.getLsbD 0 := rfl
end

section
variable (q : Seq) (b : Bool)
@[simp] theorem Seq.setCS_busy : (Seq.setCS b q).busy = q.busy := rfl
@[simp] theorem Seq.setCS_csQ : (Seq.setCS b q).csQ = b := rfl
@[simp] theorem Seq.setCS_clkQ : (Seq.setCS b q).clkQ = q.clkQ := rfl
@[simp] theorem Seq.setCS_diQ : (Seq.setCS b q).diQ = q.diQ := rfl
@[simp] theorem Seq.setCS_work : (Seq.setCS b q).work = q.work := rfl
@[simp] theorem Seq.setCS_acc : (Seq.setCS b q).acc = q.acc := rfl
@[simp] theorem Seq.setCS_shVal : (Seq.setCS b q).shVal = q.shVal := rfl
@[simp] theorem Seq.setCS_bitIdx : (Seq.setCS b q).bitIdx = q.bitIdx := rfl
@[simp] theorem Seq.setCS_slotCtr : (Seq.setCS b q).slotCtr = q.slotCtr := rfl
@[simp] theorem Seq.setCS_timedOut : (Seq.setCS b q).timedOut = q.timedOut := rfl
@[simp] theorem Seq.setCS_upc : (Seq.setCS b q).upc = q.upc := rfl
@[simp] theorem Seq.setCS_dly : (Seq.setCS b q).dly = q.dly := rfl
@[simp] theorem Seq.setCS_phase : (Seq.setCS b q).phase = q.phase := rfl
@[simp] theorem Seq.setCS_cell : (Seq.setCS b q).cell = q.cell := rfl
end

section
variable (q : Seq) (b : Bool)
@[simp] theorem Seq.setCLK_busy : (Seq.setCLK b q).busy = q.busy := rfl
@[simp] theorem Seq.setCLK_csQ : (Seq.setCLK b q).csQ = q.csQ := rfl
@[simp] theorem Seq.setCLK_clkQ : (Seq.setCLK b q).clkQ = b := rfl
@[simp] theorem Seq.setCLK_diQ : (Seq.setCLK b q).diQ = q.diQ := rfl
@[simp] theorem Seq.setCLK_work : (Seq.setCLK b q).work = q.work := rfl
@[simp] theorem Seq.setCLK_acc : (Seq.setCLK b q).acc = q.acc := rfl
@[simp] theorem Seq.setCLK_shVal : (Seq.setCLK b q).shVal = q.shVal := rfl
@[simp] theorem Seq.setCLK_bitIdx : (Seq.setCLK b q).bitIdx = q.bitIdx := rfl
@[simp] theorem Seq.setCLK_slotCtr : (Seq.setCLK b q).slotCtr = q.slotCtr := rfl
@[simp] theorem Seq.setCLK_timedOut : (Seq.setCLK b q).timedOut = q.timedOut := rfl
@[simp] theorem Seq.setCLK_upc : (Seq.setCLK b q).upc = q.upc := rfl
@[simp] theorem Seq.setCLK_dly : (Seq.setCLK b q).dly = q.dly := rfl
@[simp] theorem Seq.setCLK_phase : (Seq.setCLK b q).phase = q.phase := rfl
@[simp] theorem Seq.setCLK_cell : (Seq.setCLK b q).cell = q.cell := rfl
end

section
variable (q : Seq) (b : Bool)
@[simp] theorem Seq.setDI_busy : (Seq.setDI b q).busy = q.busy := rfl
@[simp] theorem Seq.setDI_csQ : (Seq.setDI b q).csQ = q.csQ := rfl
@[simp] theorem Seq.setDI_clkQ : (Seq.setDI b q).clkQ = q.clkQ := rfl
@[simp] theorem Seq.setDI_diQ : (Seq.setDI b q).diQ = b := rfl
@[simp] theorem Seq.setDI_work : (Seq.setDI b q).work = q.work := rfl
@[simp] theorem Seq.setDI_acc : (Seq.setDI b q).acc = q.acc := rfl
@[simp] theorem Seq.setDI_shVal : (Seq.setDI b q).shVal = q.shVal := rfl
@[simp] theorem Seq.setDI_bitIdx : (Seq.setDI b q).bitIdx = q.bitIdx := rfl
@[simp] theorem Seq.setDI_slotCtr : (Seq.setDI b q).slotCtr = q.slotCtr := rfl
@[simp] theorem Seq.setDI_timedOut : (Seq.setDI b q).timedOut = q.timedOut := rfl
@[simp] theorem Seq.setDI_upc : (Seq.setDI b q).upc = q.upc := rfl
@[simp] theorem Seq.setDI_dly : (Seq.setDI b q).dly = q.dly := rfl
@[simp] theorem Seq.setDI_phase : (Seq.setDI b q).phase = q.phase := rfl
@[simp] theorem Seq.setDI_cell : (Seq.setDI b q).cell = q.cell := rfl
end

section
variable (q : Seq) (n : Nat) (ph : Phase)
@[simp] theorem Seq.wait_busy : (Seq.wait n ph q).busy = q.busy := rfl
@[simp] theorem Seq.wait_csQ : (Seq.wait n ph q).csQ = q.csQ := rfl
@[simp] theorem Seq.wait_clkQ : (Seq.wait n ph q).clkQ = q.clkQ := rfl
@[simp] theorem Seq.wait_diQ : (Seq.wait n ph q).diQ = q.diQ := rfl
@[simp] theorem Seq.wait_work : (Seq.wait n ph q).work = q.work := rfl
@[simp] theorem Seq.wait_acc : (Seq.wait n ph q).acc = q.acc := rfl
@[simp] theorem Seq.wait_shVal : (Seq.wait n ph q).shVal = q.shVal := rfl
@[simp] theorem Seq.wait_bitIdx : (Seq.wait n ph q).bitIdx = q.bitIdx := rfl
@[simp] theorem Seq.wait_slotCtr : (Seq.wait n ph q).slotCtr = q.slotCtr := rfl
@[simp] theorem Seq.wait_timedOut : (Seq.wait n ph q).timedOut = q.timedOut := rfl
@[simp] theorem Seq.wait_upc : (Seq.wait n ph q).upc = q.upc := rfl
@[simp] theorem Seq.wait_dly : (Seq.wait n ph q).dly = BitVec.ofNat 17 n := rfl
@[simp] theorem Seq.wait_phase : (Seq.wait n ph q).phase = ph := rfl
@[simp] theorem Seq.wait_cell : (Seq.wait n ph q).cell = q.cell := rfl
end

section
variable (q : Seq) 
@[simp] theorem Seq.startCsOn_busy : (Seq.startCsOn q).busy = q.busy := rfl
@[simp] theorem Seq.startCsOn_csQ : (Seq.startCsOn q).csQ = true := rfl
@[simp] theorem Seq.startCsOn_clkQ : (Seq.startCsOn q).clkQ = q.clkQ := rfl
@[simp] theorem Seq.startCsOn_diQ : (Seq.startCsOn q).diQ = q.diQ := rfl
@[simp] theorem Seq.startCsOn_work : (Seq.startCsOn q).work = q.work := rfl
@[simp] theorem Seq.startCsOn_acc : (Seq.startCsOn q).acc = q.acc := rfl
@[simp] theorem Seq.startCsOn_shVal : (Seq.startCsOn q).shVal = q.shVal := rfl
@[simp] theorem Seq.startCsOn_bitIdx : (Seq.startCsOn q).bitIdx = q.bitIdx := rfl
@[simp] theorem Seq.startCsOn_slotCtr : (Seq.startCsOn q).slotCtr = q.slotCtr := rfl
@[simp] theorem Seq.startCsOn_timedOut : (Seq.startCsOn q).timedOut = q.timedOut := rfl
@[simp] theorem Seq.startCsOn_upc : (Seq.startCsOn q).upc = q.upc := rfl
@[simp] theorem Seq.startCsOn_dly : (Seq.startCsOn q).dly = BitVec.ofNat 17 q.work.cs.toNat := rfl
@[simp] theorem Seq.startCsOn_phase : (Seq.startCsOn q).phase = .hold := rfl
@[simp] theorem Seq.startCsOn_cell : (Seq.startCsOn q).cell = q.cell := rfl
end

section
variable (q : Seq) 
@[simp] theorem Seq.startCsOff_busy : (Seq.startCsOff q).busy = q.busy := rfl
@[simp] theorem Seq.startCsOff_csQ : (Seq.startCsOff q).csQ = false := rfl
@[simp] theorem Seq.startCsOff_clkQ : (Seq.startCsOff q).clkQ = q.clkQ := rfl
@[simp] theorem Seq.startCsOff_diQ : (Seq.startCsOff q).diQ = false := rfl
@[simp] theorem Seq.startCsOff_work : (Seq.startCsOff q).work = q.work := rfl
@[simp] theorem Seq.startCsOff_acc : (Seq.startCsOff q).acc = q.acc := rfl
@[simp] theorem Seq.startCsOff_shVal : (Seq.startCsOff q).shVal = q.shVal := rfl
@[simp] theorem Seq.startCsOff_bitIdx : (Seq.startCsOff q).bitIdx = q.bitIdx := rfl
@[simp] theorem Seq.startCsOff_slotCtr : (Seq.startCsOff q).slotCtr = q.slotCtr := rfl
@[simp] theorem Seq.startCsOff_timedOut : (Seq.startCsOff q).timedOut = q.timedOut := rfl
@[simp] theorem Seq.startCsOff_upc : (Seq.startCsOff q).upc = q.upc := rfl
@[simp] theorem Seq.startCsOff_dly : (Seq.startCsOff q).dly = BitVec.ofNat 17 q.work.cs.toNat := rfl
@[simp] theorem Seq.startCsOff_phase : (Seq.startCsOff q).phase = .hold := rfl
@[simp] theorem Seq.startCsOff_cell : (Seq.startCsOff q).cell = q.cell := rfl
end

section
variable (q : Seq) (i : Nat)
@[simp] theorem Seq.startSendCell_busy : (Seq.startSendCell i q).busy = q.busy := rfl
@[simp] theorem Seq.startSendCell_csQ : (Seq.startSendCell i q).csQ = q.csQ := rfl
@[simp] theorem Seq.startSendCell_clkQ : (Seq.startSendCell i q).clkQ = q.clkQ := rfl
@[simp] theorem Seq.startSendCell_diQ : (Seq.startSendCell i q).diQ = q.shVal.getLsbD i := rfl
@[simp] theorem Seq.startSendCell_work : (Seq.startSendCell i q).work = q.work := rfl
@[simp] theorem Seq.startSendCell_acc : (Seq.startSendCell i q).acc = q.acc := rfl
@[simp] theorem Seq.startSendCell_shVal : (Seq.startSendCell i q).shVal = q.shVal := rfl
@[simp] theorem Seq.startSendCell_bitIdx : (Seq.startSendCell i q).bitIdx = BitVec.ofNat 4 i := rfl
@[simp] theorem Seq.startSendCell_slotCtr : (Seq.startSendCell i q).slotCtr = q.slotCtr := rfl
@[simp] theorem Seq.startSendCell_timedOut : (Seq.startSendCell i q).timedOut = q.timedOut := rfl
@[simp] theorem Seq.startSendCell_upc : (Seq.startSendCell i q).upc = q.upc := rfl
@[simp] theorem Seq.startSendCell_dly : (Seq.startSendCell i q).dly = BitVec.ofNat 17 q.work.su.toNat := rfl
@[simp] theorem Seq.startSendCell_phase : (Seq.startSendCell i q).phase = .setup := rfl
@[simp] theorem Seq.startSendCell_cell : (Seq.startSendCell i q).cell = q.cell := rfl
end

section
variable (q : Seq) (v : Frame) (w : Nat)
@[simp] theorem Seq.startSend_busy : (Seq.startSend v w q).busy = q.busy := rfl
@[simp] theorem Seq.startSend_csQ : (Seq.startSend v w q).csQ = q.csQ := rfl
@[simp] theorem Seq.startSend_clkQ : (Seq.startSend v w q).clkQ = q.clkQ := rfl
@[simp] theorem Seq.startSend_diQ : (Seq.startSend v w q).diQ = v.getLsbD (w - 1) := rfl
@[simp] theorem Seq.startSend_work : (Seq.startSend v w q).work = q.work := rfl
@[simp] theorem Seq.startSend_acc : (Seq.startSend v w q).acc = q.acc := rfl
@[simp] theorem Seq.startSend_shVal : (Seq.startSend v w q).shVal = v := rfl
@[simp] theorem Seq.startSend_bitIdx : (Seq.startSend v w q).bitIdx = BitVec.ofNat 4 (w - 1) := rfl
@[simp] theorem Seq.startSend_slotCtr : (Seq.startSend v w q).slotCtr = q.slotCtr := rfl
@[simp] theorem Seq.startSend_timedOut : (Seq.startSend v w q).timedOut = q.timedOut := rfl
@[simp] theorem Seq.startSend_upc : (Seq.startSend v w q).upc = q.upc := rfl
@[simp] theorem Seq.startSend_dly : (Seq.startSend v w q).dly = BitVec.ofNat 17 q.work.su.toNat := rfl
@[simp] theorem Seq.startSend_phase : (Seq.startSend v w q).phase = .setup := rfl
@[simp] theorem Seq.startSend_cell : (Seq.startSend v w q).cell = q.cell := rfl
end

section
variable (q : Seq) (j : Nat)
@[simp] theorem Seq.startRecvCell_busy : (Seq.startRecvCell j q).busy = q.busy := rfl
@[simp] theorem Seq.startRecvCell_csQ : (Seq.startRecvCell j q).csQ = q.csQ := rfl
@[simp] theorem Seq.startRecvCell_clkQ : (Seq.startRecvCell j q).clkQ = q.clkQ := rfl
@[simp] theorem Seq.startRecvCell_diQ : (Seq.startRecvCell j q).diQ = q.diQ := rfl
@[simp] theorem Seq.startRecvCell_work : (Seq.startRecvCell j q).work = q.work := rfl
@[simp] theorem Seq.startRecvCell_acc : (Seq.startRecvCell j q).acc = q.acc := rfl
@[simp] theorem Seq.startRecvCell_shVal : (Seq.startRecvCell j q).shVal = q.shVal := rfl
@[simp] theorem Seq.startRecvCell_bitIdx : (Seq.startRecvCell j q).bitIdx = q.bitIdx := rfl
@[simp] theorem Seq.startRecvCell_slotCtr : (Seq.startRecvCell j q).slotCtr = q.slotCtr := rfl
@[simp] theorem Seq.startRecvCell_timedOut : (Seq.startRecvCell j q).timedOut = q.timedOut := rfl
@[simp] theorem Seq.startRecvCell_upc : (Seq.startRecvCell j q).upc = q.upc := rfl
@[simp] theorem Seq.startRecvCell_dly : (Seq.startRecvCell j q).dly = BitVec.ofNat 17 q.work.su.toNat := rfl
@[simp] theorem Seq.startRecvCell_phase : (Seq.startRecvCell j q).phase = .setup := rfl
@[simp] theorem Seq.startRecvCell_cell : (Seq.startRecvCell j q).cell = BitVec.ofNat 4 j := rfl
end

section
variable (q : Seq) 
@[simp] theorem Seq.startRecv8_busy : (Seq.startRecv8 q).busy = q.busy := rfl
@[simp] theorem Seq.startRecv8_csQ : (Seq.startRecv8 q).csQ = q.csQ := rfl
@[simp] theorem Seq.startRecv8_clkQ : (Seq.startRecv8 q).clkQ = q.clkQ := rfl
@[simp] theorem Seq.startRecv8_diQ : (Seq.startRecv8 q).diQ = q.diQ := rfl
@[simp] theorem Seq.startRecv8_work : (Seq.startRecv8 q).work = q.work := rfl
@[simp] theorem Seq.startRecv8_acc : (Seq.startRecv8 q).acc = 0#8 := rfl
@[simp] theorem Seq.startRecv8_shVal : (Seq.startRecv8 q).shVal = q.shVal := rfl
@[simp] theorem Seq.startRecv8_bitIdx : (Seq.startRecv8 q).bitIdx = q.bitIdx := rfl
@[simp] theorem Seq.startRecv8_slotCtr : (Seq.startRecv8 q).slotCtr = q.slotCtr := rfl
@[simp] theorem Seq.startRecv8_timedOut : (Seq.startRecv8 q).timedOut = q.timedOut := rfl
@[simp] theorem Seq.startRecv8_upc : (Seq.startRecv8 q).upc = q.upc := rfl
@[simp] theorem Seq.startRecv8_dly : (Seq.startRecv8 q).dly = BitVec.ofNat 17 q.work.su.toNat := rfl
@[simp] theorem Seq.startRecv8_phase : (Seq.startRecv8 q).phase = .setup := rfl
@[simp] theorem Seq.startRecv8_cell : (Seq.startRecv8 q).cell = 0#4 := rfl
end

section
variable (q : Seq) 
@[simp] theorem Seq.startSlot_busy : (Seq.startSlot q).busy = q.busy := rfl
@[simp] theorem Seq.startSlot_csQ : (Seq.startSlot q).csQ = q.csQ := rfl
@[simp] theorem Seq.startSlot_clkQ : (Seq.startSlot q).clkQ = q.work.pclk := rfl
@[simp] theorem Seq.startSlot_diQ : (Seq.startSlot q).diQ = q.diQ := rfl
@[simp] theorem Seq.startSlot_work : (Seq.startSlot q).work = q.work := rfl
@[simp] theorem Seq.startSlot_acc : (Seq.startSlot q).acc = q.acc := rfl
@[simp] theorem Seq.startSlot_shVal : (Seq.startSlot q).shVal = q.shVal := rfl
@[simp] theorem Seq.startSlot_bitIdx : (Seq.startSlot q).bitIdx = q.bitIdx := rfl
@[simp] theorem Seq.startSlot_slotCtr : (Seq.startSlot q).slotCtr = q.slotCtr := rfl
@[simp] theorem Seq.startSlot_timedOut : (Seq.startSlot q).timedOut = q.timedOut := rfl
@[simp] theorem Seq.startSlot_upc : (Seq.startSlot q).upc = q.upc := rfl
@[simp] theorem Seq.startSlot_dly : (Seq.startSlot q).dly = BitVec.ofNat 17 q.work.th.toNat := rfl
@[simp] theorem Seq.startSlot_phase : (Seq.startSlot q).phase = .high := rfl
@[simp] theorem Seq.startSlot_cell : (Seq.startSlot q).cell = q.cell := rfl
end

section
variable (q : Seq) 
@[simp] theorem Seq.clkRise_busy : (Seq.clkRise q).busy = q.busy := rfl
@[simp] theorem Seq.clkRise_csQ : (Seq.clkRise q).csQ = q.csQ := rfl
@[simp] theorem Seq.clkRise_clkQ : (Seq.clkRise q).clkQ = true := rfl
@[simp] theorem Seq.clkRise_diQ : (Seq.clkRise q).diQ = q.diQ := rfl
@[simp] theorem Seq.clkRise_work : (Seq.clkRise q).work = q.work := rfl
@[simp] theorem Seq.clkRise_acc : (Seq.clkRise q).acc = q.acc := rfl
@[simp] theorem Seq.clkRise_shVal : (Seq.clkRise q).shVal = q.shVal := rfl
@[simp] theorem Seq.clkRise_bitIdx : (Seq.clkRise q).bitIdx = q.bitIdx := rfl
@[simp] theorem Seq.clkRise_slotCtr : (Seq.clkRise q).slotCtr = q.slotCtr := rfl
@[simp] theorem Seq.clkRise_timedOut : (Seq.clkRise q).timedOut = q.timedOut := rfl
@[simp] theorem Seq.clkRise_upc : (Seq.clkRise q).upc = q.upc := rfl
@[simp] theorem Seq.clkRise_dly : (Seq.clkRise q).dly = BitVec.ofNat 17 q.work.th.toNat := rfl
@[simp] theorem Seq.clkRise_phase : (Seq.clkRise q).phase = .high := rfl
@[simp] theorem Seq.clkRise_cell : (Seq.clkRise q).cell = q.cell := rfl
end

section
variable (q : Seq) 
@[simp] theorem Seq.clkFall_busy : (Seq.clkFall q).busy = q.busy := rfl
@[simp] theorem Seq.clkFall_csQ : (Seq.clkFall q).csQ = q.csQ := rfl
@[simp] theorem Seq.clkFall_clkQ : (Seq.clkFall q).clkQ = false := rfl
@[simp] theorem Seq.clkFall_diQ : (Seq.clkFall q).diQ = q.diQ := rfl
@[simp] theorem Seq.clkFall_work : (Seq.clkFall q).work = q.work := rfl
@[simp] theorem Seq.clkFall_acc : (Seq.clkFall q).acc = q.acc := rfl
@[simp] theorem Seq.clkFall_shVal : (Seq.clkFall q).shVal = q.shVal := rfl
@[simp] theorem Seq.clkFall_bitIdx : (Seq.clkFall q).bitIdx = q.bitIdx := rfl
@[simp] theorem Seq.clkFall_slotCtr : (Seq.clkFall q).slotCtr = q.slotCtr := rfl
@[simp] theorem Seq.clkFall_timedOut : (Seq.clkFall q).timedOut = q.timedOut := rfl
@[simp] theorem Seq.clkFall_upc : (Seq.clkFall q).upc = q.upc := rfl
@[simp] theorem Seq.clkFall_dly : (Seq.clkFall q).dly = BitVec.ofNat 17 q.work.th.toNat := rfl
@[simp] theorem Seq.clkFall_phase : (Seq.clkFall q).phase = .low := rfl
@[simp] theorem Seq.clkFall_cell : (Seq.clkFall q).cell = q.cell := rfl
end

section
variable (q : Seq) (b : Bool)
@[simp] theorem Seq.sampleBit_busy : (Seq.sampleBit b q).busy = q.busy := rfl
@[simp] theorem Seq.sampleBit_csQ : (Seq.sampleBit b q).csQ = q.csQ := rfl
@[simp] theorem Seq.sampleBit_clkQ : (Seq.sampleBit b q).clkQ = q.clkQ := rfl
@[simp] theorem Seq.sampleBit_diQ : (Seq.sampleBit b q).diQ = q.diQ := rfl
@[simp] theorem Seq.sampleBit_work : (Seq.sampleBit b q).work = q.work := rfl
@[simp] theorem Seq.sampleBit_acc : (Seq.sampleBit b q).acc = shiftIn q.acc b := rfl
@[simp] theorem Seq.sampleBit_shVal : (Seq.sampleBit b q).shVal = q.shVal := rfl
@[simp] theorem Seq.sampleBit_bitIdx : (Seq.sampleBit b q).bitIdx = q.bitIdx := rfl
@[simp] theorem Seq.sampleBit_slotCtr : (Seq.sampleBit b q).slotCtr = q.slotCtr := rfl
@[simp] theorem Seq.sampleBit_timedOut : (Seq.sampleBit b q).timedOut = q.timedOut := rfl
@[simp] theorem Seq.sampleBit_upc : (Seq.sampleBit b q).upc = q.upc := rfl
@[simp] theorem Seq.sampleBit_dly : (Seq.sampleBit b q).dly = q.dly := rfl
@[simp] theorem Seq.sampleBit_phase : (Seq.sampleBit b q).phase = q.phase := rfl
@[simp] theorem Seq.sampleBit_cell : (Seq.sampleBit b q).cell = q.cell := rfl
end

section
variable (q : Seq) 
@[simp] theorem Seq.countSlot_busy : (Seq.countSlot q).busy = q.busy := rfl
@[simp] theorem Seq.countSlot_csQ : (Seq.countSlot q).csQ = q.csQ := rfl
@[simp] theorem Seq.countSlot_clkQ : (Seq.countSlot q).clkQ = q.clkQ := rfl
@[simp] theorem Seq.countSlot_diQ : (Seq.countSlot q).diQ = q.diQ := rfl
@[simp] theorem Seq.countSlot_work : (Seq.countSlot q).work = q.work := rfl
@[simp] theorem Seq.countSlot_acc : (Seq.countSlot q).acc = q.acc := rfl
@[simp] theorem Seq.countSlot_shVal : (Seq.countSlot q).shVal = q.shVal := rfl
@[simp] theorem Seq.countSlot_bitIdx : (Seq.countSlot q).bitIdx = q.bitIdx := rfl
@[simp] theorem Seq.countSlot_slotCtr : (Seq.countSlot q).slotCtr = nextSlot q.slotCtr := rfl
@[simp] theorem Seq.countSlot_timedOut : (Seq.countSlot q).timedOut = q.timedOut := rfl
@[simp] theorem Seq.countSlot_upc : (Seq.countSlot q).upc = q.upc := rfl
@[simp] theorem Seq.countSlot_dly : (Seq.countSlot q).dly = q.dly := rfl
@[simp] theorem Seq.countSlot_phase : (Seq.countSlot q).phase = q.phase := rfl
@[simp] theorem Seq.countSlot_cell : (Seq.countSlot q).cell = q.cell := rfl
end

section
variable (q : Seq) 
@[simp] theorem Seq.pollTimesOut_busy : (Seq.pollTimesOut q).busy = q.busy := rfl
@[simp] theorem Seq.pollTimesOut_csQ : (Seq.pollTimesOut q).csQ = q.csQ := rfl
@[simp] theorem Seq.pollTimesOut_clkQ : (Seq.pollTimesOut q).clkQ = q.clkQ := rfl
@[simp] theorem Seq.pollTimesOut_diQ : (Seq.pollTimesOut q).diQ = q.diQ := rfl
@[simp] theorem Seq.pollTimesOut_work : (Seq.pollTimesOut q).work = q.work := rfl
@[simp] theorem Seq.pollTimesOut_acc : (Seq.pollTimesOut q).acc = q.acc := rfl
@[simp] theorem Seq.pollTimesOut_shVal : (Seq.pollTimesOut q).shVal = q.shVal := rfl
@[simp] theorem Seq.pollTimesOut_bitIdx : (Seq.pollTimesOut q).bitIdx = q.bitIdx := rfl
@[simp] theorem Seq.pollTimesOut_slotCtr : (Seq.pollTimesOut q).slotCtr = q.slotCtr := rfl
@[simp] theorem Seq.pollTimesOut_timedOut : (Seq.pollTimesOut q).timedOut = true := rfl
@[simp] theorem Seq.pollTimesOut_upc : (Seq.pollTimesOut q).upc = q.upc := rfl
@[simp] theorem Seq.pollTimesOut_dly : (Seq.pollTimesOut q).dly = q.dly := rfl
@[simp] theorem Seq.pollTimesOut_phase : (Seq.pollTimesOut q).phase = q.phase := rfl
@[simp] theorem Seq.pollTimesOut_cell : (Seq.pollTimesOut q).cell = q.cell := rfl
end

section
variable (q : Seq) 
@[simp] theorem Seq.complete_busy : (Seq.complete q).busy = false := rfl
@[simp] theorem Seq.complete_csQ : (Seq.complete q).csQ = q.csQ := rfl
@[simp] theorem Seq.complete_clkQ : (Seq.complete q).clkQ = q.clkQ := rfl
@[simp] theorem Seq.complete_diQ : (Seq.complete q).diQ = q.diQ := rfl
@[simp] theorem Seq.complete_work : (Seq.complete q).work = q.work := rfl
@[simp] theorem Seq.complete_acc : (Seq.complete q).acc = q.acc := rfl
@[simp] theorem Seq.complete_shVal : (Seq.complete q).shVal = q.shVal := rfl
@[simp] theorem Seq.complete_bitIdx : (Seq.complete q).bitIdx = q.bitIdx := rfl
@[simp] theorem Seq.complete_slotCtr : (Seq.complete q).slotCtr = q.slotCtr := rfl
@[simp] theorem Seq.complete_timedOut : (Seq.complete q).timedOut = q.timedOut := rfl
@[simp] theorem Seq.complete_upc : (Seq.complete q).upc = 0#4 := rfl
@[simp] theorem Seq.complete_dly : (Seq.complete q).dly = 0#17 := rfl
@[simp] theorem Seq.complete_phase : (Seq.complete q).phase = .idle := rfl
@[simp] theorem Seq.complete_cell : (Seq.complete q).cell = q.cell := rfl
end

section
variable (acc : Access) (act : Bool → Seq → Seq) (s : State)
@[simp] theorem State.cycleWith_params : (s.cycleWith acc act).params = s.params := rfl
@[simp] theorem State.cycleWith_mwm : (s.cycleWith acc act).mwm = s.mwmEdge acc act := rfl
@[simp] theorem State.cycleWith_env : (s.cycleWith acc act).env = { s.env.observe s.params s.mwm s.cycle with doPrev := s.doPin } := rfl
@[simp] theorem State.cycleWith_script : (s.cycleWith acc act).script = s.nextScript := rfl
@[simp] theorem State.cycleWith_busRdata : (s.cycleWith acc act).busRdata = s.rdataOut acc := rfl
@[simp] theorem State.cycleWith_resetSeen : (s.cycleWith acc act).resetSeen = s.resetSeen := rfl
@[simp] theorem State.cycleWith_cycle : (s.cycleWith acc act).cycle = s.cycle + 1 := rfl
@[simp] theorem State.clkCycle_params : (s.clkCycle acc).params = s.params := rfl
@[simp] theorem State.clkCycle_mwm : (s.clkCycle acc).mwm = s.mwmEdge acc (Seq.edge s.params) := rfl
@[simp] theorem State.clkCycle_env : (s.clkCycle acc).env = { s.env.observe s.params s.mwm s.cycle with doPrev := s.doPin } := rfl
@[simp] theorem State.clkCycle_script : (s.clkCycle acc).script = s.nextScript := rfl
@[simp] theorem State.clkCycle_busRdata : (s.clkCycle acc).busRdata = s.rdataOut acc := rfl
@[simp] theorem State.clkCycle_resetSeen : (s.clkCycle acc).resetSeen = s.resetSeen := rfl
@[simp] theorem State.clkCycle_cycle : (s.clkCycle acc).cycle = s.cycle + 1 := rfl
@[simp] theorem State.firstReset_params : (s.firstReset acc).params = s.params := rfl
@[simp] theorem State.firstReset_mwm : (s.firstReset acc).mwm = Mwm.reset := rfl
@[simp] theorem State.firstReset_env : (s.firstReset acc).env = { s.env with doPrev := s.env.firstLevel s.cycle, dev := { s.env.dev with csPrev := false, clkPrev := false } } := rfl
@[simp] theorem State.firstReset_script : (s.firstReset acc).script = s.script.tail := rfl
@[simp] theorem State.firstReset_busRdata : (s.firstReset acc).busRdata = s.rdataOut acc := rfl
@[simp] theorem State.firstReset_resetSeen : (s.firstReset acc).resetSeen = true := rfl
@[simp] theorem State.firstReset_cycle : (s.firstReset acc).cycle = s.cycle + 1 := rfl
end

end Sys2Proof.Machine
end

