-- ==== Sys2Proof/Laws/Cycle.lean ====
section
/-! SUPPORT. What one cycle can do, once for each shared operation: the environment's cells, the host's access, the
sequencer, the outcomes of `hostCycle`, `sendCycle` and `dataCycle`. -/

namespace Sys2Proof.Machine

/-! ## The device's cells -/

/-- A write leaves every other cell alone, in any list. -/
theorem Memory.read_write_other (m : Memory) {a x : Nat} (b : Byte) (h : x ≠ a) :
    Memory.read (Memory.write m a b) x = Memory.read m x := by
  have put : ∀ r : Memory, Memory.read (Memory.put a b r) x = Memory.read r x := fun r => by
    unfold Memory.put
    split
    · rfl
    · rw [Memory.read_cons, if_neg (Ne.symm h)]
  induction m with
  | nil => exact put []
  | cons c r ih =>
    unfold Memory.write
    split_ifs with h1 h2
    · exact put _
    · rw [put, Memory.read_cons, if_neg (by omega)]
    · rw [Memory.read_cons, Memory.read_cons, ih]

/-- Filling the cells leaves every other address alone, in any list. -/
theorem Memory.fill_read_other (f : Nat → Byte) (m : Memory) {x : Nat} (h : Config.devCells ≤ x) :
    Memory.read (Memory.fill f m) x = Memory.read m x := by
  have key : ∀ k, k ≤ Config.devCells →
      Memory.read ((List.range k).foldl (fun m a => Memory.write m a (f a)) m) x = Memory.read m x := by
    intro k
    induction k with
    | zero => exact fun _ => rfl
    | succ k ih =>
      intro hk
      rw [List.range_succ, List.foldl_append]
      exact (Memory.read_write_other _ _ (by omega)).trans (ih (by omega))
  unfold Memory.fill
  exact key _ (Nat.le_refl _)

theorem Device.count_read {d : Device} {x : Nat} (h : d.busyRem - 1 = 0 → x ≠ d.pendA.toNat) :
    Memory.read d.count.mem x = Memory.read d.mem x := by
  unfold Device.count
  split
  · exact Memory.read_write_other _ _ (h ‹_›)
  · rfl

theorem Device.countDown_read {d : Device} {x : Nat} (h : d.countDownCommits = true → x ≠ d.pendA.toNat) :
    Memory.read d.countDown.mem x = Memory.read d.mem x := by
  unfold Device.countDown
  split
  · rename_i hb
    exact Device.count_read fun h0 => h (by simp_all [Device.countDownCommits])
  · rfl

theorem Device.clockRise_read {d : Device} {x : Nat} (di : Bool)
    (h : d.busy = true → d.mode = .pulses → d.busyRem - 1 = 0 → x ≠ d.pendA.toNat) :
    Memory.read (d.clockRise di).mem x = Memory.read d.mem x := by
  unfold Device.clockRise
  split
  · split
    · exact Device.count_read (h ‹_› ‹_›)
    · rfl
  · split
    · rw [Device.clockCmdIn_mem]
    · rw [Device.clockReadOut_mem]
    all_goals rfl

/-- What the count-down of a cycle leaves alone. -/
theorem Device.countDown_frame (d : Device) :
    d.countDown.a = d.a ∧ d.countDown.devBusy = d.devBusy ∧ d.countDown.csPrev = d.csPrev ∧
      d.countDown.clkPrev = d.clkPrev ∧ d.countDown.mode = d.mode ∧ d.countDown.pendA = d.pendA ∧
      (d.mode = .pulses → d.countDown = d) := by
  unfold Device.countDown Device.count Device.commit
  split_ifs with h1 h2 <;> simp_all

/-- A cycle of the reference device leaves every cell alone but those it commits. -/
theorem Device.observe_read {d : Device} {x : Nat} (cs clk di : Bool) (h : x ∉ d.commitAddrs cs clk) :
    Memory.read (d.observe cs clk di).mem x = Memory.read d.mem x := by
  obtain ⟨ha, hb, hc, hk, hm, hp, hpulse⟩ := d.countDown_frame
  simp only [Device.commitAddrs, List.mem_append, not_or] at h
  have hcd : Memory.read d.countDown.mem x = Memory.read d.mem x :=
    Device.countDown_read fun hx => by simp_all
  have hcs : Memory.read (d.countDown.csEvents cs).mem x = Memory.read d.countDown.mem x := by
    unfold Device.csEvents
    split_ifs with h1 h2
    · unfold Device.csFall Device.startWrite
      split_ifs with h3 h4
      · refine Memory.read_write_other _ _ ?_
        have : d.fallCommits cs = true := by simp_all [Device.fallCommits]
        simp_all
      · rfl
      · rfl
    · rfl
    · rfl
  show Memory.read ((d.countDown.csEvents cs).clkEvents cs clk di).mem x = _
  rw [← hcd, ← hcs]
  unfold Device.clkEvents
  split
  · rename_i hclk
    refine Device.clockRise_read di fun hbusy hmode hrem => ?_
    have hcs1 : cs = true := by simp_all
    subst hcs1
    have hev : d.countDown.csEvents true = d.countDown ∨ d.countDown.csEvents true = d.countDown.csRise := by
      unfold Device.csEvents
      by_cases hp : d.countDown.csPrev = true <;> simp [hp]
    have hmd : d.mode = .pulses := by
      rcases hev with he | he <;> rw [he] at hmode <;> simpa [Device.csRise, hm] using hmode
    have heq := hpulse hmd
    have : d.pulseCommits true clk = true := by
      rcases hev with he | he <;> rw [he, heq] at hbusy hrem hclk <;>
        simp_all [Device.pulseCommits, Device.csRise]
    rcases hev with he | he <;> rw [he, heq] <;> simp_all [Device.csRise]
  · rfl

/-- A cycle of the environment leaves every cell alone but those it commits. -/
theorem Env.observe_read {e : Env} {p : Params} {m : Mwm} {c x : Nat} (h : x ∉ e.commitAddrs p m) :
    Memory.read (e.observe p m c).dev.mem x = Memory.read e.dev.mem x := by
  unfold Env.observe
  unfold Env.commitAddrs at h
  split
  · rename_i hk
    simp only [hk] at h
    unfold Env.observeDevice
    unfold Env.deviceCommitAddrs at h
    split
    · rename_i hc
      simp only [hc] at h
      exact Device.observe_read _ _ _ h
    · rfl
    · rename_i hc
      simp only [hc] at h
      exact Memory.fill_read_other _ _ (by simpa using h)
  · rfl
  · rfl

/-- The environment's kind and its clocking never change. -/
theorem Env.observe_kind (e : Env) (p : Params) (m : Mwm) (c : Nat) :
    (e.observe p m c).kind = e.kind ∧ (e.observe p m c).asyncDo = e.asyncDo := by
  unfold Env.observe Env.observeDevice
  split
  · split <;> exact ⟨rfl, rfl⟩
  · exact ⟨rfl, rfl⟩
  · exact ⟨rfl, rfl⟩

/-- Its minima never change either, and its conduct goes as `nextConduct` says where the device is. -/
theorem Env.observe_conduct (e : Env) (p : Params) (m : Mwm) (c : Nat) :
    (e.observe p m c).minima = e.minima ∧
      (e.observe p m c).conduct = (if e.kind = .reference then e.nextConduct m else e.conduct) := by
  unfold Env.observe Env.observeDevice
  split
  · rename_i hk
    split <;> rename_i hc <;> exact ⟨rfl, by rw [if_pos hk, hc]⟩
  · rename_i hk; exact ⟨rfl, by rw [if_neg (by rw [hk]; decide)]⟩
  · rename_i hk; exact ⟨rfl, by rw [if_neg (by rw [hk]; decide)]⟩

/-- Timing that exceeds the minima keeps a sound device sound. -/
theorem Env.nextConduct_sound {e : Env} {m : Mwm} (h : e.conduct = .sound)
    (hx : m.seq.busy = true → m.seq.work.exceeds e.minima = true) : e.nextConduct m = .sound := by
  have : m.tooFast e.minima = false := by
    unfold Mwm.tooFast
    cases hb : m.seq.busy
    · rfl
    · rw [hx hb]; rfl
  simp [Env.nextConduct, h, this]

/-- A sound reference device sees the pins (R76). -/
theorem Env.observe_sound {e : Env} (p : Params) {m : Mwm} (c : Nat) (hk : e.kind = .reference)
    (hc : e.nextConduct m = .sound) :
    e.observe p m c = { e with conduct := .sound, dev := e.dev.observe (csLogical p (m.csPin p)) m.clkPin m.diPin } := by
  unfold Env.observe Env.observeDevice
  rw [hk, hc]

/-! ## The sequencer -/

@[simp] theorem Seq.startOp_busy (p : Params) (q : Seq) (op : MicroOp) : (q.startOp p op).busy = q.busy := by
  cases op <;> rfl

@[simp] theorem Seq.startOp_work (p : Params) (q : Seq) (op : MicroOp) : (q.startOp p op).work = q.work := by
  cases op <;> rfl

@[simp] theorem Seq.startOp_upc (p : Params) (q : Seq) (op : MicroOp) : (q.startOp p op).upc = q.upc := by
  cases op <;> rfl

@[simp] theorem Seq.finishOp_work (p : Params) (q : Seq) : (q.finishOp p).work = q.work := by
  unfold Seq.finishOp
  split <;> simp

/-- An action of the sequencer never touches the working registers (R39). -/
@[simp] theorem Seq.act_work (p : Params) (b : Bool) (q : Seq) : (q.act p b).work = q.work := by
  unfold Seq.act Seq.actSend Seq.actRecv8 Seq.actPoll
  split <;> (try split) <;> (try split) <;> (try split) <;> simp

@[simp] theorem Seq.edge_work (p : Params) (b : Bool) (q : Seq) : (q.edge p b).work = q.work := by
  unfold Seq.edge
  split <;> simp

/-- An edge within a wait only counts. -/
theorem Seq.edge_wait {p : Params} {b : Bool} {q : Seq} (h : 1 < q.dly.toNat) :
    q.edge p b = { q with dly := q.dly - 1#17 } := by
  rw [Seq.edge, if_neg (by omega)]

/-- The last edge of a wait acts. -/
theorem Seq.edge_act {p : Params} {b : Bool} {q : Seq} (h : q.dly.toNat ≤ 1) : q.edge p b = q.act p b := by
  rw [Seq.edge, if_pos h]

/-- A micro-op ends: the next one starts, or the command completes. -/
theorem Seq.finishOp_some {p : Params} {q : Seq} {op : MicroOp} (h : q.followingOp = some op) :
    q.finishOp p = { q with upc := q.upc + 1#4 }.startOp p op := by
  simp [Seq.finishOp, h]

theorem Seq.finishOp_none {p : Params} {q : Seq} (h : q.followingOp = none) : q.finishOp p = q.complete := by
  simp [Seq.finishOp, h]

/-! ## The host's access -/

/-- While a command runs, a host access changes host-visible registers only (R39, R205, R211). -/
theorem Mwm.hostEdge_busy {p : Params} {m : Mwm} (h : m.seq.busy = true) (acc : Access) :
    m.hostEdge p acc = { m with host :=
      match acc with
      | .none => m.host
      | .read _ => m.host
      | .write idx v => if idx = 0#3 then m.host.raise .dropped else m.host.write idx v } := by
  cases acc with
  | none => rfl
  | read idx => rfl
  | write idx v =>
    by_cases hi : idx = 0#3 <;> simp [Mwm.hostEdge, Mwm.regWrite, Mwm.writeCmd, h, hi]

/-- A host access other than an accepted CMD write leaves the sequencer alone. -/
theorem Mwm.hostEdge_seq {p : Params} {m : Mwm} {acc : Access} (h : m.seq.busy = true) :
    (m.hostEdge p acc).seq = m.seq := by rw [Mwm.hostEdge_busy h]

theorem Mwm.startCommand_sync (p : Params) (m : Mwm) :
    (m.startCommand p).doS1 = m.doS1 ∧ (m.startCommand p).doS2 = m.doS2 := by
  unfold Mwm.startCommand
  split <;> exact ⟨rfl, rfl⟩

/-- A host access leaves the synchronizer alone. -/
theorem Mwm.hostEdge_sync (p : Params) (m : Mwm) (acc : Access) :
    (m.hostEdge p acc).doS1 = m.doS1 ∧ (m.hostEdge p acc).doS2 = m.doS2 := by
  cases acc with
  | none => exact ⟨rfl, rfl⟩
  | read idx => exact ⟨rfl, rfl⟩
  | write idx v =>
    unfold Mwm.hostEdge Mwm.regWrite Mwm.writeCmd Mwm.accept
    dsimp only
    split_ifs
    · exact ⟨rfl, rfl⟩
    · split
      · exact ⟨rfl, rfl⟩
      · exact ⟨rfl, rfl⟩
      · exact ⟨rfl, rfl⟩
      · exact Mwm.startCommand_sync p (m.latch v)
    · exact ⟨rfl, rfl⟩

/-! ## A cycle and its outcomes -/

/-- What every cycle after the first reset does beyond the MWM's registers. -/
theorem State.cycleWith_others {s : State} (h : s.resetSeen = true) (acc : Access) (act : Bool → Seq → Seq) :
    s.othersAdvance (s.cycleWith acc act) :=
  ⟨rfl, h, rfl, rfl, rfl, fun _ ha => Env.observe_read ha⟩

/-- A cycle with `rst` = 1 resets the MWM (R230). -/
theorem State.mwmEdge_rst {s : State} (h : s.rst = true) (acc : Access) (act : Bool → Seq → Seq) :
    s.mwmEdge acc act = Mwm.reset := by simp [State.mwmEdge, h]

/-- The MWM after an ordinary cycle in which a command runs. -/
theorem State.mwmEdge_busy {s : State} (h : s.rst = false) (hb : s.mwm.seq.busy = true) (acc : Access)
    (act : Bool → Seq → Seq) :
    s.mwmEdge acc act = s.synced
      (if (act s.mwm.doS2 s.mwm.seq).busy then (s.mwm.hostEdge s.params acc).host
       else (s.mwm.hostEdge s.params acc).host.complete s.mwm.seq)
      (act s.mwm.doS2 s.mwm.seq) := by
  have hq : (s.mwm.hostEdge s.params acc).seq = s.mwm.seq := Mwm.hostEdge_seq hb
  have h2 : (s.mwm.hostEdge s.params acc).doS2 = s.mwm.doS2 := (Mwm.hostEdge_sync _ _ _).2
  simp only [State.mwmEdge, h, hb, Mwm.seqEdge, Mwm.sampleDO, hq, h2, State.synced, if_true]
  rfl

/-- The MWM after an ordinary cycle in which no command runs. -/
theorem State.mwmEdge_idle {s : State} (h : s.rst = false) (hb : s.mwm.seq.busy = false) (acc : Access)
    (act : Bool → Seq → Seq) :
    s.mwmEdge acc act = s.synced (s.mwm.hostEdge s.params acc).host (s.mwm.hostEdge s.params acc).seq := by
  simp [State.mwmEdge, h, hb, State.synced]

theorem State.hostCycle_after {s : State} (h : s.resetSeen = true) (acc : Access) :
    s.hostCycle acc = .next (s.clkCycle acc) := by simp [State.hostCycle, h]

/-- When `hostCycle` answers a next state, it is a whole cycle, or the first reset edge. -/
theorem State.hostCycle_next {s t : State} {acc : Access} (h : s.hostCycle acc = .next t) :
    (s.resetSeen = true ∧ t = s.clkCycle acc) ∨
      (s.resetSeen = false ∧ s.rst = true ∧ (∀ idx, acc ≠ .read idx) ∧ t = s.firstReset acc) := by
  unfold State.hostCycle at h
  split at h
  · cases h; exact .inl ⟨‹_›, rfl⟩
  · refine .inr ⟨by simp_all, ?_⟩
    unfold State.beforeReset at h
    split at h <;> cases h
    · exact ⟨‹_›, by simp, rfl⟩
    · exact ⟨‹_›, by simp, rfl⟩

/-- When `sendCycle` answers a next state, its frame was due and the state is the cycle that starts it. -/
theorem State.sendCycle_next {s t : State} {r : Raw} (h : s.sendCycle r = .next t) :
    s.resetSeen = true ∧ s.mwm.seq.sendDue s.params = some r ∧
      t = s.cycleWith s.portAccess fun _ => Seq.beginFrame r := by
  unfold State.sendCycle at h
  split_ifs at h with h1 h2
  cases h
  exact ⟨by simpa using h1, h2, rfl⟩

/-- When `dataCycle` answers a next state, the byte was due, on DO or on DI. -/
theorem State.dataCycle_next {s t : State} {d : Byte} (h : s.dataCycle d = .next t) :
    (s.resetSeen = true ∧ s.mwm.seq.recvDue s.mwm.sampleDO = some d ∧
        t = s.cycleWith s.portAccess fun _ => Seq.takeByte s.params d) ∨
      (s.resetSeen = true ∧ s.mwm.seq.sendDue s.params = some (.wire8 d) ∧
        t = s.cycleWith s.portAccess fun _ => Seq.beginFrame (.wire8 d)) := by
  unfold State.dataCycle at h
  split_ifs at h with h1
  · cases h; exact .inl ⟨h1.1, h1.2, rfl⟩
  · exact .inr (State.sendCycle_next h)

end Sys2Proof.Machine
end

