-- ==== Sys2Proof/Laws/PerInstr.lean ====
section
/-! SUPPORT. Families of statements about the instructions as syntax, one lemma per constructor. -/

namespace Sys2Proof.Laws

/-- The bytes of an encoded instruction spell the bits of its encoding, in its own format: no format's bytes can be taken
for another's. -/
def EncodedBytes.Statement (i : Instr) : Prop := rawOfBytes (encodeBytes i) = some (encode i)

theorem EncodedBytes.init (a d : Byte) : EncodedBytes.Statement (.init a d) := rawOfBytes_bytes _

theorem EncodedBytes.read (a d : Byte) : EncodedBytes.Statement (.read a d) := rawOfBytes_bytes _

theorem EncodedBytes.write (a d : Byte) : EncodedBytes.Statement (.write a d) := rawOfBytes_bytes _

theorem EncodedBytes.ewen (a d : Byte) : EncodedBytes.Statement (.ewen a d) := rawOfBytes_bytes _

theorem EncodedBytes.ewds (a d : Byte) : EncodedBytes.Statement (.ewds a d) := rawOfBytes_bytes _

theorem EncodedBytes.writeb (a d : Byte) : EncodedBytes.Statement (.writeb a d) := rawOfBytes_bytes _

theorem EncodedBytes.reserved6 (a d : Byte) : EncodedBytes.Statement (.reserved6 a d) := rawOfBytes_bytes _

theorem EncodedBytes.reserved7 (a d : Byte) : EncodedBytes.Statement (.reserved7 a d) := rawOfBytes_bytes _

theorem EncodedBytes.wr (idx : RegIdx) (v : Word) : EncodedBytes.Statement (.wr idx v) := rawOfBytes_bytes _

theorem EncodedBytes.rd (idx : RegIdx) : EncodedBytes.Statement (.rd idx) := rawOfBytes_bytes _

theorem EncodedBytes.frameRead (a : DevAddr) : EncodedBytes.Statement (.frameRead a) := rawOfBytes_bytes _

theorem EncodedBytes.frameWrite (a : DevAddr) : EncodedBytes.Statement (.frameWrite a) := rawOfBytes_bytes _

theorem EncodedBytes.frameEwen : EncodedBytes.Statement .frameEwen := rawOfBytes_bytes _

theorem EncodedBytes.frameEwds : EncodedBytes.Statement .frameEwds := rawOfBytes_bytes _

theorem EncodedBytes.frameData (d : Byte) : EncodedBytes.Statement (.frameData d) := rawOfBytes_bytes _

end Sys2Proof.Laws
end

