-- ==== Sys2Proof/Laws/Run.lean ====
section
/-! SUPPORT. Runs of many steps, one step at a time. -/

namespace Sys2Proof.Machine

theorem hostRun_succ (M : Host.Core) (k : Nat) (s : M.State) :
    M.run (k + 1) s =
      match M.step s with
      | .next s' => M.run k s'
      | .fault r => .fault r
      | .refused r => .refused r := rfl

theorem run_zero (s : State) : Host.Core.run core 0 s = .next s := rfl

/-- A run starts with a step. -/
theorem run_step {s t : State} (h : step s = .next t) (n : Nat) :
    Host.Core.run core (n + 1) s = Host.Core.run core n t := by
  have h' : core.step s = .next t := h
  exact (hostRun_succ core n s).trans (by rw [h'])

theorem run_succ_inv {s t : State} {n : Nat} (h : Host.Core.run core (n + 1) s = .next t) :
    ∃ u, step s = .next u ∧ Host.Core.run core n u = .next t := by
  have h2 := (hostRun_succ core n s).symm.trans h
  split at h2
  · exact ⟨_, ‹_›, h2⟩
  · cases h2
  · cases h2

theorem after_zero {s : State} {P : State → Prop} : After 0 s P ↔ P s := by
  constructor
  · rintro ⟨t, ht, hp⟩
    cases Host.Outcome.next.inj (ht.symm.trans (run_zero s))
    exact hp
  · exact fun hp => ⟨s, rfl, hp⟩

theorem after_succ {s t : State} (h : step s = .next t) {n : Nat} {P : State → Prop} :
    After (n + 1) s P ↔ After n t P := by
  unfold After
  rw [run_step h n]

theorem After.mono {n : Nat} {s : State} {P Q : State → Prop} (h : After n s P) (hpq : ∀ t, P t → Q t) :
    After n s Q := by
  obtain ⟨t, ht, hp⟩ := h
  exact ⟨t, ht, hpq t hp⟩

/-- A run may be cut anywhere. -/
theorem after_add {m n : Nat} {s : State} {P : State → Prop} :
    After (m + n) s P ↔ After m s fun t => After n t P := by
  induction m generalizing s with
  | zero => rw [Nat.zero_add, after_zero]
  | succ m ih =>
    rw [show m + 1 + n = (m + n) + 1 by omega]
    constructor
    · rintro ⟨t, ht, hp⟩
      obtain ⟨u, hu, hr⟩ := run_succ_inv ht
      rw [after_succ hu, ← ih]
      exact ⟨t, hr, hp⟩
    · rintro ⟨t, ht, hp⟩
      obtain ⟨u, hu, hr⟩ := run_succ_inv ht
      rw [after_succ hu, ih]
      exact ⟨t, hr, hp⟩

end Sys2Proof.Machine
end

