-- ==== Sys2Proof/Laws/Sequencer.lean ====
section
/-! SUPPORT. The micro-programs as tables, and what the sequencer does where a micro-op ends. -/

namespace Sys2Proof.Machine

/-! ## The micro-programs -/

/-- Which micro-ops may follow which in the five micro-programs (41_commands.md R161 to R168); only CS_OFF ends one. -/
def MicroOp.mayPrecede : MicroOp → Option MicroOp → Bool
  | .csOn, some (.send _) => true
  | .csOn, some (.poll _) => true
  | .csOff, some .csOn => true
  | .csOff, none => true
  | .send _, some (.send _) => true
  | .send _, some .recv8 => true
  | .send _, some .csOff => true
  | .recv8, some .csOff => true
  | .poll _, some .csOff => true
  | _, _ => false

theorem microProgram_order_table : ∀ (o : BitVec 3) (n : BitVec 4),
    ((microProgram o)[n.toNat]?.all fun c => c.mayPrecede (microProgram o)[n.toNat + 1]?) = true := by decide

/-- A micro-op is followed by one that may follow it. -/
theorem Seq.followingOp_order {q : Seq} {c : MicroOp} (h : q.currentOp = some c) :
    c.mayPrecede q.followingOp = true := by
  have ht := microProgram_order_table q.work.op q.upc
  unfold Seq.currentOp at h
  rw [h] at ht
  unfold Seq.followingOp
  simpa using ht

/-- A poll stands only at `upc` = 8, bounded exactly for WRITEB (R164, R168). -/
def MicroOp.placedAt (o : BitVec 3) (n : BitVec 4) : MicroOp → Bool
  | .poll b => decide (n = 8#4) && (b == decide (o = 5#3))
  | .csOn => decide (n ≠ 8#4)
  | .csOff => decide (n ≠ 8#4)
  | .send _ => decide (n ≠ 8#4)
  | .recv8 => decide (n ≠ 8#4)

theorem microProgram_place_table : ∀ (o : BitVec 3) (n : BitVec 4),
    ((microProgram o)[n.toNat]?.all (MicroOp.placedAt o n)) = true := by decide

theorem Seq.currentOp_placed {q : Seq} {c : MicroOp} (h : q.currentOp = some c) :
    c.placedAt q.work.op q.upc = true := by
  have ht := microProgram_place_table q.work.op q.upc
  unfold Seq.currentOp at h
  rw [h] at ht
  simpa using ht

theorem microProgram_length : ∀ o : BitVec 3, (microProgram o).length ≤ 13 := by decide

/-- `upc` does not wrap where a micro-op follows. -/
theorem Seq.upc_succ {q : Seq} {op : MicroOp} (h : q.followingOp = some op) :
    (q.upc + 1#4).toNat = q.upc.toNat + 1 := by
  unfold Seq.followingOp at h
  have : q.upc.toNat + 1 < (microProgram q.work.op).length := by
    by_contra hc
    rw [List.getElem?_eq_none (by omega)] at h
    cases h
  have := microProgram_length q.work.op
  bv_omega

/-! ## Where a micro-op ends -/

theorem Seq.opEnds_busy {q : Seq} (h : q.opEnds = true) : q.busy = true ∧ q.dly.toNat ≤ 1 := by
  unfold Seq.opEnds at h
  simp at h
  exact ⟨h.1.1, h.1.2⟩

/-- Where a micro-op other than POLL ends, the action is its end. -/
theorem Seq.opEnds_act {p : Params} {b : Bool} {q : Seq} (h : q.opEnds = true) :
    q.act p b = (match q.currentOp with | some .recv8 => q.sampleBit b | _ => q).finishOp p := by
  unfold Seq.opEnds at h
  unfold Seq.act Seq.actSend Seq.actRecv8
  split <;> simp_all

/-- Where a frame is due to be sent, the edge starts its SEND. -/
theorem Seq.sendDue_edge {p : Params} {b : Bool} {q : Seq} {r : Raw} (h : q.sendDue p = some r) :
    q.busy = true ∧ q.edge p b = q.beginFrame r := by
  unfold Seq.sendDue at h
  split at h
  · rename_i src h1 h2
    simp at h
    refine ⟨(Seq.opEnds_busy h1).1, ?_⟩
    rw [Seq.edge_act (Seq.opEnds_busy h1).2, Seq.opEnds_act h1]
    split
    · rename_i hr
      have := Seq.followingOp_order hr
      rw [h2] at this
      cases this
    · rw [Seq.finishOp_some h2]
      subst h
      rfl
  · simp at h

/-- Where a byte is due to be received, the edge takes it in. -/
theorem Seq.recvDue_edge {p : Params} {b : Bool} {q : Seq} {d : Byte} (h : q.recvDue b = some d) :
    q.busy = true ∧ d = shiftIn q.acc b ∧ q.edge p b = q.takeByte p d := by
  unfold Seq.recvDue at h
  split at h
  · rename_i h1 h2
    simp at h
    subst h
    refine ⟨(Seq.opEnds_busy h1).1, rfl, ?_⟩
    rw [Seq.edge_act (Seq.opEnds_busy h1).2, Seq.opEnds_act h1, h2]
    rfl
  · simp at h

/-- A frame due is a wire frame. -/
theorem Seq.sendDue_wire {p : Params} {q : Seq} {r : Raw} (h : q.sendDue p = some r) :
    (∃ w, r = .wire9 w) ∨ ∃ d, r = .wire8 d := by
  unfold Seq.sendDue at h
  split at h
  · rename_i src _ _
    cases src <;> simp [FrameSrc.raw] at h <;> subst h <;> simp
  · simp at h

/-! ## Command start -/

/-- The word that a CMD32 instruction writes, latched (R39, R160). -/
theorem Mwm.latch_cmdWord (m : Mwm) (op : BitVec 3) (a d : Byte) :
    m.latch (cmdWord op a d) = { m with host := m.host.accepted op a d, seq := m.acceptedSeq op a d } := by
  unfold Mwm.latch Work.latch cmdReadback HostRegs.accepted Mwm.acceptedSeq HostRegs.clearFlags
  simp only [cmdOp_cmdWord, cmdAddr_cmdWord, cmdData_cmdWord]
  rfl

/-- The reserved bits of an accepted word take no part (R103). -/
theorem Mwm.accept_readback (p : Params) (v : Word) (m : Mwm) : m.accept p (cmdReadback v) = m.accept p v := by
  have : m.latch (cmdReadback v) = m.latch v := by simp [Mwm.latch, Work.latch, cmdReadback]
  simp only [Mwm.accept, this]
  simp [cmdReadback]

/-! ## Meanings as cycles -/

/-- The eight CMD32 words, WR and RD are each one cycle with their access. -/
theorem exec_hostInstr (i : Instr) (s : State) (h : isHostInstr i = true) :
    exec i s = s.hostCycle (accessOf i) := by
  cases i <;> first | rfl | simp [isHostInstr] at h

/-- The access of a decoded CMD word (R102, R113). -/
theorem accessOf_decodeCmd32 (w : BitVec 32) :
    isHostInstr (decodeCmd32 w) = true ∧ accessOf (decodeCmd32 w) = .write 0#3 (cmdReadback w) := by
  unfold decodeCmd32 cmdReadback
  rcases bits3_cases (cmdOp w) with h | h | h | h | h | h | h | h <;> rw [h] <;> exact ⟨rfl, rfl⟩

theorem isHostInstr_decodeHostbus (b : BitVec 36) : isHostInstr (decodeHostbus b) = true := by
  unfold decodeHostbus
  split <;> rfl

end Sys2Proof.Machine
end

