-- ==== Sys2Proof/Laws/Timeline.lean ====
section
/-! SUPPORT. The timelines of the micro-ops (40_primitives.md R131 to R145) over many edges: a running sequencer is followed
from the start edge of one micro-op to the start edge of the next, with the line events in between. The sample at the edge
that ends cycle `c` is `b c`. -/

namespace Sys2Proof.Machine

/-- The sequencer after `n` edges from cycle `c` on, were it to run all that time. -/
def Seq.edges (p : Params) (b : Nat → Bool) : Nat → Nat → Seq → Seq
  | _, 0, q => q
  | c, n + 1, q => Seq.edges p b (c + 1) n (q.edge p (b c))

/-- The line events of these edges. -/
def Seq.eventsFrom (p : Params) (b : Nat → Bool) : Nat → Nat → Seq → List LineEvent
  | _, 0, _ => []
  | c, n + 1, q => q.edgeEvents p (b c) ++ Seq.eventsFrom p b (c + 1) n (q.edge p (b c))

/-- From cycle `c` on, `n` edges with the events `es` lead from `q` to `q'`, and a command runs in every one of these
cycles. -/
def Seq.Runs (p : Params) (b : Nat → Bool) (c n : Nat) (q : Seq) (es : List LineEvent) (q' : Seq) : Prop :=
  (∀ m, m < n → (Seq.edges p b c m q).busy = true) ∧ Seq.eventsFrom p b c n q = es ∧ Seq.edges p b c n q = q'

theorem Seq.Runs.refl {p : Params} {b : Nat → Bool} {c : Nat} {q : Seq} : Seq.Runs p b c 0 q [] q :=
  ⟨fun _ h => by omega, rfl, rfl⟩

theorem Seq.edges_add (p : Params) (b : Nat → Bool) (c m n : Nat) (q : Seq) :
    Seq.edges p b c (m + n) q = Seq.edges p b (c + m) n (Seq.edges p b c m q) := by
  induction m generalizing c q with
  | zero => simp [Seq.edges]
  | succ m ih =>
    rw [show m + 1 + n = (m + n) + 1 by omega, Seq.edges, ih, Seq.edges, show c + 1 + m = c + (m + 1) by omega]

theorem Seq.eventsFrom_add (p : Params) (b : Nat → Bool) (c m n : Nat) (q : Seq) :
    Seq.eventsFrom p b c (m + n) q =
      Seq.eventsFrom p b c m q ++ Seq.eventsFrom p b (c + m) n (Seq.edges p b c m q) := by
  induction m generalizing c q with
  | zero => simp [Seq.edges, Seq.eventsFrom]
  | succ m ih =>
    rw [show m + 1 + n = (m + n) + 1 by omega, Seq.eventsFrom, ih, Seq.eventsFrom, Seq.edges,
      show c + 1 + m = c + (m + 1) by omega, List.append_assoc]

theorem Seq.Runs.trans {p : Params} {b : Nat → Bool} {c m n : Nat} {q q' q'' : Seq} {es es' : List LineEvent}
    (h : Seq.Runs p b c m q es q') (h' : Seq.Runs p b (c + m) n q' es' q'') :
    Seq.Runs p b c (m + n) q (es ++ es') q'' := by
  obtain ⟨h1, rfl, rfl⟩ := h
  obtain ⟨h2, rfl, rfl⟩ := h'
  refine ⟨fun k hk => ?_, Seq.eventsFrom_add .., Seq.edges_add ..⟩
  by_cases hkm : k < m
  · exact h1 k hkm
  · obtain ⟨j, rfl⟩ : ∃ j, k = m + j := ⟨k - m, by omega⟩
    rw [Seq.edges_add]
    exact h2 j (by omega)

/-- One edge. -/
theorem Seq.Runs.one {p : Params} {b : Nat → Bool} {c : Nat} {q : Seq} (hb : q.busy = true) :
    Seq.Runs p b c 1 q (q.edgeEvents p (b c)) (q.edge p (b c)) := by
  refine ⟨fun m hm => ?_, by simp [Seq.eventsFrom], rfl⟩
  have : m = 0 := by omega
  subst this
  exact hb

/-- A wait, all but its last edge: nothing happens. -/
theorem Seq.Runs.wait {p : Params} {b : Nat → Bool} (n c : Nat) {q : Seq} (hb : q.busy = true)
    (hd : q.dly.toNat = n + 1) : Seq.Runs p b c n q [] { q with dly := 1#17 } := by
  induction n generalizing c q with
  | zero =>
    have : q.dly = 1#17 := BitVec.eq_of_toNat_eq (by simpa using hd)
    have hq : q = { q with dly := 1#17 } := by rw [← this]
    rw [← hq]
    exact Seq.Runs.refl
  | succ n ih =>
    have h1 : Seq.Runs p b c 1 q [] { q with dly := q.dly - 1#17 } := by
      have := Seq.Runs.one (p := p) (b := b) (c := c) hb
      rwa [Seq.edge_wait (by omega), Seq.edgeEvents, if_neg (by omega)] at this
    have h2 := ih (c + 1) (q := { q with dly := q.dly - 1#17 }) hb (by
      have : q.dly.toNat < 2 ^ 17 := q.dly.isLt
      show (q.dly - 1#17).toNat = n + 1
      bv_omega)
    rw [show n + 1 = 1 + n by omega]
    exact h1.trans h2

/-- A whole wait, and the action at its last edge. -/
theorem Seq.Runs.waitAct {p : Params} {b : Nat → Bool} {n c : Nat} {q : Seq} (hb : q.busy = true)
    (hd : q.dly.toNat = n) (hn : 1 ≤ n) :
    Seq.Runs p b c n q ({ q with dly := 1#17 }.actEvents p (b (c + n - 1)))
      ({ q with dly := 1#17 }.act p (b (c + n - 1))) := by
  obtain ⟨m, rfl⟩ : ∃ m, n = m + 1 := ⟨n - 1, by omega⟩
  have h2 : Seq.Runs p b (c + m) 1 { q with dly := 1#17 } _ _ := Seq.Runs.one hb
  rw [Seq.edge_act (by simp), Seq.edgeEvents, if_pos (by simp)] at h2
  exact (Seq.Runs.wait m c hb hd).trans h2

theorem Seq.wait_toNat (n : Nat) (ph : Phase) (q : Seq) (h : n < 2 ^ 17) : (q.wait n ph).dly.toNat = n := by
  simp [Seq.wait]
  omega

/-! ## CS_ON and CS_OFF (R131, R132) -/

/-- A hold of C cycles, then the end of the micro-op. -/
theorem Seq.runs_hold {p : Params} {b : Nat → Bool} {c : Nat} {q : Seq} (hb : q.busy = true) (hw : q.work.Legal)
    (ho : q.currentOp = some .csOn ∨ q.currentOp = some .csOff) (hd : q.dly.toNat = q.work.cs.toNat) :
    Seq.Runs p b c q.work.cs.toNat q ({ q with dly := 1#17 }.finishEvents p) ({ q with dly := 1#17 }.finishOp p) := by
  have a := Seq.Runs.waitAct (p := p) (b := b) (c := c) hb hd hw.2.2.1
  generalize b (c + q.work.cs.toNat - 1) = x at a
  have e : { q with dly := 1#17 }.currentOp = q.currentOp := rfl
  rcases ho with ho | ho <;> simpa only [Seq.act, Seq.actEvents, e, ho] using a

/-! ## SEND (R134, R135) -/

/-- The sequencer at the last edge of a SEND cell that presents bit `i`. -/
def Seq.sendCellEnd (i : Nat) (q : Seq) : Seq := { q.startSendCell i with phase := .low, dly := 1#17 }

/-- The sequencer where CLK rises in that cell. -/
def Seq.sendCellHigh (i : Nat) (q : Seq) : Seq := { q.startSendCell i with dly := 1#17 }.clkRise

/-- The sequencer where CLK falls in that cell. -/
def Seq.sendCellLow (i : Nat) (q : Seq) : Seq := { q.sendCellHigh i with dly := 1#17 }.clkFall

theorem Seq.sendCellLow_end {i : Nat} {q : Seq} (hc : q.clkQ = false) :
    { q.sendCellLow i with dly := 1#17 } = q.sendCellEnd i := by
  simp [Seq.sendCellLow, Seq.sendCellHigh, Seq.sendCellEnd, Seq.clkRise, Seq.clkFall, Seq.wait, Seq.setCLK,
    Seq.startSendCell, Seq.setDI, hc]

/-- S cycles of setup, then CLK rises (R133, R134). -/
theorem Seq.runs_sendSetup {p : Params} {b : Nat → Bool} {c i : Nat} {q : Seq} {src : FrameSrc} (hb : q.busy = true)
    (hw : q.work.Legal) (ho : q.currentOp = some (.send src)) :
    Seq.Runs p b c q.work.su.toNat (q.startSendCell i) [.clkUp] (q.sendCellHigh i) := by
  have hsu : q.work.su.toNat < 2 ^ 8 := q.work.su.isLt
  have a := Seq.Runs.waitAct (p := p) (b := b) (c := c) (q := q.startSendCell i) hb
    (n := q.work.su.toNat) (Seq.wait_toNat _ _ _ (by show q.work.su.toNat < _; omega)) hw.2.1
  have o : { q.startSendCell i with dly := 1#17 }.currentOp = some (.send src) := ho
  unfold Seq.act Seq.actEvents at a
  rw [o] at a
  exact a

/-- H cycles with CLK high, then it falls (R133). -/
theorem Seq.runs_sendHigh {p : Params} {b : Nat → Bool} {c i : Nat} {q : Seq} {src : FrameSrc} (hb : q.busy = true)
    (hw : q.work.Legal) (ho : q.currentOp = some (.send src)) :
    Seq.Runs p b c q.work.th.toNat (q.sendCellHigh i) [.clkDown] (q.sendCellLow i) := by
  have hth : q.work.th.toNat < 2 ^ 16 := q.work.th.isLt
  have h2 := hw.1
  have a := Seq.Runs.waitAct (p := p) (b := b) (c := c) (q := q.sendCellHigh i) hb
    (n := q.work.th.toNat) (Seq.wait_toNat _ _ _ (by show q.work.th.toNat < _; omega)) (by omega)
  have o : { q.sendCellHigh i with dly := 1#17 }.currentOp = some (.send src) := ho
  unfold Seq.act Seq.actEvents at a
  rw [o] at a
  exact a

/-- H cycles with CLK low, then the next cell, or the end of SEND after bit 0 (R133, R135). -/
theorem Seq.runs_sendLow {p : Params} {b : Nat → Bool} {c i : Nat} {q : Seq} {src : FrameSrc} (hb : q.busy = true)
    (hw : q.work.Legal) (ho : q.currentOp = some (.send src)) (hc : q.clkQ = false) (hi : i < 16) :
    Seq.Runs p b c q.work.th.toNat (q.sendCellLow i)
      (if i = 0 then (q.sendCellEnd i).finishEvents p else [.di (q.shVal.getLsbD (i - 1))])
      (if i = 0 then (q.sendCellEnd i).finishOp p else q.startSendCell (i - 1)) := by
  have hth : q.work.th.toNat < 2 ^ 16 := q.work.th.isLt
  have h2 := hw.1
  have a := Seq.Runs.waitAct (p := p) (b := b) (c := c) (q := q.sendCellLow i) hb
    (n := q.work.th.toNat) (Seq.wait_toNat _ _ _ (by show q.work.th.toNat < _; omega)) (by omega)
  rw [Seq.sendCellLow_end hc] at a
  generalize b (c + q.work.th.toNat - 1) = y at a
  have h5 : (q.sendCellEnd i).currentOp = some (.send src) := ho
  have h6 : (q.sendCellEnd i).bitIdx = BitVec.ofNat 4 i := rfl
  have h7 : (BitVec.ofNat 4 i = 0#4) ↔ i = 0 := by
    constructor
    · intro h
      have := congrArg BitVec.toNat h
      simpa [Nat.mod_eq_of_lt hi] using this
    · rintro rfl; rfl
  have e3 : (q.sendCellEnd i).act p y = if i = 0 then (q.sendCellEnd i).finishOp p else q.startSendCell (i - 1) := by
    unfold Seq.act
    rw [h5]
    show (if (q.sendCellEnd i).bitIdx = 0#4 then _ else (q.sendCellEnd i).startSendCell _) = _
    rw [h6]
    simp only [h7]
    split_ifs
    · rfl
    · rw [BitVec.toNat_ofNat, Nat.mod_eq_of_lt hi]
      simp [Seq.sendCellEnd, Seq.startSendCell, Seq.setDI, Seq.wait]
  have v3 : (q.sendCellEnd i).actEvents p y
      = if i = 0 then (q.sendCellEnd i).finishEvents p else [.di (q.shVal.getLsbD (i - 1))] := by
    unfold Seq.actEvents
    rw [h5]
    show (if (q.sendCellEnd i).bitIdx = 0#4 then _
      else [LineEvent.di ((q.sendCellEnd i).shVal.getLsbD ((q.sendCellEnd i).bitIdx.toNat - 1))]) = _
    rw [h6]
    simp only [h7]
    rw [BitVec.toNat_ofNat, Nat.mod_eq_of_lt hi]
    rfl
  rwa [e3, v3] at a

/-- A SEND cell that presents bit `i` (R134): L cycles with one pulse, then the next cell or the end of SEND. -/
theorem Seq.runs_sendCell {p : Params} {b : Nat → Bool} {c i : Nat} {q : Seq} {src : FrameSrc} (hb : q.busy = true)
    (hw : q.work.Legal) (ho : q.currentOp = some (.send src)) (hc : q.clkQ = false) (hi : i < 16) :
    Seq.Runs p b c (cellCycles q.work.su.toNat q.work.th.toNat) (q.startSendCell i)
      ([.clkUp, .clkDown] ++
        if i = 0 then (q.sendCellEnd i).finishEvents p else [.di (q.shVal.getLsbD (i - 1))])
      (if i = 0 then (q.sendCellEnd i).finishOp p else q.startSendCell (i - 1)) := by
  have := ((Seq.runs_sendSetup (c := c) hb hw ho).trans (Seq.runs_sendHigh hb hw ho)).trans
    (Seq.runs_sendLow (p := p) (b := b) hb hw ho hc hi)
  rwa [show q.work.su.toNat + q.work.th.toNat + q.work.th.toNat = cellCycles q.work.su.toNat q.work.th.toNat by
    unfold cellCycles; omega] at this

theorem Seq.sendCellEnd_startSendCell (i j : Nat) (q : Seq) : (q.startSendCell i).sendCellEnd j = q.sendCellEnd j := by
  simp [Seq.sendCellEnd, Seq.startSendCell, Seq.setDI, Seq.wait]

theorem Seq.startSendCell_startSendCell (i j : Nat) (q : Seq) :
    (q.startSendCell i).startSendCell j = q.startSendCell j := by
  simp [Seq.startSendCell, Seq.setDI, Seq.wait]

/-- The cells of SEND from bit `i` down to bit 0: (i + 1)·L cycles, and each bit after the first is presented at the edge
before its pulse. -/
theorem Seq.runs_sendCells {p : Params} {b : Nat → Bool} {i : Nat} {q : Seq} {src : FrameSrc} (c : Nat)
    (hb : q.busy = true) (hw : q.work.Legal) (ho : q.currentOp = some (.send src)) (hc : q.clkQ = false) (hi : i < 16) :
    Seq.Runs p b c (sendCycles q.work.su.toNat q.work.th.toNat (i + 1)) (q.startSendCell i)
      ([.clkUp, .clkDown] ++ sendEvents q.shVal i ++ (q.sendCellEnd 0).finishEvents p)
      ((q.sendCellEnd 0).finishOp p) := by
  induction i generalizing c with
  | zero =>
    have a := Seq.runs_sendCell (p := p) (b := b) (c := c) (i := 0) hb hw ho hc hi
    simpa [sendCycles, sendEvents] using a
  | succ i ih =>
    have a := Seq.runs_sendCell (p := p) (b := b) (c := c) (i := i + 1) hb hw ho hc hi
    rw [if_neg (by omega), if_neg (by omega), Nat.add_sub_cancel] at a
    have a2 := a.trans (ih (c + cellCycles q.work.su.toNat q.work.th.toNat) (by omega))
    have hn : sendCycles q.work.su.toNat q.work.th.toNat (i + 1 + 1)
        = cellCycles q.work.su.toNat q.work.th.toNat + sendCycles q.work.su.toNat q.work.th.toNat (i + 1) := by
      unfold sendCycles; ring
    rw [hn]
    simpa [sendEvents, sendCellEvents] using a2

/-- SEND (R135, R137, R145): w·L cycles; after the first bit, which is presented at its start edge, every bit of the frame
from w − 2 down, each with one pulse. -/
theorem Seq.runs_send {p : Params} {b : Nat → Bool} {w : Nat} {q : Seq} {src : FrameSrc} {v : Frame} (c : Nat)
    (hb : q.busy = true) (hw : q.work.Legal) (ho : q.currentOp = some (.send src)) (hc : q.clkQ = false)
    (h1 : 1 ≤ w) (h16 : w ≤ 16) :
    Seq.Runs p b c (sendCycles q.work.su.toNat q.work.th.toNat w) (q.startSend v w)
      ((sendEvents v w).tail ++ ({ q with shVal := v }.sendCellEnd 0).finishEvents p)
      (({ q with shVal := v }.sendCellEnd 0).finishOp p) := by
  obtain ⟨i, rfl⟩ : ∃ i, w = i + 1 := ⟨w - 1, by omega⟩
  have a := Seq.runs_sendCells (p := p) (b := b) (q := { q with shVal := v }) c hb hw ho hc (i := i) (by omega)
  simpa [Seq.startSend, sendEvents, sendCellEvents] using a

/-! ## RECV8 (R138, R139) -/

/-- The sequencer at the last edge of RECV cell `j`. -/
def Seq.recvCellEnd (j : Nat) (q : Seq) : Seq := { q.startRecvCell j with phase := .low, dly := 1#17 }

/-- RECV cell `j`: L cycles with one pulse, and the sample at its last edge. -/
theorem Seq.runs_recvCell {p : Params} {b : Nat → Bool} {c j : Nat} {q : Seq} (hb : q.busy = true)
    (hw : q.work.Legal) (ho : q.currentOp = some .recv8) (hc : q.clkQ = false) (hj : j < 8) :
    let x := b (c + cellCycles q.work.su.toNat q.work.th.toNat - 1)
    Seq.Runs p b c (cellCycles q.work.su.toNat q.work.th.toNat) (q.startRecvCell j)
      ([.clkUp, .clkDown, .sample x] ++ if j = 7 then (q.recvCellEnd j).finishEvents p else [])
      (if j = 7 then ((q.recvCellEnd j).sampleBit x).finishOp p else (q.sampleBit x).startRecvCell (j + 1)) := by
  intro x
  obtain ⟨h2, h1, -, -⟩ := hw
  have hth : q.work.th.toNat < 2 ^ 16 := q.work.th.isLt
  have hsu : q.work.su.toNat < 2 ^ 8 := q.work.su.isLt
  have a1 := Seq.Runs.waitAct (p := p) (b := b) (c := c) (q := q.startRecvCell j) hb
    (n := q.work.su.toNat) (Seq.wait_toNat _ _ _ (by show q.work.su.toNat < _; omega)) h1
  generalize b (c + q.work.su.toNat - 1) = z at a1
  have o1 : { q.startRecvCell j with dly := 1#17 }.currentOp = some .recv8 := ho
  have e1 : { q.startRecvCell j with dly := 1#17 }.act p z = { q.startRecvCell j with dly := 1#17 }.clkRise := by
    unfold Seq.act
    rw [o1]
    rfl
  have v1 : { q.startRecvCell j with dly := 1#17 }.actEvents p z = [.clkUp] := by
    unfold Seq.actEvents
    rw [o1]
    rfl
  rw [e1, v1] at a1
  have a2 := Seq.Runs.waitAct (p := p) (b := b) (c := c + q.work.su.toNat)
    (q := { q.startRecvCell j with dly := 1#17 }.clkRise) hb (n := q.work.th.toNat)
    (Seq.wait_toNat _ _ _ (by show q.work.th.toNat < _; omega)) (by omega)
  generalize b (c + q.work.su.toNat + q.work.th.toNat - 1) = x' at a2
  have o2 : { { q.startRecvCell j with dly := 1#17 }.clkRise with dly := 1#17 }.currentOp = some .recv8 := ho
  have e2 : { { q.startRecvCell j with dly := 1#17 }.clkRise with dly := 1#17 }.act p x'
      = { { q.startRecvCell j with dly := 1#17 }.clkRise with dly := 1#17 }.clkFall := by
    unfold Seq.act
    rw [o2]
    rfl
  have v2 : { { q.startRecvCell j with dly := 1#17 }.clkRise with dly := 1#17 }.actEvents p x' = [.clkDown] := by
    unfold Seq.actEvents
    rw [o2]
    rfl
  rw [e2, v2] at a2
  have a3 := Seq.Runs.waitAct (p := p) (b := b) (c := c + q.work.su.toNat + q.work.th.toNat)
    (q := { { q.startRecvCell j with dly := 1#17 }.clkRise with dly := 1#17 }.clkFall) hb (n := q.work.th.toNat)
    (Seq.wait_toNat _ _ _ (by show q.work.th.toNat < _; omega)) (by omega)
  have hx : b (c + q.work.su.toNat + q.work.th.toNat + q.work.th.toNat - 1) = x := by
    simp only [x]
    congr 1
    unfold cellCycles
    omega
  rw [hx] at a3
  have hlow : { { { q.startRecvCell j with dly := 1#17 }.clkRise with dly := 1#17 }.clkFall with dly := 1#17 }
      = q.recvCellEnd j := by
    simp [Seq.recvCellEnd, Seq.clkRise, Seq.clkFall, Seq.wait, Seq.setCLK, Seq.startRecvCell, hc]
  rw [hlow] at a3
  have h5 : (q.recvCellEnd j).currentOp = some .recv8 := ho
  have h6 : (q.recvCellEnd j).cell = BitVec.ofNat 4 j := rfl
  have h7 : (BitVec.ofNat 4 j = 7#4) ↔ j = 7 := by
    constructor
    · intro h
      have := congrArg BitVec.toNat h
      simpa [Nat.mod_eq_of_lt (show j < 16 by omega)] using this
    · rintro rfl; rfl
  have e3 : (q.recvCellEnd j).act p x
      = if j = 7 then ((q.recvCellEnd j).sampleBit x).finishOp p else (q.sampleBit x).startRecvCell (j + 1) := by
    unfold Seq.act
    rw [h5]
    show (if (q.recvCellEnd j).cell = 7#4 then _ else ((q.recvCellEnd j).sampleBit x).startRecvCell _) = _
    rw [h6]
    simp only [h7]
    split_ifs
    · rfl
    · rw [BitVec.toNat_ofNat, Nat.mod_eq_of_lt (by omega)]
      simp [Seq.recvCellEnd, Seq.startRecvCell, Seq.sampleBit, Seq.wait]
  have v3 : (q.recvCellEnd j).actEvents p x
      = [.sample x] ++ if j = 7 then (q.recvCellEnd j).finishEvents p else [] := by
    unfold Seq.actEvents
    rw [h5]
    show [LineEvent.sample x] ++ (if (q.recvCellEnd j).cell = 7#4 then _ else []) = _
    rw [h6]
    simp only [h7]
  rw [e3, v3] at a3
  have := (a1.trans a2).trans (by rw [← Nat.add_assoc]; exact a3)
  rwa [show q.work.su.toNat + q.work.th.toNat + q.work.th.toNat = cellCycles q.work.su.toNat q.work.th.toNat by
    unfold cellCycles; omega] at this

/-- `acc` after `n` more samples, one at the end of each cell of `l` cycles (R138). -/
def recvAcc (b : Nat → Bool) (l : Nat) : Nat → Nat → Byte → Byte
  | _, 0, a => a
  | c, n + 1, a => recvAcc b l (c + l) n (shiftIn a (b (c + l - 1)))

/-- The events of these cells. -/
def recvCellEvents (b : Nat → Bool) (l : Nat) : Nat → Nat → List LineEvent
  | _, 0 => []
  | c, n + 1 => [.clkUp, .clkDown, .sample (b (c + l - 1))] ++ recvCellEvents b l (c + l) n

/-- The cells of RECV8 from cell `j` on (R139, R140). -/
theorem Seq.runs_recvCells {p : Params} {b : Nat → Bool} {n j : Nat} {q : Seq} (c : Nat) (hb : q.busy = true)
    (hw : q.work.Legal) (ho : q.currentOp = some .recv8) (hc : q.clkQ = false) (hj : j + n = 7) :
    let l := cellCycles q.work.su.toNat q.work.th.toNat
    let q' := { q with acc := recvAcc b l c (n + 1) q.acc }
    Seq.Runs p b c ((n + 1) * l) (q.startRecvCell j)
      (recvCellEvents b l c (n + 1) ++ (q'.recvCellEnd 7).finishEvents p) ((q'.recvCellEnd 7).finishOp p) := by
  induction n generalizing c q j with
  | zero =>
    intro l q'
    have hj : j = 7 := by omega
    subst hj
    have a := Seq.runs_recvCell (p := p) (b := b) (c := c) (j := 7) hb hw ho hc (by omega)
    rw [Nat.zero_add, Nat.one_mul]
    exact a
  | succ n ih =>
    intro l q'
    have a := Seq.runs_recvCell (p := p) (b := b) (c := c) (j := j) hb hw ho hc (by omega)
    simp only [if_neg (show ¬j = 7 by omega)] at a
    have a2 := a.trans (ih (q := q.sampleBit (b (c + l - 1))) (c + l) hb hw ho hc (j := j + 1) (by omega))
    rw [show (n + 1 + 1) * l = l + (n + 1) * l by ring]
    rw [List.append_nil, ← List.append_assoc] at a2
    exact a2

/-- Bit `n − 1 − j` of `acc` after `n` samples is the `j`-th of them, for the last eight. -/
theorem recvAcc_bit (b : Nat → Bool) (l c n j : Nat) (a : Byte) (hj : j < n) (hn : n ≤ j + 8) :
    (recvAcc b l c n a).getLsbD (n - 1 - j) = b (c + (j + 1) * l - 1) := by
  have shift : ∀ (m c : Nat) (a : Byte) (i : Nat), i < 8 →
      (recvAcc b l c m a).getLsbD i = if i < m then b (c + (m - i) * l - 1) else a.getLsbD (i - m) := by
    intro m
    induction m with
    | zero => intro c a i _; simp [recvAcc]
    | succ m ih =>
      intro c a i hi
      rw [recvAcc, ih _ _ _ hi]
      by_cases h1 : i < m
      · rw [if_pos h1, if_pos (by omega)]
        congr 1
        rw [show m + 1 - i = (m - i) + 1 by omega]
        ring_nf
      · by_cases h2 : i = m
        · subst h2
          rw [if_neg h1, if_pos (by omega)]
          simp [shiftIn]
        · rw [if_neg h1, if_neg (by omega)]
          simp only [shiftIn, BitVec.getLsbD_or, BitVec.getLsbD_shiftLeft]
          simp [show i - m < 8 by omega, show i - m ≠ 0 by omega, show i - m - 1 = i - (m + 1) by omega]
  rw [shift n c a _ (by omega), if_pos (by omega)]
  congr 2
  rw [show n - (n - 1 - j) = j + 1 by omega]

/-! ## POLL (R141, R142) -/

/-- The sequencer at the last edge of a poll slot. -/
def Seq.slotEnd (q : Seq) : Seq := { q.startSlot with clkQ := false, phase := .low, dly := 1#17 }

/-- One poll slot: 2H cycles, and the sample at its last edge. -/
theorem Seq.runs_slot {p : Params} {b : Nat → Bool} {c : Nat} {q : Seq} {bounded : Bool} (hb : q.busy = true)
    (hw : q.work.Legal) (ho : q.currentOp = some (.poll bounded)) :
    let x := b (c + 2 * q.work.th.toNat - 1)
    ∃ es, Seq.Runs p b c (2 * q.work.th.toNat) q.startSlot es (q.slotEnd.actPoll p bounded x) := by
  intro x
  obtain ⟨h2, -, -, -⟩ := hw
  have hth : q.work.th.toNat < 2 ^ 16 := q.work.th.isLt
  have a1 := Seq.Runs.waitAct (p := p) (b := b) (c := c) (q := q.startSlot) hb
    (n := q.work.th.toNat) (Seq.wait_toNat _ _ _ (by show q.work.th.toNat < _; omega)) (by omega)
  generalize b (c + q.work.th.toNat - 1) = z at a1
  have o1 : { q.startSlot with dly := 1#17 }.currentOp = some (.poll bounded) := ho
  have e1 : { q.startSlot with dly := 1#17 }.act p z = { q.startSlot with dly := 1#17 }.clkFall := by
    unfold Seq.act
    rw [o1]
    rfl
  rw [e1] at a1
  have a2 := Seq.Runs.waitAct (p := p) (b := b) (c := c + q.work.th.toNat)
    (q := { q.startSlot with dly := 1#17 }.clkFall) hb (n := q.work.th.toNat)
    (Seq.wait_toNat _ _ _ (by show q.work.th.toNat < _; omega)) (by omega)
  have hx : b (c + q.work.th.toNat + q.work.th.toNat - 1) = x := by
    simp only [x]
    congr 1
    omega
  rw [hx] at a2
  have hlow : { { q.startSlot with dly := 1#17 }.clkFall with dly := 1#17 } = q.slotEnd := by
    simp [Seq.slotEnd, Seq.clkFall, Seq.wait, Seq.setCLK, Seq.startSlot]
  rw [hlow] at a2
  have e2 : q.slotEnd.act p x = q.slotEnd.actPoll p bounded x := by
    have : q.slotEnd.currentOp = some (.poll bounded) := ho
    unfold Seq.act
    rw [this]
  rw [e2] at a2
  have := a1.trans a2
  rw [show q.work.th.toNat + q.work.th.toNat = 2 * q.work.th.toNat by omega] at this
  exact ⟨_, this⟩

/-! ## The machine follows its sequencer -/

/-- The machine after `n` whole cycles, each with the access that stands on its port. -/
def State.cycles : Nat → State → State
  | 0, s => s
  | n + 1, s => State.cycles n (s.clkCycle s.portAccess)

theorem State.cycles_succ (n : Nat) (s : State) :
    s.cycles (n + 1) = (s.cycles n).clkCycle (s.cycles n).portAccess := by
  induction n generalizing s with
  | zero => rfl
  | succ n ih => rw [State.cycles, ih]; rfl

theorem State.cycles_add (m n : Nat) (s : State) : s.cycles (m + n) = (s.cycles m).cycles n := by
  induction m generalizing s with
  | zero => simp [State.cycles]
  | succ m ih => rw [show m + 1 + n = (m + n) + 1 by omega, State.cycles, ih]; rfl

theorem State.quiet_rst {s : State} (h : s.quiet) : s.rst = false := by
  unfold State.rst
  cases hs : s.script with
  | nil => rfl
  | cons q r => exact h.2 q (by simp [hs])

/-- A cycle keeps `rst` low for the rest of the script. -/
theorem State.quiet_clkCycle {s : State} (h : s.quiet) (acc : Access) : (s.clkCycle acc).quiet := by
  refine ⟨h.1, fun q hq => ?_⟩
  change q ∈ s.nextScript at hq
  unfold State.nextScript at hq
  split at hq
  · cases hq
  · rename_i x r hs
    split at hq
    · rcases List.mem_cons.mp hq with rfl | hq
      · rfl
      · exact h.2 q (by simp [hs, hq])
    · exact h.2 q (by simp [hs, hq])

theorem State.quiet_cycles {s : State} (h : s.quiet) (n : Nat) : (s.cycles n).quiet := by
  induction n with
  | zero => exact h
  | succ n ih => rw [State.cycles_succ]; exact State.quiet_clkCycle ih _

theorem State.cycles_params (s : State) (n : Nat) : (s.cycles n).params = s.params := by
  induction n with
  | zero => rfl
  | succ n ih => rw [State.cycles_succ]; exact ih

/-- In a cycle with `rst` low, a running sequencer takes its edge with `do_s2` as the sample. -/
theorem State.seq_clkCycle {s : State} (h : s.rst = false) (hb : s.mwm.seq.busy = true) (acc : Access) :
    (s.clkCycle acc).mwm.seq = s.mwm.seq.edge s.params s.mwm.doS2 := by
  show (s.mwmEdge acc _).seq = _
  rw [State.mwmEdge_busy h hb]
  rfl

/-- As long as a command runs, the sequencer of the machine goes where its edges lead. -/
theorem State.cycles_runs {s : State} {n : Nat} {q : Seq} {es : List LineEvent} (h : s.quiet)
    (hr : Seq.Runs s.params (fun i => (s.cycles i).mwm.doS2) 0 n s.mwm.seq es q) :
    (∀ m, m < n → (s.cycles m).mwm.seq.busy = true) ∧ (s.cycles n).mwm.seq = q := by
  obtain ⟨h1, -, rfl⟩ := hr
  have key : ∀ m, m ≤ n →
      (s.cycles m).mwm.seq = Seq.edges s.params (fun i => (s.cycles i).mwm.doS2) 0 m s.mwm.seq := by
    intro m
    induction m with
    | zero => intro _; rfl
    | succ m ih =>
      intro hm
      have hi := ih (by omega)
      have hb := h1 m (by omega)
      rw [State.cycles_succ, State.seq_clkCycle (State.quiet_rst (State.quiet_cycles h m)) (by rw [hi]; exact hb),
        hi, Seq.edges_add _ _ _ m 1, State.cycles_params, Nat.zero_add]
      rfl
  exact ⟨fun m hm => by rw [key m (by omega)]; exact h1 m hm, key n (Nat.le_refl n)⟩

/-- Where every step after the first reset is a whole cycle, a run is a number of cycles. -/
theorem run_cycles (hstep : ∀ u : State, u.resetSeen = true → step u = .next (u.clkCycle u.portAccess))
    {s : State} (h : s.resetSeen = true) (n : Nat) : Host.Core.run core n s = .next (s.cycles n) := by
  induction n generalizing s with
  | zero => rfl
  | succ n ih => exact (run_step (hstep s h) n).trans (ih (s := s.clkCycle s.portAccess) h)

theorem Seq.edges_shift (p : Params) (b : Nat → Bool) (c n : Nat) (q : Seq) :
    Seq.edges p b (c + 1) n q = Seq.edges p (fun i => b (i + 1)) c n q := by
  induction n generalizing c q with
  | zero => rfl
  | succ n ih => rw [Seq.edges, Seq.edges, ih]

theorem Seq.eventsFrom_shift (p : Params) (b : Nat → Bool) (c n : Nat) (q : Seq) :
    Seq.eventsFrom p b (c + 1) n q = Seq.eventsFrom p (fun i => b (i + 1)) c n q := by
  induction n generalizing c q with
  | zero => rfl
  | succ n ih => rw [Seq.eventsFrom, Seq.eventsFrom, ih]

/-- As long as a command runs, the line events of the machine are those of its sequencer. -/
theorem eventsOver_runs (hstep : ∀ u : State, u.resetSeen = true → step u = .next (u.clkCycle u.portAccess))
    {s : State} {n : Nat} {q : Seq} {es : List LineEvent} (h : s.quiet)
    (hr : Seq.Runs s.params (fun i => (s.cycles i).mwm.doS2) 0 n s.mwm.seq es q) : eventsOver n s = es := by
  obtain ⟨h1, rfl, -⟩ := hr
  induction n generalizing s with
  | zero => rfl
  | succ n ih =>
    have hb : s.mwm.seq.busy = true := h1 0 (by omega)
    have hseq := State.seq_clkCycle (State.quiet_rst h) hb s.portAccess
    have h2 := ih (s := s.clkCycle s.portAccess) (State.quiet_clkCycle h _) (fun m hm => by
      have := h1 (m + 1) (by omega)
      rw [Seq.edges, Seq.edges_shift] at this
      rw [hseq]
      exact this)
    rw [eventsOver, hstep s h.1]
    show s.edgeEvents s.portAccess ++ eventsOver n (s.clkCycle s.portAccess) = _
    rw [h2, Seq.eventsFrom, Seq.eventsFrom_shift, hseq]
    simp only [State.edgeEvents, State.quiet_rst h, hb, Bool.false_eq_true, if_false, if_true]
    rfl

end Sys2Proof.Machine
end

