-- ==== Sys2Proof/Laws/Wire.lean ====
section
/-! SUPPORT. What the reference device sees of a running sequencer (20_memory.md R76 to R84): over a SEND cell a device that
is not busy takes one rising clock with the bit on DI, and over a whole SEND the bits of the frame. -/

namespace Sys2Proof.Machine

/-- The reference device after `n` cycles from cycle `c` on, in which it sees the lines of a running sequencer. -/
def Seq.seen (p : Params) (b : Nat → Bool) : Nat → Nat → Seq → Device → Device
  | _, 0, _, d => d
  | c, n + 1, q, d => Seq.seen p b (c + 1) n (q.edge p (b c)) (d.observe q.csQ q.clkQ q.diQ)

theorem Seq.seen_add (p : Params) (b : Nat → Bool) (c m n : Nat) (q : Seq) (d : Device) :
    Seq.seen p b c (m + n) q d = Seq.seen p b (c + m) n (Seq.edges p b c m q) (Seq.seen p b c m q d) := by
  induction m generalizing c q d with
  | zero => simp [Seq.seen, Seq.edges]
  | succ m ih =>
    rw [show m + 1 + n = (m + n) + 1 by omega, Seq.seen, ih, Seq.edges, Seq.seen, show c + 1 + m = c + (m + 1) by omega]

theorem Seq.edges_work (p : Params) (b : Nat → Bool) (c n : Nat) (q : Seq) : (Seq.edges p b c n q).work = q.work := by
  induction n generalizing c q with
  | zero => rfl
  | succ n ih => rw [Seq.edges, ih, Seq.edge_work]

/-- The reference device of the machine sees the running sequencer, and stays sound where the command's timing exceeds its
minima (R76, R241). -/
theorem State.cycles_seen {s : State} {n : Nat} {q : Seq} {es : List LineEvent} (h : s.quiet)
    (hk : s.env.kind = .reference) (hc : s.env.conduct = .sound)
    (hx : s.mwm.seq.work.exceeds s.env.minima = true)
    (hr : Seq.Runs s.params (fun i => (s.cycles i).mwm.doS2) 0 n s.mwm.seq es q) :
    (s.cycles n).env.kind = .reference ∧ (s.cycles n).env.conduct = .sound ∧
      (s.cycles n).env.minima = s.env.minima ∧
      (s.cycles n).env.dev = Seq.seen s.params (fun i => (s.cycles i).mwm.doS2) 0 n s.mwm.seq s.env.dev := by
  have hb := (State.cycles_runs h hr).1
  obtain ⟨h1, -, rfl⟩ := hr
  have key : ∀ m, m ≤ n → (s.cycles m).env.kind = .reference ∧ (s.cycles m).env.conduct = .sound ∧
      (s.cycles m).env.minima = s.env.minima ∧
      (s.cycles m).mwm.seq = Seq.edges s.params (fun i => (s.cycles i).mwm.doS2) 0 m s.mwm.seq ∧
      (s.cycles m).env.dev = Seq.seen s.params (fun i => (s.cycles i).mwm.doS2) 0 m s.mwm.seq s.env.dev := by
    intro m
    induction m with
    | zero => exact fun _ => ⟨hk, hc, rfl, rfl, rfl⟩
    | succ m ih =>
      intro hm
      obtain ⟨hi, hj, hn, hs, hd⟩ := ih (by omega)
      have hp := State.cycles_params s m
      have hcs : csLogical (s.cycles m).params ((s.cycles m).mwm.csPin (s.cycles m).params) = (s.cycles m).mwm.seq.csQ := by
        unfold csLogical Mwm.csPin
        split <;> simp
      have hw : (s.cycles m).env.nextConduct (s.cycles m).mwm = .sound :=
        Env.nextConduct_sound hj fun _ => by rw [hs, hn, Seq.edges_work]; exact hx
      have he := Env.observe_sound (s.cycles m).params (s.cycles m).cycle hi hw
      rw [State.cycles_succ]
      refine ⟨?_, ?_, ?_, ?_, ?_⟩
      · exact (Env.observe_kind _ _ _ _).1.trans hi
      · show (Env.observe _ _ _ _).conduct = _
        rw [he]
      · exact (Env.observe_conduct _ _ _ _).1.trans hn
      · rw [State.seq_clkCycle (State.quiet_rst (State.quiet_cycles h m)) (hb m (by omega)), hs, hp,
          Seq.edges_add _ _ _ m 1, Nat.zero_add]
        rfl
      · show (Env.observe _ _ _ _).dev = _
        rw [he]
        show (s.cycles m).env.dev.observe (csLogical _ ((s.cycles m).mwm.csPin _)) (s.cycles m).mwm.seq.clkQ
          (s.cycles m).mwm.seq.diQ = _
        rw [hcs, Seq.seen_add _ _ _ m 1, ← hs, ← hd]
        rfl
  have := key n (Nat.le_refl n)
  exact ⟨this.1, this.2.1, this.2.2.1, this.2.2.2.2⟩

/-! ## Steady lines -/

/-- A device that is not busy and has seen these levels already changes nothing. -/
theorem Device.observe_steady {d : Device} {cs clk : Bool} (di : Bool) (hb : d.busy = false) (h1 : d.csPrev = cs)
    (h2 : d.clkPrev = clk) : d.observe cs clk di = d := by
  subst h1 h2
  have hc : d.countDown = d := by simp [Device.countDown, hb]
  have he : d.csEvents d.csPrev = d := by cases hp : d.csPrev <;> simp [Device.csEvents, hp]
  unfold Device.observe
  rw [hc, he]
  have hk : d.clkEvents d.csPrev d.clkPrev di = d := by
    unfold Device.clkEvents
    rw [if_neg]
    cases d.clkPrev <;> simp
  rw [hk]

/-- A device that is not busy sees a change of CLK at the first cycle of a wait, and nothing after it. -/
theorem Seq.seen_wait {p : Params} {b : Nat → Bool} (n c : Nat) {q : Seq} {d : Device} (hd : q.dly.toNat = n + 1)
    (hb : (d.observe q.csQ q.clkQ q.diQ).busy = false) :
    Seq.seen p b c (n + 1) q d = d.observe q.csQ q.clkQ q.diQ := by
  have steady : ∀ (n c : Nat) (q : Seq) (e : Device), n ≤ q.dly.toNat → e.busy = false → e.csPrev = q.csQ →
      e.clkPrev = q.clkQ → Seq.seen p b c n q e = e := by
    intro n
    induction n with
    | zero => intros; rfl
    | succ n ih =>
      intro c q e hq he hc hk
      rw [Seq.seen, Device.observe_steady q.diQ he hc hk]
      cases n with
      | zero => rfl
      | succ n =>
        rw [Seq.edge_wait (by omega)]
        refine ih _ _ _ ?_ he hc hk
        show n + 1 ≤ (q.dly - 1#17).toNat
        bv_omega
  rw [Seq.seen]
  cases n with
  | zero => rfl
  | succ n =>
    rw [Seq.edge_wait (by omega)]
    refine steady _ _ _ _ ?_ hb rfl rfl
    show n + 1 ≤ (q.dly - 1#17).toNat
    bv_omega

/-! ## One cell -/

/-- A rising clock keeps a device that is not busy so, and leaves its view of the lines alone. -/
theorem Device.clockRise_frame {d : Device} (di : Bool) (hb : d.busy = false) :
    (d.clockRise di).busy = false ∧ (d.clockRise di).csPrev = d.csPrev ∧ (d.clockRise di).clkPrev = d.clkPrev ∧
      (d.clockRise di).mem = d.mem ∧ (d.clockRise di).devBusy = d.devBusy ∧ (d.clockRise di).mode = d.mode := by
  have e : d.clockRise di = match d.phase with
      | .cmdIn => d.clockCmdIn di
      | .readOut => d.clockReadOut
      | .wData => d.clockWData di
      | .waitCs => d
      | .ignore => d
      | .idle => d := by
    unfold Device.clockRise
    rw [if_neg (by simp [hb])] <;> cases d.phase <;> rfl
  rw [e]
  cases d.phase with
  | cmdIn =>
    show (d.clockCmdIn di).busy = false ∧ (d.clockCmdIn di).csPrev = _ ∧ (d.clockCmdIn di).clkPrev = _ ∧
      (d.clockCmdIn di).mem = _ ∧ (d.clockCmdIn di).devBusy = _ ∧ (d.clockCmdIn di).mode = _
    unfold Device.clockCmdIn Device.decode Device.shiftFrame
    dsimp only
    split_ifs <;> exact ⟨hb, rfl, rfl, rfl, rfl, rfl⟩
  | readOut =>
    show d.clockReadOut.busy = false ∧ d.clockReadOut.csPrev = _ ∧ d.clockReadOut.clkPrev = _ ∧
      d.clockReadOut.mem = _ ∧ d.clockReadOut.devBusy = _ ∧ d.clockReadOut.mode = _
    unfold Device.clockReadOut
    split_ifs <;> exact ⟨hb, rfl, rfl, rfl, rfl, rfl⟩
  | wData => exact ⟨hb, rfl, rfl, rfl, rfl, rfl⟩
  | waitCs => exact ⟨hb, rfl, rfl, rfl, rfl, rfl⟩
  | ignore => exact ⟨hb, rfl, rfl, rfl, rfl, rfl⟩
  | idle => exact ⟨hb, rfl, rfl, rfl, rfl, rfl⟩

/-- Over a pulse with CS held, a device that is not busy takes one rising clock. -/
theorem Device.observe_pulse {d : Device} (di : Bool) (hb : d.busy = false) (hc : d.csPrev = true)
    (hk : d.clkPrev = false) :
    d.observe true true di = { d.clockRise di with csPrev := true, clkPrev := true } ∧
      (d.observe true true di).observe true false di = d.clockRise di := by
  obtain ⟨f1, f2, f3, -⟩ := Device.clockRise_frame di hb
  have hcd : d.countDown = d := by simp [Device.countDown, hb]
  have he : d.csEvents true = d := by simp [Device.csEvents, hc]
  have h1 : d.observe true true di = { d.clockRise di with csPrev := true, clkPrev := true } := by
    unfold Device.observe
    rw [hcd, he]
    simp [Device.clkEvents, hk]
  refine ⟨h1, ?_⟩
  rw [h1]
  have hx : ({ d.clockRise di with csPrev := true, clkPrev := true } : Device).observe true false di
      = { d.clockRise di with csPrev := true, clkPrev := false } := by
    simp [Device.observe, Device.countDown, Device.csEvents, Device.clkEvents, f1]
  rw [hx, ← f2.trans hc, ← f3.trans hk]

/-- A stretch of cycles whose end is known splits the view. -/
theorem Seq.seen_runs {p : Params} {b : Nat → Bool} {c m n : Nat} {q q' : Seq} {es : List LineEvent} (d : Device)
    (h : Seq.Runs p b c m q es q') :
    Seq.seen p b c (m + n) q d = Seq.seen p b (c + m) n q' (Seq.seen p b c m q d) := by
  rw [Seq.seen_add, h.2.2]

/-- A device that is not busy takes the bit of a SEND cell. -/
theorem Seq.seen_sendCell {p : Params} {b : Nat → Bool} {i : Nat} {q : Seq} {src : FrameSrc} {d : Device} (c : Nat)
    (hb : q.busy = true) (hw : q.work.Legal) (ho : q.currentOp = some (.send src)) (hcs : q.csQ = true)
    (hc : q.clkQ = false) (hd : d.busy = false) (h1 : d.csPrev = true) (h2 : d.clkPrev = false) :
    Seq.seen p b c (cellCycles q.work.su.toNat q.work.th.toNat) (q.startSendCell i) d
      = d.clockRise (q.shVal.getLsbD i) := by
  have hth : q.work.th.toNat < 2 ^ 16 := q.work.th.isLt
  have hsu : q.work.su.toNat < 2 ^ 8 := q.work.su.isLt
  have hw1 := hw.1
  have hw2 := hw.2.1
  obtain ⟨S, hS⟩ : ∃ S, q.work.su.toNat = S + 1 := ⟨q.work.su.toNat - 1, by omega⟩
  obtain ⟨H, hH⟩ : ∃ H, q.work.th.toNat = H + 1 := ⟨q.work.th.toNat - 1, by omega⟩
  obtain ⟨p1, p2⟩ := Device.observe_pulse (q.shVal.getLsbD i) hd h1 h2
  obtain ⟨f1, -⟩ := Device.clockRise_frame (q.shVal.getLsbD i) hd
  have l1 : (q.startSendCell i).csQ = true ∧ (q.startSendCell i).clkQ = false := ⟨hcs, hc⟩
  have l2 : (q.sendCellHigh i).csQ = true ∧ (q.sendCellHigh i).clkQ = true ∧
      (q.sendCellHigh i).diQ = q.shVal.getLsbD i := ⟨hcs, rfl, rfl⟩
  have l3 : (q.sendCellLow i).csQ = true ∧ (q.sendCellLow i).clkQ = false ∧
      (q.sendCellLow i).diQ = q.shVal.getLsbD i := ⟨hcs, rfl, rfl⟩
  have s1 : ∀ c, Seq.seen p b c (S + 1) (q.startSendCell i) d = d := fun c => by
    have hst := Device.observe_steady (q.startSendCell i).diQ hd h1 h2
    have hdl : (q.startSendCell i).dly.toNat = S + 1 := by
      rw [← hS]; exact Seq.wait_toNat _ _ _ (by show q.work.su.toNat < _; omega)
    rw [Seq.seen_wait S c hdl (by rw [l1.1, l1.2, hst]; exact hd), l1.1, l1.2, hst]
  have s2 : ∀ c, Seq.seen p b c (H + 1) (q.sendCellHigh i) d = d.observe true true (q.shVal.getLsbD i) := fun c => by
    have hdl : (q.sendCellHigh i).dly.toNat = H + 1 := by
      rw [← hH]; exact Seq.wait_toNat _ _ _ (by show q.work.th.toNat < _; omega)
    rw [Seq.seen_wait H c hdl (by rw [l2.1, l2.2.1, l2.2.2, p1]; exact f1), l2.1, l2.2.1, l2.2.2]
  have s3 : ∀ c, Seq.seen p b c (H + 1) (q.sendCellLow i) (d.observe true true (q.shVal.getLsbD i))
      = d.clockRise (q.shVal.getLsbD i) := fun c => by
    have hdl : (q.sendCellLow i).dly.toNat = H + 1 := by
      rw [← hH]; exact Seq.wait_toNat _ _ _ (by show q.work.th.toNat < _; omega)
    rw [Seq.seen_wait H c hdl (by rw [l3.1, l3.2.1, l3.2.2, p2]; exact f1), l3.1, l3.2.1, l3.2.2, p2]
  rw [show cellCycles q.work.su.toNat q.work.th.toNat = q.work.su.toNat + (q.work.th.toNat + q.work.th.toNat) by
      unfold cellCycles; omega,
    Seq.seen_runs d (Seq.runs_sendSetup hb hw ho), Seq.seen_runs _ (Seq.runs_sendHigh hb hw ho), hS, hH, s1, s2, s3]

/-- A device that is not busy takes the bits of a SEND from bit `i` down. -/
theorem Seq.seen_sendCells {p : Params} {b : Nat → Bool} {i : Nat} {q : Seq} {src : FrameSrc} {d : Device} (c : Nat)
    (hb : q.busy = true) (hw : q.work.Legal) (ho : q.currentOp = some (.send src)) (hcs : q.csQ = true)
    (hc : q.clkQ = false) (hi : i < 16) (hd : d.busy = false) (h1 : d.csPrev = true) (h2 : d.clkPrev = false) :
    Seq.seen p b c (sendCycles q.work.su.toNat q.work.th.toNat (i + 1)) (q.startSendCell i) d
      = d.clockBits ((List.range (i + 1)).map fun j => q.shVal.getLsbD (i - j)) := by
  induction i generalizing c d with
  | zero =>
    have := Seq.seen_sendCell (p := p) (b := b) (i := 0) c hb hw ho hcs hc hd h1 h2
    simpa [sendCycles, Device.clockBits] using this
  | succ i ih =>
    have hn : sendCycles q.work.su.toNat q.work.th.toNat (i + 1 + 1)
        = cellCycles q.work.su.toNat q.work.th.toNat + sendCycles q.work.su.toNat q.work.th.toNat (i + 1) := by
      unfold sendCycles; ring
    have hr := Seq.runs_sendCell (p := p) (b := b) (c := c) (i := i + 1) hb hw ho hc hi
    rw [if_neg (by omega), if_neg (by omega), Nat.add_sub_cancel] at hr
    obtain ⟨f1, f2, f3, -⟩ := Device.clockRise_frame (q.shVal.getLsbD (i + 1)) hd
    rw [hn, Seq.seen_runs d hr, Seq.seen_sendCell (src := src) c hb hw ho hcs hc hd h1 h2,
      ih _ (by omega) f1 (f2.trans h1) (f3.trans h2), List.range_succ_eq_map (n := i + 1)]
    simp [Device.clockBits, Function.comp_def]

end Sys2Proof.Machine
end

