-- ==== Sys2Proof/Tests/Slice0.lean ====
section
/-! SUPPORT. Own tests: what the checks refuse, the decoding of words written out from the tables of 30_encoding.md, single
steps with expected values from 95_test_vectors.md, and for every statement with hypotheses a concrete state that meets
them. -/

namespace Sys2Proof.Tests

open Sys2Proof.Machine

/-! ## WellFormed: each check refuses an ill-formed term -/

theorem test_wf_wr_imm : (Pseudo.wr .timing (2 ^ 32)).wellFormed = false := by decide

theorem test_wf_read_addr : (Pseudo.read 256).wellFormed = false := by decide

theorem test_wf_write_addr : (Pseudo.write 256 0).wellFormed = false := by decide

theorem test_wf_write_data : (Pseudo.write 0 256).wellFormed = false := by decide

theorem test_wf_writeb_addr : (Pseudo.writeb 256 0).wellFormed = false := by decide

theorem test_wf_writeb_data : (Pseudo.writeb 0 256).wellFormed = false := by decide

theorem test_wf_setTime_h : (Pseudo.setTime 65536 1 1).wellFormed = false := by decide

theorem test_wf_setTime_s : (Pseudo.setTime 2 256 1).wellFormed = false := by decide

theorem test_wf_setTime_c : (Pseudo.setTime 2 1 256).wellFormed = false := by decide

theorem test_wf_accepts : (Pseudo.setTime 65535 255 255).wellFormed = true ∧ (Pseudo.write 255 255).wellFormed = true := by
  decide

/-! ## Decoding (30_encoding.md R101, R102, R105, R107, R112; opcode table) -/

theorem test_decode_init : decodeTableWord 32 0b00000000000000000000000000000000 = some (.init 0x00#8 0x00#8) := by decide

theorem test_decode_read : decodeTableWord 32 0b00000000000000000000010100000001 = some (.read 0x05#8 0x00#8) := by decide

theorem test_decode_write : decodeTableWord 32 0b00000000101001010000010100000010 = some (.write 0x05#8 0xA5#8) := by decide

theorem test_decode_ewen : decodeTableWord 32 0b00000000000000000000000000000011 = some (.ewen 0x00#8 0x00#8) := by decide

theorem test_decode_ewds : decodeTableWord 32 0b00000000000000000000000000000100 = some (.ewds 0x00#8 0x00#8) := by decide

theorem test_decode_writeb : decodeTableWord 32 0b00000000000000000000000100000101 = some (.writeb 0x01#8 0x00#8) := by decide

theorem test_decode_reserved6 : decodeTableWord 32 0b00000000000000000000000000000110 = some (.reserved6 0x00#8 0x00#8) := by
  decide

/-- Reserved bits [7:3] and [31:24] set: still OP = 7. -/
theorem test_decode_reserved7 : decodeTableWord 32 0b11111111000000000000000011111111 = some (.reserved7 0x00#8 0x00#8) := by
  decide

theorem test_decode_wr : decodeTableWord 36 0b101100000001000000010000000000000010 = some (.wr 3#3 0x01010002#32) := by decide

/-- The data bits of a read are ignored. -/
theorem test_decode_rd : decodeTableWord 36 0b000110000000000000000000000000000001 = some (.rd 1#3) := by decide

theorem test_decode_frameRead : decodeTableWord 9 0b110000101 = some (.frameRead 5#6) := by decide

theorem test_decode_frameWrite : decodeTableWord 9 0b101111111 = some (.frameWrite 63#6) := by decide

theorem test_decode_frameEwen : decodeTableWord 9 0b100110000 = some .frameEwen := by decide

theorem test_decode_frameEwds : decodeTableWord 9 0b100000000 = some .frameEwds := by decide

theorem test_decode_frameData : decodeTableWord 8 0b10100101 = some (.frameData 0xA5#8) := by decide

/-- A frame whose opcode bits an address has turned into 0b111 is none of the four (R106). -/
theorem test_decode_unknownFrame : decodeBytes [0xC0#8, 0x01#8] = .error .unknownFrame := by decide

theorem test_decode_badLength : decodeBytes [] = .error .badLength ∧ decodeBytes [0#8, 0#8, 0#8] = .error .badLength := by
  decide

theorem test_decode_badPadding :
    decodeBytes [0#8, 0x02#8] = .error .badPadding ∧ decodeBytes [0#8, 0#8, 0#8, 0#8, 0x10#8] = .error .badPadding := by
  decide

/-! ## States to start from -/

/-- The machine right after reset with TIMING = 0x01010002 (`SETTIME 2,1,1`) and the given script. -/
def fast (script : List Pins) : State :=
  { State.reset with
    mwm := { Mwm.reset with host := { HostRegs.reset with tHalf := 2#16, tSu := 1#8, tCs := 1#8 } }
    script := script }

/-- The same with a command of the given word running: micro-op `upc` in the given phase, `dly` cycles before its next
action, the lines given. -/
def busyWith (w : Word) (upc : BitVec 4) (ph : Phase) (dly : BitVec 17) (cs clk di : Bool) : State :=
  { fast [] with
    mwm := { (fast []).mwm with
      host := { (fast []).mwm.host with cmd := cmdReadback w }
      seq := { Seq.reset with
        busy := true, work := Work.latch w (fast []).mwm.host, upc := upc, phase := ph, dly := dly
        csQ := cs, clkQ := clk, diQ := di } } }

/-- READ 5 at the last cycle of its CS_ON. -/
def readStarts : State := busyWith 0x00000501#32 0#4 .hold 1#17 true false false

/-- READ 5 at the last cycle of RECV8, `acc` = 0x1E, `do_s2` = 0 (vector V4.3: RDATA will be 0x3C). -/
def readEnds : State :=
  let s := busyWith 0x00000501#32 2#4 .low 1#17 true false true
  { s with mwm := { s.mwm with seq := { s.mwm.seq with acc := 0x1E#8, cell := 7#4 } } }

/-- READ 5 at the last cycle of its CS_OFF. -/
def readCompletes : State :=
  let s := busyWith 0x00000501#32 3#4 .hold 1#17 false false false
  { s with mwm := { s.mwm with seq := { s.mwm.seq with acc := 0x3C#8 } } }

/-- WRITEB 9, 0xA5 at the last cycle of its CS_OFF after a poll that timed out. -/
def writebCompletes : State :=
  let s := busyWith 0x00A50905#32 12#4 .hold 1#17 false false false
  { s with mwm := { s.mwm with seq := { s.mwm.seq with timedOut := true, slotCtr := 3#32 } } }

/-- A poll at the last cycle of a slot, `slot_ctr` slots done. -/
def polls (w : Word) (ctr pmax : Word) (do2 : Bool) : State :=
  let s := busyWith w 8#4 .low 1#17 true false false
  { s with mwm := { s.mwm with
    doS2 := do2
    seq := { s.mwm.seq with slotCtr := ctr, work := { s.mwm.seq.work with pmax := pmax } } } }

/-- A step's outcome as a state, where it is one. -/
def after (o : Host.Outcome State Fault Refusal) : Option Mwm :=
  match o with
  | .next s => some s.mwm
  | .fault _ => none
  | .refused _ => none

/-! ## Single steps (95_test_vectors.md) -/

/-- V8.4: INIT from reset: STATUS[4:0] = 0b00010. -/
theorem test_init : (after (exec (.init 0#8 0#8) State.reset)).map (fun m => m.status) = some 0b00010#32 := by decide

/-- Section 2: CMD readback of READ 5, and R131: CS rises at the accept edge. -/
theorem test_read : (after (exec (.read 5#8 0#8) State.reset)).map (fun m => (m.host.cmd, m.seq.csQ, m.seq.busy))
    = some (0x00000501#32, true, true) := by decide

/-- V7.1: the completion edge of READ 5 with `acc` = 0x3C. -/
theorem test_read_completes : (after (step readCompletes)).map (fun m => (m.host.rdata, m.host.done, m.seq.busy))
    = some (0x3C#8, true, false) := by decide

/-- Section 2: CMD readback of WRITE 5, 0xA5. -/
theorem test_write : (after (exec (.write 5#8 0xA5#8) State.reset)).map (fun m => (m.host.cmd, m.seq.work.data, m.seq.work.addr))
    = some (0x00A50502#32, 0xA5#8, 5#8) := by decide

/-- V4.5: the sample 0 of an unbounded poll starts the next slot. -/
theorem test_write_polls : (after (step (polls 0x00A50502#32 0#32 1#32 false))).map (fun m => (m.seq.slotCtr, m.seq.upc, m.seq.phase))
    = some (1#32, 8#4, .high) := by decide

/-- V9.11: EWDS while EWEN runs is dropped; the EWEN runs on. -/
theorem test_ewen : (after (exec (.ewds 0#8 0#8) (busyWith 3#32 0#4 .hold 1#17 true false false))).map
    (fun m => (m.host.dropped, m.host.cmd, m.seq.upc)) = some (true, 3#32, 1#4) := by decide

/-- V4.1: at edge 1 the frame 0x130 starts with DI = 1. -/
theorem test_ewen_frame : (after (step (busyWith 3#32 0#4 .hold 1#17 true false false))).map
    (fun m => (m.seq.shVal, m.seq.diQ, m.seq.bitIdx)) = some (0x130#9, true, 8#4) := by decide

/-- R167: EWDS sends 0x100. -/
theorem test_ewds : (after (step (busyWith 4#32 0#4 .hold 1#17 true false false))).map
    (fun m => (m.seq.shVal, m.seq.diQ)) = some (0x100#9, true) := by decide

/-- V6.1: the third 0 at POLL_MAX = 3 ends the poll with `timed_out`. -/
theorem test_writeb : (after (step (polls 0x00000105#32 2#32 3#32 false))).map (fun m => (m.seq.timedOut, m.seq.upc, m.seq.csQ))
    = some (true, 9#4, false) := by decide

/-- V4.6: success wins over the bound at the same slot. -/
theorem test_writeb_success : (after (step (polls 0x00000105#32 0#32 1#32 true))).map (fun m => (m.seq.timedOut, m.seq.upc))
    = some (false, 9#4) := by decide

/-- R172: OP = 6 sets ILLEGAL and DONE. -/
theorem test_reserved6 : (after (exec (.reserved6 0#8 0#8) State.reset)).map (fun m => (m.status, m.host.cmd))
    = some (0b01010#32, 6#32) := by decide

/-- V8.5: OP = 7 from reset. -/
theorem test_reserved7 : (after (exec (.reserved7 0#8 0#8) State.reset)).map (fun m => (m.status, m.host.cmd, m.seq.csQ))
    = some (0b01010#32, 7#32, false) := by decide

/-- V9.1: TIMING written 0 reads 0x01010002. -/
theorem test_wr : (after (exec (.wr 3#3 0#32) State.reset)).map (fun m => m.regRead 3#3) = some 0x01010002#32 := by decide

/-- V9.13: the set of DONE wins over a clear in the cycle of the completion edge. -/
theorem test_wr_set_wins : (after (exec (.wr 1#3 0x2#32) readCompletes)).map (fun m => m.host.done) = some true := by decide

/-- V10.1: TIMING and POLL_MAX after reset; R61: what RD shows. -/
theorem test_rd : State.reset.rdataOut (.read 3#3) = 0xFFFFFFFF#32 ∧ State.reset.rdataOut (.read 6#3) = 0#32 := by decide

/-- V4.4: STATUS in cycle 2 of an EWEN with `do_s2` = 1 is 0xF01. -/
theorem test_rd_status : { (busyWith 3#32 1#4 .high 2#17 true true true).mwm with doS2 := true }.status = 0xF01#32 := by decide

/-- Section 3: READ 5 sends 0x185; the first bit is 1. -/
theorem test_frameRead : (after (exec (.frameRead 5#6) readStarts)).map (fun m => (m.seq.shVal, m.seq.diQ, m.seq.upc))
    = some (0x185#9, true, 1#4) := by decide

/-- Section 3: WRITE 63 sends 0x17F. -/
theorem test_frameWrite : (after (exec (.frameWrite 63#6) (busyWith 0x00FF3F02#32 3#4 .hold 1#17 true false false))).map
    (fun m => (m.seq.shVal, m.seq.upc)) = some (0x17F#9, 4#4) := by decide

theorem test_frameEwen : (after (exec .frameEwen (busyWith 0x00A50502#32 0#4 .hold 1#17 true false false))).map
    (fun m => (m.seq.shVal, m.seq.upc)) = some (0x130#9, 1#4) := by decide

theorem test_frameEwds : (after (exec .frameEwds (busyWith 0x00A50502#32 10#4 .hold 1#17 true false false))).map
    (fun m => (m.seq.shVal, m.seq.upc)) = some (0x100#9, 11#4) := by decide

/-- V5.1: the data 0xA5 follows the WRITE frame; its first bit is 1, at index 7. -/
theorem test_frameData : (after (exec (.frameData 0xA5#8) (busyWith 0x00A50502#32 4#4 .low 1#17 true false true))).map
    (fun m => (m.seq.shVal, m.seq.bitIdx, m.seq.diQ)) = some (0x0A5#9, 7#4, true) := by decide

/-- V4.3: the last sample 0 makes 0x3C of 0x1E, and CS falls. -/
theorem test_frameData_in : (after (exec (.frameData 0x3C#8) readEnds)).map (fun m => (m.seq.acc, m.seq.csQ, m.seq.upc))
    = some (0x3C#8, false, 3#4) := by decide

/-- A frame that is not due is refused. -/
theorem test_frame_not_due : exec (.frameRead 4#6) readStarts = .refused .frameNotDue := rfl

/-- The word of a row placed by the host runs in the next step. -/
theorem test_withFetchWord :
    (State.reset.withFetchWord 32 0x00000003).fetch = some (.cmd32 3#32) ∧
    (State.reset.withFetchWord 9 0b101000111).fetch = some (.wire9 0b101000111#9) := by decide

/-! ## Every statement with hypotheses has a state that meets them -/

/-- Unfolds the invariant of a concrete state to facts that can be decided. -/
theorem legal_of {s : State} (h1 : s.mwm.host.Legal) (h2 : s.mwm.operandsLatched) (h3 : s.mwm.flagsLegal)
    (h4 : s.mwm.seq.timedOut = true → s.mwm.seq.work.op = 5#3)
    (h5 : s.mwm.seq.busy = false → s.mwm.seq.idleLegal) (h6 : s.mwm.seq.busy = true → s.mwm.seq.runLegal s.params)
    (h7 : s.env.dev.Legal) : s.Legal := ⟨fun _ => ⟨h1, h2, h3, h4, h5, h6⟩, h7⟩

theorem witness_powerUp_legal : (Device.powerUp 10 .cycles []).Legal := by
  unfold Device.Legal; decide

/-- A legal idle state in an ordinary cycle, its script quiet: the hypotheses of the statements about accepted words
(HostReadShowsRegister, HostWriteTakesEffect, CommandStartRule, InitSetsDoneAndIdleLevels, ReservedOpsSetIllegal,
CommandsStartWithCsOn, RdataChangesOnlyWhenReadCompletes) and about whole commands (EnableCommandsTakeExactTime,
EnableCommandsLineEvents, ReadLineEvents, WriteLineEvents, BoundedWriteLineEvents, ReadTakesExactTime, ReadAssemblesDoPin,
BoundedWriteCompletes, WriteCompletesOnlyAtSlotEnds). -/
theorem witness_idle_legal : (fast []).Legal ∧ (fast []).running ∧ (fast []).quiet ∧ (fast []).mwm.seq.busy = false := by
  refine ⟨legal_of ?_ ?_ ?_ ?_ ?_ ?_ witness_powerUp_legal, ⟨rfl, rfl⟩, ⟨rfl, ?_⟩, rfl⟩
  · unfold HostRegs.Legal; decide
  · unfold Mwm.operandsLatched; decide
  · unfold Mwm.flagsLegal; decide
  · decide
  · intro _; unfold Seq.idleLegal; decide
  · intro h; cases h
  · intro q hq; cases hq

/-- A running command: the last cycle of the CS_ON of READ 5. -/
theorem witness_busy_legal : readStarts.Legal ∧ readStarts.running ∧ readStarts.mwm.seq.busy = true := by
  refine ⟨legal_of ?_ ?_ ?_ ?_ ?_ ?_ witness_powerUp_legal, ⟨rfl, rfl⟩, rfl⟩
  · unfold HostRegs.Legal; decide
  · unfold Mwm.operandsLatched; decide
  · unfold Mwm.flagsLegal; decide
  · decide
  · intro h; cases h
  · intro _
    refine ⟨by unfold Work.Legal; decide, by decide, by decide, ?_, by decide, by decide⟩
    exact ⟨rfl, rfl, rfl, rfl⟩

/-- A command at its completion edge, from a legal state (CompletionEdge, with OP = 1; CsChangesOnlyAtCsOps). -/
theorem witness_completion_legal :
    readCompletes.Legal ∧ readCompletes.running ∧ readCompletes.completes = true ∧ readCompletes.mwm.seq.work.op = 1#3 := by
  refine ⟨legal_of ?_ ?_ ?_ ?_ ?_ ?_ witness_powerUp_legal, ⟨rfl, rfl⟩, by decide, by decide⟩
  · unfold HostRegs.Legal; decide
  · unfold Mwm.operandsLatched; decide
  · unfold Mwm.flagsLegal; decide
  · decide
  · intro h; cases h
  · intro _
    refine ⟨by unfold Work.Legal; decide, by decide, by decide, ?_, by decide, by decide⟩
    exact ⟨rfl, rfl, rfl, rfl⟩

/-- CompletionEdge with OP = 5. -/
theorem witness_completion_writeb :
    writebCompletes.running ∧ writebCompletes.completes = true ∧ writebCompletes.mwm.seq.work.op = 5#3 :=
  ⟨⟨rfl, rfl⟩, by decide, by decide⟩

/-- DecodeEncodeRoundTrip, one instruction of each format. -/
theorem witness_wellFormed : (Instr.write 255#8 0#8).wellFormed = true ∧ (Instr.wr 7#3 0xFFFFFFFF#32).wellFormed = true ∧
    (Instr.frameRead 63#6).wellFormed = true ∧ (Instr.frameData 0#8).wellFormed = true := by decide

/-- CmdReservedBitsIgnored: two words that differ in every reserved bit; its last clause in `witness_idle_legal`. -/
theorem witness_reservedBits : (0xFFA505FA#32 : Word) ≠ 0x00A50502#32 ∧ cmdOp 0xFFA505FA#32 = cmdOp 0x00A50502#32 ∧
    cmdAddr 0xFFA505FA#32 = cmdAddr 0x00A50502#32 ∧ cmdData 0xFFA505FA#32 = cmdData 0x00A50502#32 := by decide

/-- PseudoExpansions: `WAITIDLE` with BUSY = 0 and with BUSY = 1. -/
theorem witness_waitIdle :
    (fast [⟨false, .waitIdle⟩]).resetSeen = true ∧ (fast [⟨false, .waitIdle⟩]).script = ⟨false, .waitIdle⟩ :: [] ∧
    (fast [⟨false, .waitIdle⟩]).mwm.status.getLsbD 0 = false ∧
    { readStarts with script := [⟨false, .waitIdle⟩] }.mwm.status.getLsbD 0 = true := by decide

/-- StepRunsDecodedInstruction: a word on the bus, a bus cycle, a frame about to be sent, a byte about to be received. -/
theorem witness_fetch_host :
    (fast [⟨false, .cmd 3#32⟩]).fetch = some (.cmd32 3#32) ∧ decode (.cmd32 3#32) = .instr (.ewen 0#8 0#8) ∧
    (fast [⟨true, .bus 0x100000000#36⟩]).fetch = some (.hostbus 0x100000000#36) ∧
    decode (.hostbus 0x100000000#36) = .instr (.rd 1#3) := by decide

theorem witness_fetch_frames :
    readStarts.req = .idle ∧ readStarts.mwm.seq.sendDue readStarts.params = some (.wire9 0b110000101#9) ∧
    decode (.wire9 0b110000101#9) = .instr (.frameRead 5#6) ∧
    readEnds.req = .idle ∧ readEnds.mwm.seq.recvDue readEnds.mwm.sampleDO = some 0x3C#8 ∧
    decode (.wire8 0x3C#8) = .instr (.frameData 0x3C#8) := by decide

/-- EveryStepIsOneCycle, StepKeepsLegal, EventsMoveLines: a step of a legal state. -/
theorem witness_step : (fast []).Legal ∧ (fast []).resetSeen = true ∧ ∃ t, step (fast []) = .next t :=
  ⟨witness_idle_legal.1, rfl, _, rfl⟩

/-- ResetEdgeWinsOverEverything: `rst` together with an access, while a command runs. -/
theorem witness_rst : isHostInstr (.rd 0#3) = true ∧ { readStarts with script := [⟨true, .idle⟩] }.rst = true ∧
    readStarts.resetSeen = true := by decide

/-- ResetValues, its last clause. -/
theorem witness_reset : State.reset.running ∧ State.reset.mwm = Mwm.reset := ⟨⟨rfl, rfl⟩, rfl⟩

/-- NothingObservedBeforeReset: with `rst` = 0 and with `rst` = 1. ResetEdgeWinsOverEverything: the first reset edge, the
host silent. -/
theorem witness_unreset : { State.reset with resetSeen := false }.rst = false ∧
    { State.reset with resetSeen := false }.req = .idle ∧
    { fast [⟨true, .idle⟩] with resetSeen := false }.rst = true ∧
    { fast [⟨true, .idle⟩] with resetSeen := false }.portAccess = .none := by decide

/-- StatusFlagRules: a word that is accepted, an access without one. -/
theorem witness_accepted : (fast []).acceptedWord (.write 0#3 7#32) = some 7#32 ∧
    (fast []).acceptedWord (.write 1#3 0x1E#32) = none ∧ readStarts.acceptedWord (.write 0#3 7#32) = none := by decide

/-- CmdWriteWhileBusyIsDropped: a CMD32 word and WR to index 0 (the states: `witness_idle_legal`, `witness_busy_legal`, and
the completion edge). -/
theorem witness_writesCmd : writesCmd (.reserved7 0xFF#8 0#8) = some 0x0000FF07#32 ∧
    writesCmd (.wr 0#3 0xFFFFFFFF#32) = some 0xFFFFFFFF#32 := by decide

/-- AddressesStayOutOfOpcode, its first clause at the greatest address. -/
theorem witness_addr : (63#8 : Byte).toNat < 64 := by decide

/-- FramesStartTheirSend: each of the five frames due. -/
theorem witness_framesDue :
    readStarts.mwm.seq.sendDue readStarts.params = some (.wire9 (0b110#3 ++ 5#6)) ∧
    (busyWith 0x00FF3F02#32 3#4 .hold 1#17 true false false).mwm.seq.sendDue Params.default
      = some (.wire9 (0b101#3 ++ 63#6)) ∧
    (busyWith 3#32 0#4 .hold 1#17 true false false).mwm.seq.sendDue Params.default = some (.wire9 0x130#9) ∧
    (busyWith 4#32 0#4 .hold 1#17 true false false).mwm.seq.sendDue Params.default = some (.wire9 0x100#9) ∧
    (busyWith 0x00A50502#32 4#4 .low 1#17 true false true).mwm.seq.sendDue Params.default = some (.wire8 0xA5#8) ∧
    (busyWith 0x00A50502#32 4#4 .low 1#17 true false true).running := ⟨by decide, by decide, by decide, by decide,
      by decide, rfl, rfl⟩

/-- DataFrameReceived. -/
theorem witness_received : readEnds.running ∧ readEnds.mwm.seq.recvDue readEnds.mwm.sampleDO = some 0x3C#8 :=
  ⟨⟨rfl, rfl⟩, by decide⟩

/-- FrameNotDueIsRefused: where READ 5 sends its frame, every other frame, the READ frame of another cell among them; where
RECV8 completes 0x3C, another byte. -/
theorem witness_notDue :
    let due := readStarts.mwm.seq.sendDue readStarts.params
    readStarts.resetSeen = true ∧ due = some (.wire9 (0b110#3 ++ 5#6)) ∧
    due ≠ some (.wire9 (0b110#3 ++ 4#6)) ∧ due ≠ some (.wire9 (0b101#3 ++ 5#6)) ∧ due ≠ some (.wire9 0x130#9) ∧
    due ≠ some (.wire9 0x100#9) ∧ due ≠ some (.wire8 5#8) ∧
    readStarts.mwm.seq.recvDue readStarts.mwm.sampleDO ≠ some 5#8 ∧
    readEnds.resetSeen = true ∧ readEnds.mwm.seq.sendDue readEnds.params ≠ some (.wire8 0x3D#8) ∧
    readEnds.mwm.seq.recvDue readEnds.mwm.sampleDO ≠ some 0x3D#8 := by decide

/-- PollSlotEnds: a success at slot `w_pmax`, a timeout at slot `w_pmax`, one slot before it, and an unbounded poll. -/
theorem witness_poll :
    (polls 0x00000105#32 2#32 3#32 true).running ∧ (polls 0x00000105#32 2#32 3#32 true).mwm.doS2 = true ∧
    (polls 0x00000105#32 2#32 3#32 true).mwm.seq.currentOp = some (.poll true) ∧
    (polls 0x00000105#32 2#32 3#32 false).mwm.seq.currentOp = some (.poll true) ∧
    (polls 0x00000105#32 2#32 3#32 false).mwm.seq.phase = .low ∧
    (polls 0x00000105#32 2#32 3#32 false).mwm.seq.dly.toNat ≤ 1 ∧
    (after (step (polls 0x00000105#32 2#32 3#32 false))).map (fun m => m.seq.slotCtr) = some 3#32 ∧
    (after (step (polls 0x00000105#32 1#32 3#32 false))).map (fun m => m.seq.slotCtr) = some 2#32 ∧
    (polls 0x00A50502#32 0xFFFFFFFF#32 3#32 false).mwm.seq.currentOp = some (.poll false) :=
  ⟨⟨rfl, rfl⟩, by decide, by decide, by decide, by decide, by decide, by decide, by decide, by decide⟩

/-- ReadAssemblesDoPin: the first and the last cell (the state: `witness_idle_legal`). -/
theorem witness_readBits : (fast []).env.asyncDo = false ∧ 0 < 8 ∧ 7 < 8 := by decide

/-- WriteHangsOnStuckDevice. -/
theorem witness_stuck :
    let s := { fast [] with env := { (fast []).env with kind := .stuckBusy } }
    s.Legal ∧ s.quiet ∧ s.mwm.seq.busy = false ∧ s.env.kind = .stuckBusy ∧ s.env.asyncDo = false :=
  ⟨⟨witness_idle_legal.1.1, witness_powerUp_legal⟩, ⟨rfl, fun q hq => by cases hq⟩, rfl, rfl, rfl⟩

/-- HostCannotDisturbRunningCommand: two machines that differ in POLL_MAX and in their scripts. -/
theorem witness_twoHosts :
    let s' := { readStarts with
      script := [⟨false, .cmd 3#32⟩], mwm := { readStarts.mwm with host := { readStarts.mwm.host with pollMax := 1#32 } } }
    s'.running ∧ s' ≠ readStarts ∧ s'.params = readStarts.params ∧ s'.env = readStarts.env ∧
      s'.cycle = readStarts.cycle ∧ s'.mwm.seq = readStarts.mwm.seq ∧ s'.mwm.doS1 = readStarts.mwm.doS1 ∧
      s'.mwm.doS2 = readStarts.mwm.doS2 := ⟨⟨rfl, rfl⟩, by decide, rfl, rfl, rfl, rfl, rfl, rfl⟩

/-- CsChangesOnlyAtCsOps: CS rises at an accept edge, and falls where RECV8 ends. -/
theorem witness_csChanges :
    (after (step (fast [⟨false, .cmd 3#32⟩]))).map (fun m => m.seq.csQ) = some true ∧
    (fast [⟨false, .cmd 3#32⟩]).mwm.seq.csQ = false ∧
    (after (step readEnds)).map (fun m => m.seq.csQ) = some false ∧ readEnds.mwm.seq.csQ = true := by decide

/-- The state before that fall is legal. -/
theorem witness_csFall_legal : readEnds.Legal ∧ readEnds.running := by
  refine ⟨legal_of ?_ ?_ ?_ ?_ ?_ ?_ witness_powerUp_legal, ⟨rfl, rfl⟩⟩
  · unfold HostRegs.Legal; decide
  · unfold Mwm.operandsLatched; decide
  · unfold Mwm.flagsLegal; decide
  · decide
  · intro h; cases h
  · intro _
    refine ⟨by unfold Work.Legal; decide, by decide, by decide, ?_, by decide, by decide⟩
    exact ⟨⟨rfl, .inr (.inr rfl), rfl⟩, by decide⟩

/-- DoSampledThreeCyclesLate: two steps with `rst` low. MetastableSampleIsOldOrNew: with DO asynchronous. -/
theorem witness_twoSteps : ∃ t u, step (fast []) = .next t ∧ t.rst = false ∧ step t = .next u :=
  ⟨_, _, rfl, rfl, rfl⟩

theorem witness_asyncDo :
    let s := { fast [] with env := { (fast []).env with asyncDo := true, doPrev := true } }
    s.running ∧ s.env.asyncDo = true ∧ ∃ t, step s = .next t := ⟨⟨rfl, rfl⟩, rfl, _, rfl⟩

/-- PinLevels: both polarities. -/
theorem witness_polarity : Params.default.csActiveHigh = true ∧ { Params.default with csActiveHigh := false }.csActiveHigh = false := by
  decide

/-- The device at power-up, a byte pending, `rem` cycles or pulses left. -/
def pending (mode : BusyMode) (rem : Nat) : Device :=
  { Device.powerUp 10 mode [] with busy := true, busyRem := rem, pendA := 63#6, pendD := 0xA5#8 }

/-- DeviceBusyCountsCycles and DeviceBusyCountsPulses, at one cycle or pulse left and at many. -/
theorem witness_pending : (pending .cycles 1).Legal ∧ (pending .pulses 10).Legal ∧ (pending .cycles 1).busy = true ∧
    (pending .cycles 1).mode = .cycles ∧ (pending .pulses 10).mode = .pulses ∧ (pending .cycles 1).csPrev = false ∧
    (List.replicate 9 true).length < (pending .pulses 10).busyRem ∧
    (List.replicate 10 true).length = (pending .pulses 10).busyRem :=
  ⟨by unfold Device.Legal; decide, by unfold Device.Legal; decide, rfl, rfl, rfl, rfl, by decide, rfl⟩

/-- DeviceDrivesDo: each clause. -/
theorem witness_driven :
    let d := Device.powerUp 0 .cycles []
    (fast []).env.kind = .reference ∧ readStarts.env.kind = .reference ∧
    (fast []).env.nextConduct (fast []).mwm = .sound ∧ readStarts.env.nextConduct readStarts.mwm = .sound ∧
    (pending .cycles 1).busy = true ∧ d.busy = false ∧ ({ d with phase := .cmdIn }.phase = .cmdIn ∧ d.n = 0) ∧
    ({ d with phase := .readOut }.phase = .readOut ∧ d.k = 0) ∧ 1 ≤ { d with phase := .readOut, k := 8 }.k ∧
    (¬({ d with phase := .cmdIn, n := 1 }.phase = .cmdIn ∧ { d with phase := .cmdIn, n := 1 }.n = 0)) := by decide

/-- DeviceWriteEnable; DeviceReturnsWrittenByte, with DI changing over the first and over all eight read pulses. -/
theorem witness_device : (Device.powerUp 0 .cycles []).busy = false ∧ (Device.powerUp 0 .cycles []).wen = false ∧
    { Device.powerUp 0 .cycles [] with wen := true }.Legal ∧ (Device.powerUp 0 .cycles []).devBusy = 0 ∧
    [true].length = 0 + 1 ∧ [true, false, false, true, true, false, true, false].length = 7 + 1 :=
  ⟨rfl, rfl, by unfold Device.Legal; decide, rfl, rfl, rfl⟩

/-- UndrivenEnvironmentsKeepCells: two steps of a machine without a device. -/
theorem witness_absent : { fast [] with env := { (fast []).env with kind := .absent } }.env.kind = .absent ∧
    { fast [] with env := { (fast []).env with kind := .absent } }.env.kind ≠ .reference ∧
    ∃ t, Host.Core.run Sys2Proof.core 2 { fast [] with env := { (fast []).env with kind := .absent } } = .next t :=
  ⟨rfl, by decide, _, rfl⟩

/-- EnableCommandsReachDevice, WriteThenReadReturnsByte and WriteSlotsOnReferenceDevice: minima of 0, and the greatest that
T_HALF = 2 exceeds. -/
theorem witness_follows : (fast []).deviceFollows ∧
    { fast [] with env := { (fast []).env with minima := ⟨1, 0, 0⟩ } }.deviceFollows := by
  unfold State.deviceFollows; decide

/-- EnableCommandsReachDevice and WriteThenReadReturnsByte (with `witness_idle_legal`, `witness_follows`). -/
theorem witness_roundTrip : (fast []).script = [] ∧ (fast []).env.asyncDo = false ∧
    (fast []).params.readHdr = 0x180#16 ∧ (fast []).params.writeHdr = 0x140#16 ∧
    (fast []).params.ewenFrame = 0x130#16 ∧ (fast []).params.ewdsFrame = 0x100#16 ∧ (fast []).env.dev.mode = .cycles ∧
    (fast []).env.dev.busy = false ∧ (fast []).env.dev.csPrev = false := by decide

/-- CommandStartRule: a word of each group of OPs, accepted or dropped (the states: `witness_idle_legal`,
`witness_busy_legal`). -/
theorem witness_ops : cmdOp 0x00A50500#32 = 0#3 ∧ 1 ≤ (cmdOp 0x00000001#32).toNat ∧ (cmdOp 0x00000005#32).toNat ≤ 5 ∧
    cmdOp 0xFFFFFFFE#32 = 6#3 ∧ cmdOp 0xFFFFFFFF#32 = 7#3 := by decide

/-- WriteSlotsOnReferenceDevice: each mode, with and without pulses (the machine: `witness_idle_legal`, `witness_roundTrip`,
`witness_follows`; T_CS and T_HALF of `fast` make 3 slots of DEV_BUSY = 10). -/
theorem witness_slots :
    let pulses := { fast [] with env := { (fast []).env with dev := { (fast []).env.dev with mode := .pulses } } }
    let clocked := { pulses with mwm := { pulses.mwm with host := { pulses.mwm.host with pollClk := true } } }
    (fast []).env.dev.mode = .cycles ∧ pulses.env.dev.mode = .pulses ∧ pulses.mwm.host.pollClk = false ∧
    1 ≤ pulses.env.dev.devBusy ∧ clocked.env.dev.mode = .pulses ∧ clocked.mwm.host.pollClk = true := by decide

/-- A machine whose device has these minima. -/
def withMinima (x : Minima) (s : State) : State := { s with env := { s.env with minima := x } }

/-- R241: T_HALF = 2 does not exceed a minimum of 2. A READ leaves what the device drives open, a WRITE its cells too, and an
idle machine nothing. -/
theorem test_tooFast_conduct :
    let conduct := fun s : State => match step s with
      | .next t => some t.env.conduct
      | .fault _ => none
      | .refused _ => none
    conduct (withMinima ⟨2, 0, 0⟩ readStarts) = some .readsOpen ∧ conduct (withMinima ⟨1, 0, 0⟩ readStarts) = some .sound ∧
    conduct (withMinima ⟨2, 0, 0⟩ (busyWith 0x00A50502#32 0#4 .hold 1#17 true false false)) = some .cellsOpen ∧
    conduct (withMinima ⟨2, 0, 0⟩ (fast [])) = some .sound := by decide

/-- TooFastTimingOpensDevice: a READ and a WRITE with timing that is too fast, and a device whose cells are open already. -/
theorem witness_tooFast :
    let opened := { fast [] with env := { (fast []).env with conduct := .cellsOpen } }
    let writes := busyWith 0x00A50502#32 0#4 .hold 1#17 true false false
    readStarts.resetSeen = true ∧ readStarts.env.kind = .reference ∧ readStarts.mwm.seq.busy = true ∧
    readStarts.mwm.seq.work.exceeds ⟨2, 0, 0⟩ = false ∧ opened.resetSeen = true ∧ opened.env.conduct ≠ .sound ∧
    opened.env.conduct = .cellsOpen ∧ opened.env.dev.Legal ∧ writes.resetSeen = true ∧ writes.mwm.seq.busy = true ∧
    writes.mwm.seq.work.op = 2#3 ∧ writes.mwm.seq.work.exceeds ⟨0, 1, 0⟩ = false ∧ writes.env.dev.Legal :=
  ⟨rfl, rfl, rfl, by decide, rfl, by decide, rfl, witness_powerUp_legal, rfl, rfl, by decide, by decide,
    witness_powerUp_legal⟩

end Sys2Proof.Tests
end

section
/-! The MWM's state (10_state.md): the flags of STATUS, RDATA, the synchronizer and the pins. First what one host access
and one cycle leave in the registers, for every access; then the statements. -/

namespace Sys2Proof.Machine

/-! ## Command start -/

theorem Mwm.startCommand_host (p : Params) (m : Mwm) : (m.startCommand p).host = m.host := by
  unfold Mwm.startCommand
  split <;> rfl

/-- INIT (R173). -/
theorem Mwm.accept_init (p : Params) {v : Word} (h : cmdOp v = 0#3) (m : Mwm) :
    m.accept p v = (m.latch v).initCommand := by
  rw [Mwm.accept, h]; rfl

/-- The reserved OPs (R172). -/
theorem Mwm.accept_reserved (p : Params) {v : Word} (h : cmdOp v = 6#3 ∨ cmdOp v = 7#3) (m : Mwm) :
    m.accept p v = (m.latch v).reservedCommand := by
  rcases h with h | h <;> rw [Mwm.accept, h] <;> rfl

/-- The commands with a micro-program (R160). -/
theorem Mwm.accept_program (p : Params) {v : Word} (h0 : cmdOp v ≠ 0#3) (h67 : ¬(cmdOp v = 6#3 ∨ cmdOp v = 7#3))
    (m : Mwm) : m.accept p v = (m.latch v).startCommand p := by
  unfold Mwm.accept
  split
  · exact absurd (BitVec.eq_of_toNat_eq ‹_›) h0
  · exact absurd (.inl (BitVec.eq_of_toNat_eq ‹_›)) h67
  · exact absurd (.inr (BitVec.eq_of_toNat_eq ‹_›)) h67
  · rfl

/-- An accepted word loads CMD, clears the flags of the last command and sets those of a command that ends at once
(R160, R172, R173). -/
theorem Mwm.accept_host (p : Params) (v : Word) (m : Mwm) :
    (m.accept p v).host = { m.host with
      cmd := cmdReadback v
      done := decide (cmdOp v = 0#3 ∨ cmdOp v = 6#3 ∨ cmdOp v = 7#3)
      timeout := false
      illegal := decide (cmdOp v = 6#3 ∨ cmdOp v = 7#3) } := by
  by_cases h0 : cmdOp v = 0#3
  · rw [Mwm.accept_init p h0, h0]; rfl
  by_cases h67 : cmdOp v = 6#3 ∨ cmdOp v = 7#3
  · rw [Mwm.accept_reserved p h67, decide_eq_true h67, decide_eq_true (.inr h67)]; rfl
  · rw [Mwm.accept_program p h0 h67, Mwm.startCommand_host, decide_eq_false h67,
      decide_eq_false (not_or.mpr ⟨h0, h67⟩)]; rfl

theorem Mwm.startCommand_withDoS1 (p : Params) (m : Mwm) (d : Bool) :
    { m with doS1 := d }.startCommand p = { m.startCommand p with doS1 := d } := by
  unfold Mwm.startCommand
  dsimp only
  split <;> rfl

/-- The first stage of the synchronizer takes no part in a command start. -/
theorem Mwm.accept_withDoS1 (p : Params) (v : Word) (m : Mwm) (d : Bool) :
    { m with doS1 := d }.accept p v = { m.accept p v with doS1 := d } := by
  by_cases h0 : cmdOp v = 0#3
  · rw [Mwm.accept_init p h0, Mwm.accept_init p h0]; rfl
  by_cases h67 : cmdOp v = 6#3 ∨ cmdOp v = 7#3
  · rw [Mwm.accept_reserved p h67, Mwm.accept_reserved p h67]; rfl
  · rw [Mwm.accept_program p h0 h67, Mwm.accept_program p h0 h67]
    exact Mwm.startCommand_withDoS1 p (m.latch v) d

/-! ## The host's access -/

/-- An access whose word is accepted is a write of CMD while idle (R160). -/
theorem State.acceptedWord_eq_some {s : State} {acc : Access} {v : Word} :
    s.acceptedWord acc = some v ↔ acc = .write 0#3 v ∧ s.mwm.seq.busy = false := by
  cases acc with
  | none => simp [State.acceptedWord]
  | read idx => simp [State.acceptedWord]
  | write idx w => simp [State.acceptedWord]; tauto

/-- An idle MWM accepts a CMD write (R160). -/
theorem Mwm.hostEdge_cmd_idle {p : Params} {m : Mwm} (h : m.seq.busy = false) (v : Word) :
    m.hostEdge p (.write 0#3 v) = m.accept p v := by
  simp [Mwm.hostEdge, Mwm.regWrite, Mwm.writeCmd, h]

/-- A busy MWM drops a CMD write and records it (R205). -/
theorem Mwm.hostEdge_cmd_busy {p : Params} {m : Mwm} (h : m.seq.busy = true) (v : Word) :
    m.hostEdge p (.write 0#3 v) = { m with host := m.host.raise .dropped } := by
  simp [Mwm.hostEdge, Mwm.regWrite, Mwm.writeCmd, h]

/-- A write of any other register reaches the host-visible registers only (R62). -/
theorem Mwm.hostEdge_reg {p : Params} {m : Mwm} {idx : RegIdx} (h : idx ≠ 0#3) (v : Word) :
    m.hostEdge p (.write idx v) = { m with host := m.host.write idx v } := by
  simp [Mwm.hostEdge, Mwm.regWrite, h]

/-- Bit `n` of a word written to register `idx` clears its STATUS flag exactly when `idx` is STATUS (R62). -/
theorem clearsFlag_write (idx : RegIdx) (v : Word) (n : Nat) :
    clearsFlag (.write idx v) n = (decide (idx = 1#3) && v.getLsbD n) := rfl

/-- What a register write does to the four flags and to RDATA (R31, R62): only STATUS clears flags. -/
theorem HostRegs.write_flags (idx : RegIdx) (v : Word) (h : HostRegs) :
    (h.write idx v).done = (h.done && !clearsFlag (.write idx v) 1) ∧
    (h.write idx v).timeout = (h.timeout && !clearsFlag (.write idx v) 2) ∧
    (h.write idx v).illegal = (h.illegal && !clearsFlag (.write idx v) 3) ∧
    (h.write idx v).dropped = (h.dropped && !clearsFlag (.write idx v) 4) ∧
    (h.write idx v).rdata = h.rdata := by
  rcases bits3_cases idx with hi | hi | hi | hi | hi | hi | hi | hi <;> subst hi <;>
    simp [HostRegs.write, clearsFlag_write]

/-- No host access changes RDATA (R31). -/
theorem Mwm.hostEdge_rdata (p : Params) (m : Mwm) (acc : Access) : (m.hostEdge p acc).host.rdata = m.host.rdata := by
  cases acc with
  | none => rfl
  | read idx => rfl
  | write idx v =>
    by_cases hi : idx = 0#3
    · subst hi
      cases hb : m.seq.busy
      · rw [Mwm.hostEdge_cmd_idle hb, Mwm.accept_host]
      · rw [Mwm.hostEdge_cmd_busy hb, HostRegs.raise_dropped_rdata]
    · obtain ⟨-, -, -, -, hr⟩ := HostRegs.write_flags idx v m.host
      rw [Mwm.hostEdge_reg hi, hr]

/-- An access without an accepted word: it clears the flags it names, and sets DROPPED where it is a dropped CMD write
(R25 to R28, R62, R205). -/
theorem State.hostEdge_flags_of_not_accepted {s : State} {acc : Access} (h : s.acceptedWord acc = none) :
    (s.mwm.hostEdge s.params acc).host.done = (s.mwm.host.done && !clearsFlag acc 1) ∧
    (s.mwm.hostEdge s.params acc).host.timeout = (s.mwm.host.timeout && !clearsFlag acc 2) ∧
    (s.mwm.hostEdge s.params acc).host.illegal = (s.mwm.host.illegal && !clearsFlag acc 3) ∧
    ((s.mwm.hostEdge s.params acc).host.dropped = true ↔ (∃ v, acc = .write 0#3 v ∧ s.mwm.seq.busy = true) ∨
      (s.mwm.host.dropped = true ∧ clearsFlag acc 4 = false)) := by
  cases acc with
  | none => simp [Mwm.hostEdge, clearsFlag]
  | read idx => simp [Mwm.hostEdge, clearsFlag]
  | write idx v =>
    by_cases hi : idx = 0#3
    · subst hi
      have hb : s.mwm.seq.busy = true := by simpa [State.acceptedWord] using h
      rw [Mwm.hostEdge_cmd_busy hb]
      simp [clearsFlag_write, hb]
    · obtain ⟨hd, ht, hl, hp, -⟩ := HostRegs.write_flags idx v s.mwm.host
      rw [Mwm.hostEdge_reg hi]
      simp [hd, ht, hl, hp, hi]

/-- The first stage of the synchronizer takes no part in a host access. -/
theorem Mwm.hostEdge_withDoS1 (p : Params) (m : Mwm) (acc : Access) (d : Bool) :
    { m with doS1 := d }.hostEdge p acc = { m.hostEdge p acc with doS1 := d } := by
  cases acc with
  | none => rfl
  | read idx => rfl
  | write idx v =>
    by_cases hi : idx = 0#3
    · subst hi
      cases hb : m.seq.busy
      · rw [Mwm.hostEdge_cmd_idle hb, Mwm.hostEdge_cmd_idle (m := { m with doS1 := d }) hb, Mwm.accept_withDoS1]
      · rw [Mwm.hostEdge_cmd_busy hb, Mwm.hostEdge_cmd_busy (m := { m with doS1 := d }) hb]
    · rw [Mwm.hostEdge_reg hi, Mwm.hostEdge_reg hi]

/-! ## The registers after an ordinary cycle -/

/-- The host-visible registers: the access first, then the flags and RDATA of a completion (R171, R206). -/
theorem State.clkCycle_host {s : State} (h : s.rst = false) (acc : Access) :
    (s.clkCycle acc).mwm.host =
      if s.completes then (s.mwm.hostEdge s.params acc).host.complete s.mwm.seq
      else (s.mwm.hostEdge s.params acc).host := by
  rw [State.clkCycle_mwm]
  cases hb : s.mwm.seq.busy
  · simp [State.mwmEdge_idle h hb, State.completes, hb, State.synced]
  · rw [State.mwmEdge_busy h hb]
    cases hn : (s.mwm.seq.edge s.params s.mwm.doS2).busy <;>
      simp [State.completes, State.seqNext, hb, hn, State.synced]

/-- The sequencer: a running command goes on whatever the host does, an idle one takes what the access starts (R211). -/
theorem State.clkCycle_seq {s : State} (h : s.rst = false) (acc : Access) :
    (s.clkCycle acc).mwm.seq =
      if s.mwm.seq.busy then s.seqNext else (s.mwm.hostEdge s.params acc).seq := by
  rw [State.clkCycle_mwm]
  cases hb : s.mwm.seq.busy
  · simp [State.mwmEdge_idle h hb, State.synced]
  · simp [State.mwmEdge_busy h hb, State.synced, State.seqNext, hb]

/-- The synchronizer shifts (R38). -/
theorem State.clkCycle_sync {s : State} (h : s.rst = false) (acc : Access) :
    (s.clkCycle acc).mwm.doS1 = s.doIn ∧ (s.clkCycle acc).mwm.doS2 = s.mwm.doS1 := by
  simp [State.mwmEdge, h]

/-- With DO synchronous to `clk`, the level taken in is the pin (R38). -/
theorem State.doIn_of_synchronous {s : State} (h : s.env.asyncDo = false) : s.doIn = s.doPin := by
  simp [State.doIn, Env.resolve, h]

/-- An idle MWM has no command to complete. -/
theorem State.completes_of_idle {s : State} (h : s.mwm.seq.busy = false) : s.completes = false := by
  simp [State.completes, h]

/-- The flags after an accept edge: nothing completes there, so they are those of the accepted word. -/
theorem State.clkCycle_flags_of_accepted {s : State} {acc : Access} {v : Word} (hrst : s.rst = false)
    (h : s.acceptedWord acc = some v) :
    (s.clkCycle acc).mwm.host.done = decide (cmdOp v = 0#3 ∨ cmdOp v = 6#3 ∨ cmdOp v = 7#3) ∧
    (s.clkCycle acc).mwm.host.timeout = false ∧
    (s.clkCycle acc).mwm.host.illegal = decide (cmdOp v = 6#3 ∨ cmdOp v = 7#3) ∧
    (s.clkCycle acc).mwm.host.dropped = s.mwm.host.dropped := by
  obtain ⟨rfl, hb⟩ := State.acceptedWord_eq_some.mp h
  rw [State.clkCycle_host hrst, State.completes_of_idle hb, Mwm.hostEdge_cmd_idle hb, Mwm.accept_host]
  exact ⟨rfl, rfl, rfl, rfl⟩

/-- The flags after any other edge: the access clears, a completion sets after it (R206). -/
theorem State.clkCycle_flags_of_not_accepted {s : State} {acc : Access} (hrst : s.rst = false)
    (h : s.acceptedWord acc = none) :
    (s.clkCycle acc).mwm.host.done = (s.completes || (s.mwm.host.done && !clearsFlag acc 1)) ∧
    (s.clkCycle acc).mwm.host.timeout =
      (if s.completes && decide (s.mwm.seq.work.op = 5#3) then s.mwm.seq.timedOut
        else s.mwm.host.timeout && !clearsFlag acc 2) ∧
    (s.clkCycle acc).mwm.host.illegal = (s.mwm.host.illegal && !clearsFlag acc 3) ∧
    ((s.clkCycle acc).mwm.host.dropped = true ↔ (∃ v, acc = .write 0#3 v ∧ s.mwm.seq.busy = true) ∨
      (s.mwm.host.dropped = true ∧ clearsFlag acc 4 = false)) := by
  obtain ⟨hdone, htimeout, hillegal, hdropped⟩ := State.hostEdge_flags_of_not_accepted h
  rw [State.clkCycle_host hrst]
  cases hc : s.completes
  · exact ⟨by simpa using hdone, by simpa using htimeout, hillegal, hdropped⟩
  · refine ⟨by simp, ?_, hillegal, hdropped⟩
    simp [htimeout]

/-- Two machines whose MWMs differ in `do_s1` only, whatever their environments are, have the same host-visible
registers and sequencer after an ordinary cycle with the same access. -/
theorem State.hostCycle_independent_of_doS1 {s u : State} {d : Bool} (hs : s.running) (hu : u.running)
    (hp : u.params = s.params) (hm : u.mwm = { s.mwm with doS1 := d }) (acc : Access) :
    ∃ t v, s.hostCycle acc = .next t ∧ u.hostCycle acc = .next v ∧ t.mwm.host = v.mwm.host ∧ t.mwm.seq = v.mwm.seq := by
  obtain ⟨hsseen, hsrst⟩ := hs
  obtain ⟨huseen, hurst⟩ := hu
  have hedge : u.mwm.hostEdge u.params acc = { s.mwm.hostEdge s.params acc with doS1 := d } := by
    rw [hp, hm, Mwm.hostEdge_withDoS1]
  have hnext : u.seqNext = s.seqNext := by rw [State.seqNext, State.seqNext, hp, hm]
  have hcomp : u.completes = s.completes := by rw [State.completes, State.completes, hnext, hm]
  refine ⟨_, _, State.hostCycle_after hsseen acc, State.hostCycle_after huseen acc, ?_, ?_⟩
  · rw [State.clkCycle_host hsrst, State.clkCycle_host hurst, hedge, hcomp, hm]
  · rw [State.clkCycle_seq hsrst, State.clkCycle_seq hurst, hedge, hnext, hm]

/-! ## A step is a cycle -/

/-- In an ordinary cycle, only what the sequencer's action makes of this very sequencer counts. -/
theorem State.cycleWith_eq_clkCycle {s : State} {act : Bool → Seq → Seq} (acc : Access)
    (h : s.rst = false → s.mwm.seq.busy = true → act s.mwm.doS2 s.mwm.seq = s.mwm.seq.edge s.params s.mwm.doS2) :
    s.cycleWith acc act = s.clkCycle acc := by
  have hm : s.mwmEdge acc act = s.mwmEdge acc (Seq.edge s.params) := by
    cases hr : s.rst
    · cases hb : s.mwm.seq.busy
      · rw [State.mwmEdge_idle hr hb, State.mwmEdge_idle hr hb]
      · rw [State.mwmEdge_busy hr hb, State.mwmEdge_busy hr hb, h hr hb]
    · rw [State.mwmEdge_rst hr, State.mwmEdge_rst hr]
  simp only [State.clkCycle, State.cycleWith, hm]

/-- The cycle that starts the due frame is the cycle as the sequencer has it (R135). -/
theorem State.sendCycle_of_due {s : State} {r : Raw} (h : s.resetSeen = true)
    (hr : s.mwm.seq.sendDue s.params = some r) : s.sendCycle r = .next (s.clkCycle s.portAccess) := by
  have hc : s.cycleWith s.portAccess (fun _ => Seq.beginFrame r) = s.clkCycle s.portAccess :=
    State.cycleWith_eq_clkCycle _ fun _ _ => (Seq.sendDue_edge hr).2.symm
  simp [State.sendCycle, h, hr, hc]

/-- So is the cycle that takes in the due byte (R139). -/
theorem State.dataCycle_of_received {s : State} {d : Byte} (h : s.resetSeen = true)
    (hd : s.mwm.seq.recvDue s.mwm.sampleDO = some d) : s.dataCycle d = .next (s.clkCycle s.portAccess) := by
  have hc : s.cycleWith s.portAccess (fun _ => Seq.takeByte s.params d) = s.clkCycle s.portAccess :=
    State.cycleWith_eq_clkCycle _ fun _ _ => (Seq.recvDue_edge hd).2.2.symm
  simp [State.dataCycle, h, hd, hc]

/-- And the cycle that starts the due data frame, whether or not a byte is complete in it. -/
theorem State.dataCycle_of_due {s : State} {d : Byte} (h : s.resetSeen = true)
    (hd : s.mwm.seq.sendDue s.params = some (.wire8 d)) : s.dataCycle d = .next (s.clkCycle s.portAccess) := by
  by_cases hr : s.mwm.seq.recvDue s.mwm.sampleDO = some d
  · exact State.dataCycle_of_received h hr
  · rw [State.dataCycle, if_neg fun hc => hr hc.2, State.sendCycle_of_due h hd]

/-- A 9-bit frame is its opcode bits before its address bits (R105). -/
theorem wire9_of_opcode {w : BitVec 9} {c : BitVec 3} (h : w.extractLsb' 6 3 = c) : w = c ++ w.extractLsb' 0 6 := by
  subst h
  refine BitVec.eq_of_getLsbD_eq fun i hi => ?_
  rw [BitVec.getLsbD_append, BitVec.getLsbD_extractLsb', BitVec.getLsbD_extractLsb']
  split_ifs with h6
  · simp [h6]
  · simp [show i - 6 < 3 by omega, show 6 + (i - 6) = i by omega]

/-- A decoded 9-bit frame is the cycle that sends those very bits (R105). -/
theorem exec_of_decodeWire9 {w : BitVec 9} {i : Instr} (s : State) (h : decodeWire9 w = .instr i) :
    exec i s = s.sendCycle (.wire9 w) := by
  unfold decodeWire9 at h
  split_ifs at h with h1 h2 h3 h4 <;> cases h
  · exact congrArg (fun w => s.sendCycle (.wire9 w)) (wire9_of_opcode h1).symm
  · exact congrArg (fun w => s.sendCycle (.wire9 w)) (wire9_of_opcode h2).symm
  · subst h3; rfl
  · subst h4; rfl

/-- The reserved bits of a word written to CMD make no difference to the cycle (R103). -/
theorem State.clkCycle_cmdReadback (s : State) (v : Word) :
    s.clkCycle (.write 0#3 (cmdReadback v)) = s.clkCycle (.write 0#3 v) := by
  have he : s.mwm.hostEdge s.params (.write 0#3 (cmdReadback v)) = s.mwm.hostEdge s.params (.write 0#3 v) := by
    cases hb : s.mwm.seq.busy
    · rw [Mwm.hostEdge_cmd_idle hb, Mwm.hostEdge_cmd_idle hb, Mwm.accept_readback]
    · rw [Mwm.hostEdge_cmd_busy hb, Mwm.hostEdge_cmd_busy hb]
  simp only [State.clkCycle, State.cycleWith, State.mwmEdge, he, State.rdataOut]

/-- After the first reset a step on a host request is one cycle with the access on the port. -/
theorem step_of_request {s : State} {r : Raw} (h : s.resetSeen = true) (hr : s.req.raw = some r) :
    step s = .next (s.clkCycle s.portAccess) := by
  have hf : s.fetch = some r := by simp [State.fetch, hr]
  unfold step
  rw [hf]
  cases hq : s.req with
  | idle => rw [hq] at hr; cases hr
  | bus bits =>
    rw [hq] at hr; cases hr
    simp [decode, exec_hostInstr _ s (isHostInstr_decodeHostbus bits), State.hostCycle_after h, State.portAccess, hq]
  | cmd w =>
    rw [hq] at hr; cases hr
    obtain ⟨hi, ha⟩ := accessOf_decodeCmd32 w
    simp [decode, exec_hostInstr _ s hi, ha, State.hostCycle_after h, State.portAccess, hq, State.clkCycle_cmdReadback]
  | waitIdle =>
    rw [hq] at hr; cases hr
    have hrd : decode (.hostbus (busReadBits RegName.status.idx)) = .instr (.rd RegName.status.idx) := by decide
    simp [hrd, exec_hostInstr (.rd RegName.status.idx) s rfl, accessOf, State.hostCycle_after h,
      State.portAccess, hq]

/-- A step on a frame that the micro-program starts or finishes is the cycle as the sequencer has it; a frame
of an address above 63 is sent like any other (R106, R107). -/
theorem step_of_frame {s : State} {r : Raw} (h : s.resetSeen = true) (hf : s.fetch = some r)
    (hd : s.mwm.frameDue s.params = some r) : step s = .next (s.clkCycle s.portAccess) := by
  unfold step
  rw [hf]
  unfold Mwm.frameDue at hd
  cases hs : s.mwm.seq.sendDue s.params with
  | some f =>
    rw [hs] at hd; cases hd
    rcases Seq.sendDue_wire hs with ⟨w, rfl⟩ | ⟨d, rfl⟩
    · cases hw : decodeWire9 w with
      | instr i => simp [decode, hw, exec_of_decodeWire9 s hw, State.sendCycle_of_due h hs]
      | error e => simp [decode, hw, State.hostCycle_after h]
    · exact State.dataCycle_of_due h hs
  | none =>
    rw [hs] at hd
    obtain ⟨d, hrecv, rfl⟩ : ∃ d, s.mwm.seq.recvDue s.mwm.sampleDO = some d ∧ Raw.wire8 d = r := by simpa using hd
    exact State.dataCycle_of_received h hrecv

/-- Without a host request, the bits of a cycle are the frame of its edge. -/
theorem State.frameDue_of_fetch {s : State} {r : Raw} (hr : s.req.raw = none) (hf : s.fetch = some r) :
    s.mwm.frameDue s.params = some r := by
  simp only [State.fetch, hr] at hf
  split_ifs at hf
  exact hf

/-- After the first reset every step is one whole cycle with the access that stands on the port (R11). -/
theorem step_eq_clkCycle {s : State} (h : s.resetSeen = true) : step s = .next (s.clkCycle s.portAccess) := by
  cases hr : s.req.raw with
  | some r => exact step_of_request h hr
  | none =>
    cases hf : s.fetch with
    | some r => exact step_of_frame h hf (State.frameDue_of_fetch hr hf)
    | none =>
      have hq : s.req = .idle := by
        cases hq : s.req <;> simp [hq, HostReq.raw] at hr ⊢
      simp [step, hf, State.hostCycle_after h, State.portAccess, hq]

/-! ## STATUS and the pins -/

theorem getLsbD_append_bit_zero {n : Nat} (x : BitVec n) (b : Bool) : (x ++ bit b).getLsbD 0 = b := by
  rw [BitVec.getLsbD_append, if_pos Nat.one_pos, BitVec.getLsbD_ofBool]
  simp

theorem getLsbD_append_bit_succ {n : Nat} (x : BitVec n) (b : Bool) (i : Nat) :
    (x ++ bit b).getLsbD (i + 1) = x.getLsbD i := by
  rw [BitVec.getLsbD_append, if_neg (by omega), Nat.add_sub_cancel]

/-- The four flags are bits 1 to 4 of STATUS (R24 to R28): each is reached past BUSY and the flags below it. -/
theorem Mwm.status_flags (m : Mwm) :
    m.status.getLsbD 1 = m.host.done ∧ m.status.getLsbD 2 = m.host.timeout ∧
      m.status.getLsbD 3 = m.host.illegal ∧ m.status.getLsbD 4 = m.host.dropped := by
  have below (i : Nat) : m.status.getLsbD i = @BitVec.getLsbD (27 + 1 + 1 + 1 + 1 + 1)
      (_ ++ bit m.host.dropped ++ bit m.host.illegal ++ bit m.host.timeout ++ bit m.host.done ++ bit m.seq.busy) i :=
    rfl
  simp only [below, getLsbD_append_bit_succ, getLsbD_append_bit_zero, and_self]

theorem Mwm.csPin_activeHigh {p : Params} (h : p.csActiveHigh = true) (m : Mwm) : m.csPin p = m.seq.csQ := by
  simp [Mwm.csPin, h]

theorem Mwm.csPin_activeLow {p : Params} (h : p.csActiveHigh = false) (m : Mwm) : m.csPin p = !m.seq.csQ := by
  simp [Mwm.csPin, h]

/-- The device undoes the polarity (R37, R76). -/
theorem csLogical_csPin (p : Params) (m : Mwm) : csLogical p (m.csPin p) = m.seq.csQ := by
  cases h : p.csActiveHigh
  · simp [csLogical, Mwm.csPin_activeLow h, h]
  · simp [csLogical, Mwm.csPin_activeHigh h, h]

/-! ## The statements -/

/-- Settles O45, by the two polarities. -/
theorem pinLevels : Obligations.PinLevels := fun p m =>
  ⟨fun h => m.csPin_activeHigh h, fun h => m.csPin_activeLow h, rfl, rfl, csLogical_csPin p m⟩

/-- Settles O23: no access changes RDATA, and a completion writes it only for READ. -/
theorem rdataChangesOnlyWhenReadCompletes : Obligations.RdataChangesOnlyWhenReadCompletes := by
  refine ⟨rfl, fun s ⟨hseen, hrst⟩ => ⟨_, step_eq_clkCycle hseen, rfl, ?_⟩⟩
  rw [State.clkCycle_host hrst]
  cases hc : s.completes <;> simp [Mwm.hostEdge_rdata]

/-- Settles O16, by whether the access has a word accepted. -/
theorem statusFlagRules : Obligations.StatusFlagRules :=
  ⟨Mwm.status_flags, ⟨rfl, rfl, rfl, rfl⟩, fun s acc ⟨hseen, hrst⟩ =>
    ⟨s.clkCycle acc, State.hostCycle_after hseen acc, fun _ => State.clkCycle_flags_of_accepted hrst,
      State.clkCycle_flags_of_not_accepted hrst⟩⟩

/-- Settles O43: two shifts of the synchronizer, and the independence of everything else. -/
theorem doSampledThreeCyclesLate : Obligations.DoSampledThreeCyclesLate := by
  refine ⟨rfl, rfl, fun s t u ⟨hseen, hrst⟩ hsync hst htrst htu => ?_, fun s e d acc hrun => ?_⟩
  · obtain rfl := Host.Outcome.next.inj ((step_eq_clkCycle hseen).symm.trans hst)
    obtain rfl := Host.Outcome.next.inj ((step_eq_clkCycle (s := s.clkCycle s.portAccess) hseen).symm.trans htu)
    obtain ⟨hS1, hS2⟩ := State.clkCycle_sync hrst s.portAccess
    have hpin := hS1.trans (State.doIn_of_synchronous hsync)
    exact ⟨hpin, hS2, (State.clkCycle_sync htrst _).2.trans hpin⟩
  · refine State.hostCycle_independent_of_doS1 (d := d) hrun ?_ ?_ ?_ acc
    exacts [hrun, rfl, rfl]

end Sys2Proof.Machine
end

section
/-! The host bus and the reference device (20_memory.md): what a read shows, what a write does at the edge that ends its
cycle, what the device drives on DO, what rising clocks do to it while it is busy. -/

namespace Sys2Proof.Machine

/-! ## The MWM after an ordinary cycle -/

/-- The host-visible registers `h` of this cycle after what the sequencer does to them at its end: the flags and RDATA of a
completion (R171). `State.clkCycle_mwm_of_not_accepted` ties it to the cycle. -/
def State.settle (s : State) (h : HostRegs) : HostRegs := if s.completes then h.complete s.mwm.seq else h

theorem State.settle_host (s : State) : s.settle s.mwm.host = s.hostNext := rfl

/-- An update that a completion does not see may as well come after the edge. -/
theorem State.settle_of_commutes {f : HostRegs → HostRegs} (hf : ∀ q h, (f h).complete q = f (h.complete q)) (s : State) :
    s.settle (f s.mwm.host) = f s.hostNext := by
  rw [← s.settle_host]
  unfold State.settle
  split
  · exact hf _ _
  · rfl

/-- An access without an accepted word leaves the sequencer alone, idle or busy. -/
theorem State.hostEdge_seq_of_not_accepted {s : State} {acc : Access} (h : s.acceptedWord acc = none) :
    (s.mwm.hostEdge s.params acc).seq = s.mwm.seq := by
  cases acc with
  | none => rfl
  | read idx => rfl
  | write idx v =>
    by_cases hi : idx = 0#3
    · exact Mwm.hostEdge_seq (by simpa [State.acceptedWord, hi] using h)
    · rw [Mwm.hostEdge_reg hi]

/-- The MWM after a cycle whose access has no accepted word: the sequencer goes on as without the access. -/
theorem State.clkCycle_mwm_of_not_accepted {s : State} {acc : Access} (hrst : s.rst = false)
    (h : s.acceptedWord acc = none) :
    (s.clkCycle acc).mwm = s.synced (s.settle (s.mwm.hostEdge s.params acc).host) s.seqNext := by
  have hhost : (s.clkCycle acc).mwm.host = s.settle (s.mwm.hostEdge s.params acc).host := State.clkCycle_host hrst acc
  have hseq : (s.clkCycle acc).mwm.seq = s.seqNext := by
    rw [State.clkCycle_seq hrst, State.hostEdge_seq_of_not_accepted h]
    cases hb : s.mwm.seq.busy <;> simp [State.seqNext, hb]
  obtain ⟨hS1, hS2⟩ := State.clkCycle_sync hrst acc
  unfold State.synced
  rw [← hhost, ← hseq, ← hS1, ← hS2]

/-- The MWM after a cycle in which an idle MWM accepts a word (R160). -/
theorem State.clkCycle_mwm_of_accepted {s : State} {acc : Access} {v : Word} (hrst : s.rst = false)
    (h : s.acceptedWord acc = some v) :
    (s.clkCycle acc).mwm = s.synced (s.mwm.accept s.params v).host (s.mwm.accept s.params v).seq := by
  obtain ⟨rfl, hb⟩ := State.acceptedWord_eq_some.mp h
  rw [State.clkCycle_mwm, State.mwmEdge_idle hrst hb, Mwm.hostEdge_cmd_idle hb]

/-! ## Register writes (R62) -/

/-- The legal value of a written field is the greater of the field and its minimum (R32, R33). -/
theorem ite_toNat_lt_eq_max {w : Nat} (x : BitVec w) (least : Nat) :
    (if x.toNat < least then BitVec.ofNat w least else x) = BitVec.ofNat w (max x.toNat least) := by
  split
  · rw [Nat.max_eq_right (by omega)]
  · rw [Nat.max_eq_left (by omega), BitVec.ofNat_toNat, BitVec.setWidth_eq]

theorem HostRegs.write_timing (v : Word) (h : HostRegs) :
    h.write 3#3 v = { h with
      tHalf := BitVec.ofNat 16 (max (v.extractLsb' 0 16).toNat 2)
      tSu := BitVec.ofNat 8 (max (v.extractLsb' 16 8).toNat 1)
      tCs := BitVec.ofNat 8 (max (v.extractLsb' 24 8).toNat 1) } := by
  simp only [← ite_toNat_lt_eq_max]
  rfl

theorem HostRegs.write_pollMax (v : Word) (h : HostRegs) :
    h.write 4#3 v = { h with pollMax := BitVec.ofNat 32 (max v.toNat 1) } := by
  rw [← ite_toNat_lt_eq_max]
  rfl

theorem HostRegs.write_config (v : Word) (h : HostRegs) : h.write 5#3 v = { h with pollClk := v.getLsbD 0 } := rfl

theorem HostRegs.write_ignored {idx : RegIdx} (hi : idx = 2#3 ∨ idx = 6#3 ∨ idx = 7#3) (v : Word) (h : HostRegs) :
    h.write idx v = h := by
  rcases hi with rfl | rfl | rfl <;> rfl

/-- A STATUS write at the completion edge: the flags that the edge sets stay set (R206). -/
theorem State.settle_writeStatus (s : State) (v : Word) :
    s.settle (s.mwm.host.write 1#3 v) = { s.hostNext with
      done := s.completes || (s.mwm.host.done && !v.getLsbD 1)
      timeout := if s.completes && decide (s.mwm.seq.work.op = 5#3) then s.mwm.seq.timedOut
        else s.mwm.host.timeout && !v.getLsbD 2
      illegal := s.mwm.host.illegal && !v.getLsbD 3
      dropped := s.mwm.host.dropped && !v.getLsbD 4 } := by
  rw [← s.settle_host]
  unfold State.settle
  cases s.completes
  · rfl
  · simp only [Bool.true_and, Bool.true_or, decide_eq_true_eq, if_true]
    rfl

/-- A write of a register other than CMD: the sequencer goes on as without it. -/
theorem State.clkCycle_mwm_of_regWrite {s : State} {idx : RegIdx} (hrst : s.rst = false) (hi : idx ≠ 0#3) (v : Word) :
    (s.clkCycle (.write idx v)).mwm = s.synced (s.settle (s.mwm.host.write idx v)) s.seqNext := by
  rw [State.clkCycle_mwm_of_not_accepted hrst (by simp [State.acceptedWord, hi]), Mwm.hostEdge_reg hi]

/-- A write of CMD while a command runs is recorded in DROPPED and does nothing else (R205). -/
theorem State.clkCycle_mwm_of_dropped {s : State} (hrst : s.rst = false) (hb : s.mwm.seq.busy = true) (v : Word) :
    (s.clkCycle (.write 0#3 v)).mwm = s.synced { s.hostNext with dropped := true } s.seqNext := by
  rw [State.clkCycle_mwm_of_not_accepted hrst (by simp [State.acceptedWord, hb]), Mwm.hostEdge_cmd_busy hb,
    State.settle_of_commutes (f := HostRegs.raise .dropped) fun _ _ => rfl]
  rfl

/-! ## What the reference device drives (R86) -/

theorem Device.drive_deasserted (d : Device) (undriven : Bool) : d.drive false undriven = undriven := rfl

theorem Device.drive_busy {d : Device} (h : d.busy = true) (undriven : Bool) : d.drive true undriven = false := by
  simp [Device.drive, h]

theorem Device.drive_cmdIn {d : Device} (hb : d.busy = false) (hp : d.phase = .cmdIn) (undriven : Bool) :
    d.drive true undriven = decide (d.n = 0) := by
  simp [Device.drive, hb, hp]

theorem Device.drive_readOut {d : Device} (hb : d.busy = false) (hp : d.phase = .readOut) (undriven : Bool) :
    d.drive true undriven = (decide (1 ≤ d.k) && d.snap.getLsbD (8 - d.k)) := by
  simp [Device.drive, hb, hp]

theorem Device.drive_otherPhase {d : Device} (hb : d.busy = false) (hc : d.phase ≠ .cmdIn) (hr : d.phase ≠ .readOut)
    (undriven : Bool) : d.drive true undriven = false := by
  cases hp : d.phase with
  | cmdIn => exact absurd hp hc
  | readOut => exact absurd hp hr
  | idle | wData | waitCs | ignore => simp [Device.drive, hb, hp]

/-- Beside a sound reference device, the DO pin is what the device drives from its updated state. -/
theorem State.doPin_of_sound {s : State} (hk : s.env.kind = .reference) (hc : s.env.nextConduct s.mwm = .sound) :
    s.doPin = (s.env.observe s.params s.mwm s.cycle).dev.drive s.mwm.seq.csQ (Config.doFloat s.cycle) := by
  have hd : s.doPin = (s.env.observe s.params s.mwm s.cycle).dev.drive
      (csLogical s.params (s.mwm.csPin s.params)) (Config.doFloat s.cycle) := by
    unfold State.doPin
    rw [Env.observe_sound s.params s.cycle hk hc]
    simp only [Env.drive, hk, Env.driveDevice]
  rw [hd, csLogical_csPin]

/-! ## A busy device under rising clocks (R80) -/

theorem Device.clockRise_busy_cycles {d : Device} (hb : d.busy = true) (hm : d.mode = .cycles) (di : Bool) :
    d.clockRise di = d := by
  simp [Device.clockRise, hb, hm]

theorem Device.clockRise_busy_pulses {d : Device} (hb : d.busy = true) (hm : d.mode = .pulses) (di : Bool) :
    d.clockRise di = d.count := by
  simp [Device.clockRise, hb, hm]

theorem Device.count_of_more {d : Device} (h : 1 < d.busyRem) : d.count = { d with busyRem := d.busyRem - 1 } := by
  rw [Device.count, if_neg (by omega)]

theorem Device.count_of_last {d : Device} (h : d.busyRem = 1) : d.count = { d with busyRem := 0 }.commit := by
  rw [Device.count, h, if_pos rfl]

theorem Device.clockBits_append (xs ys : List Bool) (d : Device) :
    d.clockBits (xs ++ ys) = (d.clockBits xs).clockBits ys := List.foldl_append

theorem Device.clockBits_cons (x : Bool) (xs : List Bool) (d : Device) :
    d.clockBits (x :: xs) = (d.clockRise x).clockBits xs := rfl

theorem Device.clockBits_busy_cycles {d : Device} (hb : d.busy = true) (hm : d.mode = .cycles) (bits : List Bool) :
    d.clockBits bits = d := by
  induction bits with
  | nil => rfl
  | cons x xs ih => rw [Device.clockBits_cons, Device.clockRise_busy_cycles hb hm, ih]

/-- Fewer pulses than are left only count. -/
theorem Device.clockBits_busy_pulses {d : Device} (hb : d.busy = true) (hm : d.mode = .pulses) {bits : List Bool}
    (h : bits.length < d.busyRem) : d.clockBits bits = { d with busyRem := d.busyRem - bits.length } := by
  induction bits generalizing d with
  | nil => rfl
  | cons x xs ih =>
    rw [List.length_cons] at h
    rw [Device.clockBits_cons, Device.clockRise_busy_pulses hb hm, Device.count_of_more (by omega),
      ih (d := { d with busyRem := d.busyRem - 1 }) hb hm (by dsimp only; omega), List.length_cons, Nat.add_comm,
      Nat.sub_add_eq]

/-- The last pulse commits the pending byte, and `busy` falls (R80, R85). -/
theorem Device.clockBits_busy_pulses_commit {d : Device} (hb : d.busy = true) (hm : d.mode = .pulses)
    {bits : List Bool} (hpos : 1 ≤ d.busyRem) (h : bits.length = d.busyRem) :
    d.clockBits bits = { d with busyRem := 0 }.commit := by
  obtain ⟨front, last, rfl⟩ : ∃ front last, bits = front ++ [last] :=
    (List.eq_nil_or_concat' bits).resolve_left fun h0 => by simp [h0] at h; omega
  rw [List.length_append, List.length_singleton] at h
  have hone : d.busyRem - front.length = 1 := by omega
  have hfront : d.clockBits front = { d with busyRem := 1 } := by
    rw [Device.clockBits_busy_pulses hb hm (by omega), hone]
  rw [Device.clockBits_append, hfront]
  exact (Device.clockRise_busy_pulses (d := { d with busyRem := 1 }) hb hm last).trans (Device.count_of_last rfl)

/-! ## The statements -/

/-- Settles O14: a read and no access are the same cycle but for `bus_rdata`, which is the register, row by row. -/
theorem hostReadShowsRegister : Obligations.HostReadShowsRegister := by
  intro s idx hseen
  refine ⟨s.clkCycle (.read idx), s.clkCycle .none, State.hostCycle_after hseen _, State.hostCycle_after hseen _, rfl,
    fun hrst => State.clkCycle_mwm_of_not_accepted hrst rfl, State.cycleWith_others hseen _ _,
    State.cycleWith_others hseen _ _, rfl, ?_, ?_, ?_, ?_, ?_, ?_, fun hi => by rcases hi with rfl | rfl <;> rfl⟩
  all_goals rintro rfl; rfl

/-- Settles O15, by the index written: CMD is accepted or dropped, every other write commutes with the sequencer's edge
but that of STATUS, where the edge's sets win. -/
theorem hostWriteTakesEffect : Obligations.HostWriteTakesEffect := by
  intro s idx v ⟨hseen, hrst⟩
  refine ⟨s.clkCycle (.write idx v), State.hostCycle_after hseen _, State.cycleWith_others hseen _ _, ?_, ?_, ?_, ?_, ?_,
    ?_, fun hi => ?_⟩
  · rintro rfl hb
    exact State.clkCycle_mwm_of_dropped hrst hb v
  · rintro rfl hb
    exact State.clkCycle_mwm_of_accepted hrst (State.acceptedWord_eq_some.mpr ⟨rfl, hb⟩)
  · rintro rfl
    rw [State.clkCycle_mwm_of_regWrite hrst (by decide), State.settle_writeStatus]
  · rintro rfl
    rw [State.clkCycle_mwm_of_regWrite hrst (by decide),
      State.settle_of_commutes (f := (·.write 3#3 v)) (fun _ _ => rfl), HostRegs.write_timing]
  · rintro rfl
    rw [State.clkCycle_mwm_of_regWrite hrst (by decide),
      State.settle_of_commutes (f := (·.write 4#3 v)) (fun _ _ => rfl), HostRegs.write_pollMax]
  · rintro rfl
    rw [State.clkCycle_mwm_of_regWrite hrst (by decide),
      State.settle_of_commutes (f := (·.write 5#3 v)) (fun _ _ => rfl), HostRegs.write_config]
  · rw [State.clkCycle_mwm_of_regWrite hrst (by rcases hi with rfl | rfl | rfl <;> decide), HostRegs.write_ignored hi,
      State.settle_host]

/-- Settles O49: in `cycles` mode by induction on the pulses; in `pulses` mode all pulses but the last only count, and the
last commits. -/
theorem deviceBusyCountsPulses : Obligations.DeviceBusyCountsPulses := by
  refine ⟨fun d bits hb hm => Device.clockBits_busy_cycles hb hm bits, ?_⟩
  intro d bits ⟨⟨hsorted, _⟩, _, _, _, hrem⟩ hb hm _
  refine ⟨Device.clockBits_busy_pulses hb hm, fun hlen => ?_⟩
  rw [Device.clockBits_busy_pulses_commit hb hm (hrem hb) hlen]
  exact ⟨rfl, Memory.read_write hsorted d.pendA.toNat d.pendD⟩

/-- Settles O47, row by row of R86. -/
theorem deviceDrivesDo : Obligations.DeviceDrivesDo := by
  refine ⟨fun s => State.doPin_of_sound, fun d undriven => ⟨d.drive_deasserted undriven, fun hb => Device.drive_busy hb _,
    fun hb hp hn => ?_, fun hb hp hk => ?_, fun hb hp hk => ?_, fun hb hcmd hread => ?_⟩⟩
  · rw [Device.drive_cmdIn hb hp, decide_eq_true hn]
  · rw [Device.drive_readOut hb hp, hk]; rfl
  · rw [Device.drive_readOut hb hp, decide_eq_true hk, Bool.true_and]
  · by_cases hp : d.phase = .cmdIn
    · rw [Device.drive_cmdIn hb hp, decide_eq_false fun hn => hcmd ⟨hp, hn⟩]
    · exact Device.drive_otherPhase hb hp hread _

end Sys2Proof.Machine
end

section
/-! The encoding (30_encoding.md): the fields of a word put together, the words and bus cycles of the host assembly, the
wire frames. First the bit facts; then what a host request makes of a step; then the statements. -/

namespace Sys2Proof

/-! ## Fields put together -/

/-- A number written below a shifted one is ORed into it. -/
theorem ofNat_mul_two_pow_add (w hi : Nat) {k lo : Nat} (h : lo < 2 ^ k) :
    BitVec.ofNat w (hi * 2 ^ k + lo) = (BitVec.ofNat w hi <<< k) ||| BitVec.ofNat w lo := by
  apply BitVec.eq_of_toNat_eq
  rw [← Nat.shiftLeft_eq, Nat.shiftLeft_add_eq_or_of_lt h]
  simp [Nat.shiftLeft_eq]

/-- The word of a command with an address (R113). -/
theorem ofNat_addrFields (a : Byte) {op : Nat} (h : op < 2 ^ 8) :
    BitVec.ofNat 32 (a.toNat * 2 ^ 8 + op) = (a.setWidth 32 <<< 8) ||| BitVec.ofNat 32 op := by
  rw [ofNat_mul_two_pow_add 32 _ h, BitVec.ofNat_toNat]

/-- The word of a command with an address and a data byte (R113). -/
theorem ofNat_dataFields (a d : Byte) {op : Nat} (h : op < 2 ^ 8) :
    BitVec.ofNat 32 (d.toNat * 2 ^ 16 + a.toNat * 2 ^ 8 + op) =
      (d.setWidth 32 <<< 16) ||| (a.setWidth 32 <<< 8) ||| BitVec.ofNat 32 op := by
  have ha := a.isLt
  rw [Nat.add_assoc, ofNat_mul_two_pow_add 32 _ (by omega), ofNat_addrFields a h, BitVec.ofNat_toNat, BitVec.or_assoc]

/-- The word of TIMING (R32, R113). -/
theorem ofNat_timingFields (h : BitVec 16) (s c : BitVec 8) :
    BitVec.ofNat 32 (c.toNat * 2 ^ 24 + s.toNat * 2 ^ 16 + h.toNat) =
      (c.setWidth 32 <<< 24) ||| (s.setWidth 32 <<< 16) ||| h.setWidth 32 := by
  have hh := h.isLt
  have hs := s.isLt
  rw [Nat.add_assoc, ofNat_mul_two_pow_add 32 _ (by omega), ofNat_mul_two_pow_add 32 _ hh]
  simp only [BitVec.ofNat_toNat, BitVec.or_assoc]

/-! ## CMD words -/

/-- OP, ADDR and DATA are all that a decoder of CMD words sees (R102, R103). -/
theorem decodeCmd32_congr {v w : Word} (hop : cmdOp v = cmdOp w) (haddr : cmdAddr v = cmdAddr w)
    (hdata : cmdData v = cmdData w) : decodeCmd32 v = decodeCmd32 w := by
  simp only [decodeCmd32, hop, haddr, hdata]

/-- The reserved bits [7:3] of a CMD word are 0 (R101). -/
theorem cmdWord_reservedLow (op : BitVec 3) (a d : Byte) : (cmdWord op a d).extractLsb' 3 5 = 0#5 := by
  refine BitVec.eq_of_getLsbD_eq fun i hi => ?_
  rw [BitVec.getLsbD_extractLsb', cmdWord_bit, if_neg (by omega), if_pos (by omega)]
  simp

/-- The reserved bits [31:24] of a CMD word are 0 (R101). -/
theorem cmdWord_reservedHigh (op : BitVec 3) (a d : Byte) : (cmdWord op a d).extractLsb' 24 8 = 0#8 := by
  refine BitVec.eq_of_getLsbD_eq fun i hi => ?_
  rw [BitVec.getLsbD_extractLsb', cmdWord_bit, if_neg (by omega), if_neg (by omega), if_neg (by omega),
    if_neg (by omega)]
  simp

/-! ## Host bus cycles -/

/-- A write cycle decodes to its write (R112): `bus_we`, the index and the data are the fields of its bits. -/
theorem decodeHostbus_busWriteBits (idx : RegIdx) (v : Word) : decodeHostbus (busWriteBits idx v) = .wr idx v := by
  have hwe : (busWriteBits idx v).getLsbD 35 = true := by rw [busWriteBits_bit]; rfl
  have hidx : (busWriteBits idx v).extractLsb' 32 3 = idx := BitVec.eq_of_getLsbD_eq fun i hi => by
    rw [BitVec.getLsbD_extractLsb', busWriteBits_bit, if_neg (by omega), if_pos (by omega), Nat.add_sub_cancel_left]
    simp [hi]
  have hdata : (busWriteBits idx v).extractLsb' 0 32 = v := BitVec.eq_of_getLsbD_eq fun i hi => by
    rw [BitVec.getLsbD_extractLsb', busWriteBits_bit, if_pos (by omega)]
    simp [hi]
  rw [decodeHostbus, if_pos hwe, hidx, hdata]

end Sys2Proof

namespace Sys2Proof.Machine

/-! ## CMD writes and their reserved bits (R103) -/

theorem cmdReadback_congr {v w : Word} (hop : cmdOp v = cmdOp w) (haddr : cmdAddr v = cmdAddr w)
    (hdata : cmdData v = cmdData w) : cmdReadback v = cmdReadback w := by
  rw [cmdReadback, hop, haddr, hdata, cmdReadback]

/-- Before the first reset no written word has an effect (R47, U9). -/
theorem State.beforeReset_write (s : State) (idx : RegIdx) (v w : Word) :
    s.beforeReset (.write idx v) = s.beforeReset (.write idx w) := by
  unfold State.beforeReset
  cases s.rst <;> rfl

/-- The reserved bits of a word written to CMD make no difference, before the first reset either. -/
theorem State.hostCycle_cmdReadback (s : State) (v : Word) :
    s.hostCycle (.write 0#3 (cmdReadback v)) = s.hostCycle (.write 0#3 v) := by
  rw [State.hostCycle, State.hostCycle, State.clkCycle_cmdReadback, State.beforeReset_write s 0#3 (cmdReadback v) v]

/-- A decoded CMD word means the host write of that very word to CMD (R113). -/
theorem exec_decodeCmd32 (w : Word) (s : State) : exec (decodeCmd32 w) s = s.hostCycle (.write 0#3 w) := by
  obtain ⟨hhost, hacc⟩ := accessOf_decodeCmd32 w
  rw [exec_hostInstr _ s hhost, hacc, State.hostCycle_cmdReadback]

/-- CMD shows the last accepted word, its reserved bits 0 (R23, R160). -/
theorem State.clkCycle_cmd_of_accepted {s : State} (hrst : s.rst = false) (hb : s.mwm.seq.busy = false) (v : Word) :
    (s.clkCycle (.write 0#3 v)).mwm.regRead 0#3 = cmdReadback v := by
  show (s.clkCycle (.write 0#3 v)).mwm.host.cmd = _
  rw [State.clkCycle_host hrst, State.completes_of_idle hb, Mwm.hostEdge_cmd_idle hb, Mwm.accept_host]
  rfl

/-! ## Steps on a host request -/

/-- A request of a CMD word steps as the write of that word to CMD. -/
theorem step_of_cmdRequest {s : State} {w : Word} (h : s.req = .cmd w) : step s = s.hostCycle (.write 0#3 w) := by
  have hf : s.fetch = some (.cmd32 w) := by simp [State.fetch, h, HostReq.raw]
  rw [← exec_decodeCmd32]
  simp [step, hf, decode]

/-- A request of a write cycle steps as that write. -/
theorem step_of_writeRequest {s : State} {idx : RegIdx} {v : Word} (h : s.req = .bus (busWriteBits idx v)) :
    step s = s.hostCycle (.write idx v) := by
  have hf : s.fetch = some (.hostbus (busWriteBits idx v)) := by simp [State.fetch, h, HostReq.raw]
  simp [step, hf, decode, decodeHostbus_busWriteBits, exec_hostInstr (.wr idx v) s rfl, accessOf]

/-- A cycle with a given access does not see which request made it, as long as the script moves on. -/
theorem State.hostCycle_of_request (s : State) (acc : Access) (rst : Bool) {q r : HostReq} (rest : List Pins)
    (hq : q ≠ .waitIdle) (hr : r ≠ .waitIdle) :
    { s with script := ⟨rst, q⟩ :: rest }.hostCycle acc = { s with script := ⟨rst, r⟩ :: rest }.hostCycle acc := by
  have hnext : { s with script := ⟨rst, q⟩ :: rest }.nextScript = { s with script := ⟨rst, r⟩ :: rest }.nextScript := by
    simp [State.nextScript, hq, hr]
  have hcycle : { s with script := ⟨rst, q⟩ :: rest }.clkCycle acc =
      { s with script := ⟨rst, r⟩ :: rest }.clkCycle acc := by
    rw [State.clkCycle, State.clkCycle, State.cycleWith, State.cycleWith, hnext]
    rfl
  rw [State.hostCycle, State.hostCycle, hcycle]
  rfl

/-! ## The `WAITIDLE` loop (R113) -/

/-- BUSY is bit 0 of STATUS (R24). -/
theorem Mwm.status_busy (m : Mwm) : m.status.getLsbD 0 = m.seq.busy := by
  have last : m.status.getLsbD 0 = @BitVec.getLsbD (31 + 1) (_ ++ bit m.seq.busy) 0 := rfl
  rw [last, getLsbD_append_bit_zero]

/-- The request of a `WAITIDLE` stands again while the MWM is busy. -/
theorem State.nextScript_waitIdle {s : State} {rest : List Pins} (h : s.script = ⟨false, .waitIdle⟩ :: rest) :
    s.nextScript = if s.mwm.seq.busy then s.script else rest := by
  simp [State.nextScript, h]

/-! ## Wire frames (R104) -/

/-- The number of a frame with an address. -/
theorem addrFrame_toNat (header : Header) (a : Byte) :
    (addrFrame header a).toNat = (header.toNat ||| a.toNat) % 2 ^ 9 := by
  have ha := a.isLt
  rw [addrFrame, BitVec.toNat_setWidth, BitVec.toNat_or, BitVec.toNat_setWidth,
    Nat.mod_eq_of_lt (by omega : _ < 2 ^ 16)]

/-- A header whose address field is 0 takes an address of 0 to 63 as a sum (R106). -/
theorem addrFrame_toNat_of_lt {header : Header} {op : Nat} (hh : header.toNat = op * 2 ^ 6) (hop : op < 2 ^ 3)
    {a : Byte} (ha : a.toNat < 2 ^ 6) : (addrFrame header a).toNat = op * 2 ^ 6 + a.toNat := by
  rw [addrFrame_toNat, hh, ← Nat.shiftLeft_eq, ← Nat.shiftLeft_add_eq_or_of_lt ha, Nat.shiftLeft_eq]
  omega

/-- The opcode bits of a frame are those of its header, ORed with ADDR bits 6 and 7 (R106). -/
theorem addrFrame_opcode (header : Header) (a : Byte) :
    (addrFrame header a).extractLsb' 6 3 = header.extractLsb' 6 3 ||| (a.extractLsb' 6 2).setWidth 3 := by
  refine BitVec.eq_of_getLsbD_eq fun i hi => ?_
  have hlow : 6 + i < 9 := by omega
  have hbeyond : ¬ i < 2 → a.getLsbD (6 + i) = false := fun h => BitVec.getLsbD_of_ge _ _ (by omega)
  by_cases h2 : i < 2
  · simp [addrFrame, hi, hlow, h2]
  · simp [addrFrame, hi, hlow, h2, hbeyond h2]

/-- ADDR bits 7 and 6 as a two-bit field. -/
theorem getLsbD_high_bits (a : Byte) :
    a.getLsbD 6 = (a.extractLsb' 6 2).getLsbD 0 ∧ a.getLsbD 7 = (a.extractLsb' 6 2).getLsbD 1 := by
  simp

/-- What ADDR bits 6 and 7 make of the default opcode bits: those of READ hold bit 7 already, those of WRITE bit 6. -/
theorem default_opcode_or : ∀ x : BitVec 2,
    Params.default.readHdr.extractLsb' 6 3 ||| x.setWidth 3 = (if x.getLsbD 0 then 0b111#3 else 0b110#3) ∧
    Params.default.writeHdr.extractLsb' 6 3 ||| x.setWidth 3 = (if x.getLsbD 1 then 0b111#3 else 0b101#3) := by decide

/-! ## The statements -/

/-- Settles O4: a CMD write sees its word only through OP, ADDR and DATA, and CMD takes these with its reserved bits 0. -/
theorem cmdReservedBitsIgnored : Obligations.CmdReservedBitsIgnored := by
  intro v w s hop haddr hdata
  refine ⟨decodeCmd32_congr hop haddr hdata, ?_, fun ⟨hseen, hrst⟩ hb => ?_⟩
  · show s.hostCycle (.write 0#3 v) = s.hostCycle (.write 0#3 w)
    rw [← State.hostCycle_cmdReadback s v, cmdReadback_congr hop haddr hdata, State.hostCycle_cmdReadback]
  · obtain ⟨-, -, hillegal, -⟩ :=
      State.clkCycle_flags_of_accepted hrst (State.acceptedWord_eq_some.mpr ⟨rfl, hb⟩ : s.acceptedWord _ = some v)
    refine ⟨s.clkCycle (.write 0#3 v), State.hostCycle_after hseen _, ?_, ?_, fun h => ?_⟩
    · rw [State.clkCycle_cmd_of_accepted hrst hb, cmdReadback, cmdWord_reservedLow]
    · rw [State.clkCycle_cmd_of_accepted hrst hb, cmdReadback, cmdWord_reservedHigh]
    · exact of_decide_eq_true (hillegal.symm.trans h)

/-- Settles O6: each word of the table is its fields put together; the two requests of a CMD write make the same access;
`WAITIDLE` is the read of STATUS, whose bit 0 is what the script goes by. -/
theorem pseudoExpansions : Obligations.PseudoExpansions := by
  refine ⟨fun a d => ⟨rfl, ?_, ?_, rfl, rfl, ?_, rfl⟩, fun w s rest => ?_, fun h s c => ?_, fun s rest hseen hs => ?_⟩
  · rw [expand, ofNat_addrFields a (by decide)]
  · rw [expand, ofNat_dataFields a d (by decide)]
  · rw [expand, ofNat_dataFields a d (by decide)]
  · rw [step_of_cmdRequest rfl, step_of_writeRequest rfl]
    exact s.hostCycle_of_request _ false rest (by simp) (by simp)
  · rw [expand, ofNat_timingFields]; rfl
  · have hacc : s.portAccess = .read 1#3 := by simp [State.portAccess, State.req, hs, RegName.idx]
    have hstep : step s = .next (s.clkCycle (.read 1#3)) := by rw [step_eq_clkCycle hseen, hacc]
    have hscript : (s.clkCycle (.read 1#3)).script = if s.mwm.seq.busy then s.script else rest :=
      State.nextScript_waitIdle hs
    refine ⟨rfl, s.clkCycle (.read 1#3), hstep, State.hostCycle_after hseen _, rfl, fun hb => ?_, fun hb => ?_⟩
    · rw [hscript, ← Mwm.status_busy, if_pos hb]
    · rw [hscript, ← Mwm.status_busy, hb]; rfl

/-- Settles O24: the numbers of R104, frame by frame. -/
theorem frameAssembly : Obligations.FrameAssembly := fun p w =>
  ⟨⟨_, rfl, addrFrame_toNat p.readHdr w.addr⟩, ⟨_, rfl, addrFrame_toNat p.writeHdr w.addr⟩,
    ⟨_, rfl, BitVec.toNat_setWidth 9 p.ewenFrame⟩, ⟨_, rfl, BitVec.toNat_setWidth 9 p.ewdsFrame⟩, rfl⟩

/-- Settles O25: below 64 the address is a summand; in general the opcode bits take ADDR bits 6 and 7. -/
theorem addressesStayOutOfOpcode : Obligations.AddressesStayOutOfOpcode := by
  intro a
  obtain ⟨h6, h7⟩ := getLsbD_high_bits a
  obtain ⟨hread, hwrite⟩ := default_opcode_or (a.extractLsb' 6 2)
  refine ⟨fun ha => ⟨addrFrame_toNat_of_lt (op := 6) rfl (by decide) ha,
    addrFrame_toNat_of_lt (op := 5) rfl (by decide) ha⟩, ?_, ?_⟩
  · rw [addrFrame_opcode, hread, h6]
  · rw [addrFrame_opcode, hwrite, h7]

end Sys2Proof.Machine
end

section
/-! Commands (41_commands.md): what the sequencer starts at an accept edge, where a running command completes, and the
two environments that have no device to write to. -/

namespace Sys2Proof.Machine

/-! ## The accept edge (R160) -/

/-- A CMD write completes; an idle MWM takes the accepted word's registers (R160). -/
theorem State.hostCycle_of_accepted {s : State} (h : s.running) (hb : s.mwm.seq.busy = false) (v : Word) :
    s.hostCycle (.write 0#3 v) = .next (s.clkCycle (.write 0#3 v)) ∧
      s.othersAdvance (s.clkCycle (.write 0#3 v)) ∧
      (s.clkCycle (.write 0#3 v)).mwm = s.synced (s.mwm.accept s.params v).host (s.mwm.accept s.params v).seq := by
  obtain ⟨hseen, hrst⟩ := h
  exact ⟨State.hostCycle_after hseen _, State.cycleWith_others hseen _ _,
    State.clkCycle_mwm_of_accepted hrst (State.acceptedWord_eq_some.mpr ⟨rfl, hb⟩)⟩

/-- The OPs with a micro-program are those that are not INIT and not reserved (R102). -/
theorem op_hasProgram_iff (op : BitVec 3) :
    1 ≤ op.toNat ∧ op.toNat ≤ 5 ↔ op ≠ 0#3 ∧ ¬(op = 6#3 ∨ op = 7#3) := by
  revert op; decide

/-- Every micro-program begins with CS_ON (R161 to R168). -/
theorem microProgram_begins_csOn : ∀ op : BitVec 3, 1 ≤ op.toNat ∧ op.toNat ≤ 5 →
    (microProgram op).head? = some .csOn := by decide

/-- A command with a micro-program starts its CS_ON at the accept edge (R130, R131, R160). -/
theorem Mwm.startCommand_csOn (p : Params) {m : Mwm} (h : (microProgram m.seq.work.op).head? = some .csOn) :
    m.startCommand p = { m with seq := { m.seq with busy := true, upc := 0#4 }.startCsOn } := by
  obtain ⟨rest, hprog⟩ := List.head?_eq_some_iff.mp h
  rw [Mwm.startCommand, hprog]
  rfl

/-- The sequencer of an accepted command with a micro-program (R160). -/
theorem Mwm.accept_seq_program (p : Params) {v : Word} (h : 1 ≤ (cmdOp v).toNat ∧ (cmdOp v).toNat ≤ 5) (m : Mwm) :
    (m.accept p v).seq = { (m.latch v).seq with busy := true, upc := 0#4 }.startCsOn := by
  obtain ⟨h0, h67⟩ := (op_hasProgram_iff _).mp h
  rw [Mwm.accept_program p h0 h67, Mwm.startCommand_csOn p (microProgram_begins_csOn _ h)]

/-- Whatever the command starts, the working registers are those of the word, and the poll's two are cleared (R39, R160). -/
theorem Mwm.accept_latches (p : Params) (v : Word) (m : Mwm) :
    (m.accept p v).seq.work = Work.latch v m.host ∧ (m.accept p v).seq.slotCtr = 0#32 ∧
      (m.accept p v).seq.timedOut = false := by
  by_cases h0 : cmdOp v = 0#3
  · rw [Mwm.accept_init p h0]; exact ⟨rfl, rfl, rfl⟩
  by_cases h67 : cmdOp v = 6#3 ∨ cmdOp v = 7#3
  · rw [Mwm.accept_reserved p h67]; exact ⟨rfl, rfl, rfl⟩
  · rw [Mwm.accept_seq_program p ((op_hasProgram_iff _).mpr ⟨h0, h67⟩)]; exact ⟨rfl, rfl, rfl⟩

/-! ## The completion edge (R171) -/

theorem Seq.finishOp_busy (p : Params) (q : Seq) : (q.finishOp p).busy = (q.busy && q.followingOp.isSome) := by
  cases h : q.followingOp with
  | none => rw [Seq.finishOp_none h]; simp
  | some op => rw [Seq.finishOp_some h]; simp

/-- Only CS_OFF is ever last in a micro-program. -/
theorem Seq.follows_of_ne_csOff {q : Seq} {c : MicroOp} (h : q.currentOp = some c) (hc : c ≠ .csOff) :
    q.followingOp.isSome = true := by
  have hord := Seq.followingOp_order h
  cases hf : q.followingOp with
  | some op => rfl
  | none =>
    rw [hf] at hord
    cases c with
    | csOff => exact absurd rfl hc
    | _ => cases hord

theorem Seq.actSend_busy (p : Params) {q : Seq} (h : q.followingOp.isSome = true) : (q.actSend p).busy = q.busy := by
  cases hp : q.phase with
  | low =>
    simp only [Seq.actSend, hp]
    split_ifs <;> simp [Seq.finishOp_busy, h]
  | _ => simp [Seq.actSend, hp]

theorem Seq.actRecv8_busy (p : Params) (b : Bool) {q : Seq} (h : q.followingOp.isSome = true) :
    (q.actRecv8 p b).busy = q.busy := by
  have hs : (q.sampleBit b).followingOp = q.followingOp := rfl
  cases hp : q.phase with
  | low =>
    simp only [Seq.actRecv8, hp]
    split_ifs <;> simp [Seq.finishOp_busy, hs, h]
  | _ => simp [Seq.actRecv8, hp]

theorem Seq.actPoll_busy (p : Params) (bounded b : Bool) {q : Seq} (h : q.followingOp.isSome = true) :
    (q.actPoll p bounded b).busy = q.busy := by
  have hc : q.countSlot.followingOp = q.followingOp := rfl
  have ht : q.countSlot.pollTimesOut.followingOp = q.followingOp := rfl
  cases hp : q.phase with
  | low =>
    simp only [Seq.actPoll, hp]
    split_ifs <;> simp [Seq.finishOp_busy, hc, ht, h]
  | _ => simp [Seq.actPoll, hp]

/-- An action that ends the command is the end of its last CS_OFF. -/
theorem Seq.act_completes {p : Params} {b : Bool} {q : Seq} (hb : q.busy = true) (h : (q.act p b).busy = false) :
    q.currentOp = some .csOff ∧ q.followingOp = none := by
  have follows {c : MicroOp} (hop : q.currentOp = some c) (hc : c ≠ .csOff) := Seq.follows_of_ne_csOff hop hc
  unfold Seq.act at h
  cases hop : q.currentOp with
  | none => rw [hop] at h; exact absurd (hb.symm.trans h) (by decide)
  | some c =>
    rw [hop] at h
    cases c with
    | csOff => exact ⟨rfl, by simpa [Seq.finishOp_busy, hb] using h⟩
    | csOn => simp [Seq.finishOp_busy, follows hop, hb] at h
    | send src => simp [Seq.actSend_busy p (follows hop (by simp)), hb] at h
    | recv8 => simp [Seq.actRecv8_busy p b (follows hop (by simp)), hb] at h
    | poll bounded => simp [Seq.actPoll_busy p bounded b (follows hop (by simp)), hb] at h

/-- The end of the last CS_OFF completes the command (R130, R171). -/
theorem Seq.act_last_csOff {p : Params} {b : Bool} {q : Seq} (hop : q.currentOp = some .csOff)
    (hlast : q.followingOp = none) : q.act p b = q.complete := by
  rw [Seq.act, hop]
  exact Seq.finishOp_none hlast

/-- The running command completes exactly where the wait of its last CS_OFF runs out. -/
theorem State.completes_iff (s : State) :
    s.completes = true ↔ s.mwm.seq.busy = true ∧ s.mwm.seq.dly.toNat ≤ 1 ∧ s.mwm.seq.currentOp = some .csOff ∧
      s.mwm.seq.followingOp = none := by
  constructor
  · intro h
    obtain ⟨hb, hn⟩ : s.mwm.seq.busy = true ∧ s.seqNext.busy = false := by simpa [State.completes] using h
    rw [State.seqNext, if_pos hb] at hn
    by_cases hd : s.mwm.seq.dly.toNat ≤ 1
    · rw [Seq.edge_act hd] at hn
      exact ⟨hb, hd, Seq.act_completes hb hn⟩
    · rw [Seq.edge_wait (by omega)] at hn
      exact absurd (hb.symm.trans hn) (by decide)
  · rintro ⟨hb, hd, hop, hlast⟩
    simp [State.completes, State.seqNext, hb, Seq.edge_act hd, Seq.act_last_csOff hop hlast]

/-- The sequencer after a completion edge (R171). -/
theorem State.seqNext_of_completes {s : State} (h : s.completes = true) : s.seqNext = s.mwm.seq.complete := by
  obtain ⟨hb, hd, hop, hlast⟩ := s.completes_iff.mp h
  rw [State.seqNext, if_pos hb, Seq.edge_act hd, Seq.act_last_csOff hop hlast]

/-- In a legal state a running command has a micro-op at `upc`, with time left in its wait (R43, R44). -/
theorem State.Legal.busy_opLegal {s : State} (h : s.Legal) (hseen : s.resetSeen = true) (hb : s.mwm.seq.busy = true) :
    1 ≤ s.mwm.seq.dly.toNat ∧ s.mwm.seq.opLegal s.params := by
  obtain ⟨hm, -⟩ := h
  obtain ⟨-, -, -, -, -, hrun⟩ := hm hseen
  obtain ⟨-, hd, -, hop, -, -⟩ := hrun hb
  exact ⟨hd, hop⟩

/-- A legal running command at its last micro-op is in CS_OFF. -/
theorem Seq.currentOp_of_last {p : Params} {q : Seq} (h : q.opLegal p) (hlast : q.followingOp = none) :
    q.currentOp = some .csOff := by
  cases hop : q.currentOp with
  | none => rw [Seq.opLegal, hop] at h; exact h.elim
  | some c =>
    by_contra hne
    have hsome := Seq.follows_of_ne_csOff hop fun hc => hne (by rw [hc])
    rw [hlast] at hsome
    cases hsome

/-- From a legal state: exactly at the last edge of the last micro-op (R171). -/
theorem State.completes_iff_of_legal {s : State} (h : s.Legal) (hseen : s.resetSeen = true) :
    s.completes = true ↔ s.mwm.seq.busy = true ∧ s.mwm.seq.followingOp = none ∧ s.mwm.seq.dly = 1#17 := by
  rw [State.completes_iff]
  constructor
  · rintro ⟨hb, hd, -, hlast⟩
    obtain ⟨hpos, -⟩ := h.busy_opLegal hseen hb
    exact ⟨hb, hlast, BitVec.eq_of_toNat_eq (Nat.le_antisymm hd hpos)⟩
  · rintro ⟨hb, hlast, hd⟩
    obtain ⟨-, hop⟩ := h.busy_opLegal hseen hb
    exact ⟨hb, by rw [hd]; decide, Seq.currentOp_of_last hop hlast, hlast⟩

/-- During CS_OFF the lines are at their idle levels (R46 (b), R132). -/
theorem Seq.csOff_lines {p : Params} {q : Seq} (h : q.opLegal p) (hop : q.currentOp = some .csOff) :
    q.csQ = false ∧ q.clkQ = false ∧ q.diQ = false := by
  rw [Seq.opLegal, hop] at h
  exact h.2

/-! ## The environments without a device (R87) -/

/-- Only the reference device has state that a cycle changes (R87). -/
theorem Env.observe_of_not_reference {e : Env} (h : e.kind ≠ .reference) (p : Params) (m : Mwm) (c : Nat) :
    e.observe p m c = e := by
  unfold Env.observe
  split
  · exact absurd ‹_› h
  · rfl
  · rfl

/-- Before the first reset a host access is the first reset edge, or stops (R47). -/
theorem State.hostCycle_next_before_reset {s t : State} {acc : Access} (hseen : s.resetSeen = false)
    (h : s.hostCycle acc = .next t) : ∃ acc, t = s.firstReset acc := by
  rcases State.hostCycle_next h with ⟨hs, -⟩ | ⟨-, -, -, ht⟩
  · simp [hseen] at hs
  · exact ⟨acc, ht⟩

/-- So is an instruction; a wire frame only stops. -/
theorem exec_next_before_reset {i : Instr} {s t : State} (hseen : s.resetSeen = false) (h : exec i s = .next t) :
    ∃ acc, t = s.firstReset acc := by
  cases hi : isHostInstr i with
  | true => exact State.hostCycle_next_before_reset hseen ((exec_hostInstr i s hi).symm.trans h)
  | false =>
    have refused : s.resetSeen = true := by
      cases i with
      | frameRead a => exact (State.sendCycle_next h).1
      | frameWrite a => exact (State.sendCycle_next h).1
      | frameEwen => exact (State.sendCycle_next h).1
      | frameEwds => exact (State.sendCycle_next h).1
      | frameData d => rcases State.dataCycle_next h with ⟨hs, -⟩ | ⟨hs, -⟩ <;> exact hs
      | _ => cases hi
    simp [hseen] at refused

/-- All that a step can be: a whole cycle after the first reset, the first reset edge before it. -/
theorem step_next {s t : State} (h : step s = .next t) :
    (s.resetSeen = true ∧ t = s.clkCycle s.portAccess) ∨ (s.resetSeen = false ∧ ∃ acc, t = s.firstReset acc) := by
  cases hseen : s.resetSeen with
  | true => exact .inl ⟨rfl, Host.Outcome.next.inj (h.symm.trans (step_eq_clkCycle hseen))⟩
  | false =>
    refine .inr ⟨rfl, ?_⟩
    unfold step at h
    split at h
    · split at h
      · exact exec_next_before_reset hseen h
      · exact State.hostCycle_next_before_reset hseen h
    · exact State.hostCycle_next_before_reset hseen h

/-- Without a reference device no step changes the environment's kind or its cells. -/
theorem step_keeps_cells {s t : State} (hk : s.env.kind ≠ .reference) (h : step s = .next t) :
    t.env.kind = s.env.kind ∧ t.env.dev.mem = s.env.dev.mem := by
  rcases step_next h with ⟨-, rfl⟩ | ⟨-, acc, rfl⟩
  · rw [State.clkCycle_env, Env.observe_of_not_reference hk]
    exact ⟨rfl, rfl⟩
  · exact ⟨rfl, rfl⟩

/-- Nor does a run. -/
theorem run_keeps_cells {n : Nat} {s t : State} (hk : s.env.kind ≠ .reference)
    (h : Host.Core.run core n s = .next t) : t.env.dev.mem = s.env.dev.mem := by
  induction n generalizing s with
  | zero => rw [Host.Outcome.next.inj (h.symm.trans (run_zero s))]
  | succ n ih =>
    obtain ⟨u, hstep, hrun⟩ := run_succ_inv h
    obtain ⟨hkind, hmem⟩ := step_keeps_cells hk hstep
    rw [ih (by rwa [hkind]) hrun, hmem]

/-! ## The statements -/

/-- Settles O18: busy, the write is dropped; idle, the registers of every accepted word, then each group of OPs. -/
theorem commandStartRule : Obligations.CommandStartRule := by
  intro v s hrun
  obtain ⟨hseen, hrst⟩ := hrun
  refine ⟨s.clkCycle (.write 0#3 v), State.hostCycle_after hseen _, State.cycleWith_others hseen _ _,
    fun hb => State.clkCycle_mwm_of_dropped hrst hb v, fun hb => ?_⟩
  obtain ⟨-, -, hmwm⟩ := State.hostCycle_of_accepted ⟨hseen, hrst⟩ hb v
  obtain ⟨hwork, hslot, htimed⟩ := Mwm.accept_latches s.params v s.mwm
  rw [hmwm]
  refine ⟨Mwm.accept_host s.params v s.mwm, hwork, hslot, htimed, fun h0 => ?_, fun hop => ?_, fun h67 => ?_⟩
  · rw [Mwm.accept_init s.params h0]
    exact ⟨hb, rfl, rfl, rfl⟩
  · have hfirst := List.head?_eq_getElem?.symm.trans (microProgram_begins_csOn _ hop)
    rw [Mwm.accept_seq_program s.params hop]
    exact ⟨rfl, rfl, hfirst, rfl, rfl, rfl, rfl, BitVec.ofNat_toNat _ _⟩
  · rw [Mwm.accept_reserved s.params h67]
    exact ⟨hb, rfl, rfl, rfl⟩

/-- Settles O19: the latched word and INIT's own writes; in a legal idle state the lines are 0 already. -/
theorem initSetsDoneAndIdleLevels : Obligations.InitSetsDoneAndIdleLevels := by
  intro a d s hrun hb
  obtain ⟨hexec, hothers, hmwm⟩ := State.hostCycle_of_accepted hrun hb (cmdWord 0#3 a d)
  rw [Mwm.accept_init s.params (cmdOp_cmdWord _ a d), Mwm.latch_cmdWord] at hmwm
  refine ⟨_, hexec, hothers, hmwm, fun ⟨_, _, _, _, hidle, _⟩ => ?_⟩
  obtain ⟨hcs, hclk, hdi, -⟩ := hidle hb
  rw [hmwm, hcs, hclk, hdi]
  exact ⟨rfl, rfl, rfl⟩

/-- Settles O20: the latched word and the two flags, for either OP. -/
theorem reservedOpsSetIllegal : Obligations.ReservedOpsSetIllegal := by
  intro a d s hrun hb
  have reserved {op : BitVec 3} (hop : op = 6#3 ∨ op = 7#3) :
      ∃ t, s.hostCycle (.write 0#3 (cmdWord op a d)) = .next t ∧ s.othersAdvance t ∧ t.mwm = s.synced
        { s.mwm.host.accepted op a d with illegal := true, done := true } (s.mwm.acceptedSeq op a d) := by
    obtain ⟨hexec, hothers, hmwm⟩ := State.hostCycle_of_accepted hrun hb (cmdWord op a d)
    rw [Mwm.accept_reserved s.params (by rwa [cmdOp_cmdWord]), Mwm.latch_cmdWord] at hmwm
    exact ⟨_, hexec, hothers, hmwm⟩
  exact ⟨reserved (.inl rfl), reserved (.inr rfl)⟩

/-- Settles O22: only the end of the last CS_OFF completes a command, and CS_OFF holds the lines at 0. -/
theorem completionEdge : Obligations.CompletionEdge := by
  refine ⟨fun s hlegal ⟨hseen, _⟩ => State.completes_iff_of_legal hlegal hseen, fun s ⟨hseen, hrst⟩ hc => ?_⟩
  obtain ⟨hb, -, hop, -⟩ := s.completes_iff.mp hc
  refine ⟨s.clkCycle s.portAccess, step_eq_clkCycle hseen, ?_⟩
  rw [State.clkCycle_host hrst, if_pos hc, State.clkCycle_seq hrst, if_pos hb, State.seqNext_of_completes hc]
  refine ⟨rfl, rfl, rfl, fun hread => if_pos hread, fun hwriteb => if_pos hwriteb, fun hlegal => ?_⟩
  obtain ⟨-, hopLegal⟩ := hlegal.busy_opLegal hseen hb
  have hlines := Seq.csOff_lines hopLegal hop
  exact hlines

/-- Settles O52: DO by the kind of the environment, the cells by induction on the run. -/
theorem undrivenEnvironmentsKeepCells : Obligations.UndrivenEnvironmentsKeepCells := by
  refine ⟨fun s => ⟨fun habsent => ?_, fun hstuck => ?_⟩, fun n s t hk hrun x => ?_⟩
  · rw [State.doPin, Env.observe_of_not_reference (by simp [habsent]), Env.drive, habsent]
  · rw [State.doPin, Env.observe_of_not_reference (by simp [hstuck]), Env.drive, hstuck]
  · rw [run_keeps_cells hk hrun]

end Sys2Proof.Machine
end

section
/-! Exceptions (60_exceptions.md): a CMD write that finds a command running. -/

namespace Sys2Proof.Machine

/-- The nine instructions that write CMD mean the host write of their word to it (R113). -/
theorem exec_of_writesCmd {i : Instr} {v : Word} (h : writesCmd i = some v) (s : State) :
    exec i s = s.hostCycle (.write 0#3 v) := by
  obtain ⟨hhost, hacc⟩ : isHostInstr i = true ∧ accessOf i = .write 0#3 v := by
    cases i with
    | wr idx w =>
      obtain ⟨rfl, rfl⟩ : idx = 0#3 ∧ w = v := by simpa [writesCmd] using h
      exact ⟨rfl, rfl⟩
    | rd _ | frameRead _ | frameWrite _ | frameEwen | frameEwds | frameData _ => cases h
    | init _ _ | read _ _ | write _ _ | ewen _ _ | ewds _ _ | writeb _ _ | reserved6 _ _ | reserved7 _ _ =>
      cases h; exact ⟨rfl, rfl⟩
  rw [exec_hostInstr i s hhost, hacc]

/-- An edge without a host access leaves CMD alone, the completion edge too (R23, R171). -/
theorem State.hostNext_cmd (s : State) : s.hostNext.cmd = s.mwm.host.cmd := by
  unfold State.hostNext
  split <;> rfl

/-- An edge without a host access leaves the working registers alone (R39). -/
theorem State.seqNext_work (s : State) : s.seqNext.work = s.mwm.seq.work := by
  unfold State.seqNext
  split
  · exact Seq.edge_work _ _ _
  · rfl

/-- Settles O17: each of the nine instructions is the write of its word to CMD; busy, the cycle is the one without the
write but for DROPPED, idle, the word is accepted. -/
theorem cmdWriteWhileBusyIsDropped : Obligations.CmdWriteWhileBusyIsDropped := by
  intro i v s hi hrun
  obtain ⟨hseen, hrst⟩ := hrun
  rw [exec_of_writesCmd hi]
  refine ⟨fun hb => ?_, fun hb => ?_⟩
  · have hmwm := State.clkCycle_mwm_of_dropped hrst hb v
    refine ⟨_, State.hostCycle_after hseen _, hmwm, State.cycleWith_others hseen _ _, ?_, ?_⟩
    · rw [hmwm]
      exact s.hostNext_cmd
    · rw [hmwm]
      exact s.seqNext_work
  · obtain ⟨hexec, hothers, hmwm⟩ := State.hostCycle_of_accepted ⟨hseen, hrst⟩ hb v
    rw [Mwm.accept_host] at hmwm
    exact ⟨_, hexec, by rw [hmwm]; rfl, by rw [hmwm]; rfl, hothers⟩

end Sys2Proof.Machine
end

section
/-! Reset (70_reset_and_hazards.md): what a cycle with `rst` = 1 does with any access, every step as such a cycle, and the
reset values. -/

namespace Sys2Proof.Machine

/-! ## Steps as host cycles -/

/-- Before the first reset too, a step on a host request is the cycle of the access on the port. -/
theorem step_eq_hostCycle_of_request {s : State} (hreq : s.req ≠ .idle) : step s = s.hostCycle s.portAccess := by
  cases hq : s.req with
  | idle => exact absurd hq hreq
  | bus bits =>
    simp [step, State.fetch, HostReq.raw, hq, decode, exec_hostInstr _ s (isHostInstr_decodeHostbus bits),
      State.portAccess]
  | cmd w => rw [step_of_cmdRequest hq, State.portAccess, hq]
  | waitIdle =>
    have hrd : decode (.hostbus (busReadBits RegName.status.idx)) = .instr (.rd RegName.status.idx) := by decide
    simp [step, State.fetch, HostReq.raw, hq, hrd, exec_hostInstr (.rd _) s rfl, accessOf, State.portAccess]

/-- Every step is the cycle of the access on the port: before the first reset no frame is fetched (R47), after it a frame's
cycle is the ordinary one. -/
theorem step_eq_hostCycle (s : State) : step s = s.hostCycle s.portAccess := by
  cases hseen : s.resetSeen with
  | true => rw [step_eq_clkCycle hseen, State.hostCycle_after hseen]
  | false =>
    by_cases hreq : s.req = .idle
    · have hf : s.fetch = none := by simp [State.fetch, hreq, HostReq.raw, hseen]
      simp [step, hf, State.portAccess, hreq]
    · exact step_eq_hostCycle_of_request hreq

/-! ## Cycles with `rst` = 1 (R230) -/

/-- The first reset edge, in a cycle in which the host observes nothing (R47). -/
theorem State.hostCycle_firstReset {s : State} {acc : Access} (hseen : s.resetSeen = false) (hrst : s.rst = true)
    (hacc : ∀ idx, acc ≠ .read idx) : s.hostCycle acc = .next (s.firstReset acc) := by
  cases acc with
  | none => simp [State.hostCycle, State.beforeReset, hseen, hrst]
  | read idx => exact absurd rfl (hacc idx)
  | write idx v => simp [State.hostCycle, State.beforeReset, hseen, hrst]

/-- A cycle with `rst` = 1 completes with the MWM at its reset values; only a read in the first reset cycle stops. -/
theorem State.hostCycle_rst {s : State} {acc : Access} (hrst : s.rst = true)
    (hacc : s.resetSeen = true ∨ ∀ idx, acc ≠ .read idx) :
    ∃ t, s.hostCycle acc = .next t ∧ t.mwm = Mwm.reset ∧ t.resetSeen = true ∧
      (s.resetSeen = true → s.othersAdvance t) := by
  cases hseen : s.resetSeen with
  | true =>
    exact ⟨_, State.hostCycle_after hseen acc, State.mwmEdge_rst hrst _ _, hseen,
      fun _ => State.cycleWith_others hseen _ _⟩
  | false =>
    have hnoRead : ∀ idx, acc ≠ .read idx := hacc.resolve_left (by simp [hseen])
    exact ⟨_, State.hostCycle_firstReset hseen hrst hnoRead, rfl, rfl, fun h => by cases h⟩

/-! ## Acceptance -/

/-- An idle MWM that accepts a command with a micro-program is busy in the next cycle (R160). -/
theorem State.clkCycle_busy_of_accepted {s : State} (h : s.running) (hb : s.mwm.seq.busy = false) {v : Word}
    (hop : 1 ≤ (cmdOp v).toNat ∧ (cmdOp v).toNat ≤ 5) : (s.clkCycle (.write 0#3 v)).mwm.seq.busy = true := by
  obtain ⟨-, -, hmwm⟩ := State.hostCycle_of_accepted h hb v
  rw [hmwm, Mwm.accept_seq_program _ hop]
  rfl

/-- CMD reads back a word whose reserved bits are 0 as it was written (R23). -/
theorem cmdReadback_cmdWord (op : BitVec 3) (a d : Byte) : cmdReadback (cmdWord op a d) = cmdWord op a d := by
  rw [cmdReadback, cmdOp_cmdWord, cmdAddr_cmdWord, cmdData_cmdWord]

/-! ## The statements -/

/-- Settles O9: a host instruction and a step are both a cycle of some access, and the edge that ends it resets. -/
theorem resetEdgeWinsOverEverything : Obligations.ResetEdgeWinsOverEverything := by
  refine ⟨fun i s hi hseen hrst => ?_, fun s hrst hacc => ?_⟩
  · rw [exec_hostInstr i s hi]
    refine ⟨_, State.hostCycle_after hseen _, State.mwmEdge_rst hrst _ _, State.cycleWith_others hseen _ _, ?_⟩
    rintro idx rfl
    rfl
  · rw [step_eq_hostCycle]
    exact State.hostCycle_rst hrst hacc

/-- Settles O10: the table of R231 is about one closed state and is evaluated; a READ finds that MWM idle and is accepted. -/
theorem resetValues : Obligations.ResetValues := by
  refine ⟨by decide, by decide, fun s a d hrun hreset => ?_⟩
  have hidle : s.mwm.seq.busy = false := by rw [hreset]; rfl
  have hop : 1 ≤ (cmdOp (cmdWord 1#3 a d)).toNat ∧ (cmdOp (cmdWord 1#3 a d)).toNat ≤ 5 := by
    rw [cmdOp_cmdWord]; decide
  obtain ⟨hexec, -, -⟩ := State.hostCycle_of_accepted hrun hidle (cmdWord 1#3 a d)
  have hcmd := State.clkCycle_cmd_of_accepted hrun.2 hidle (cmdWord 1#3 a d)
  rw [cmdReadback_cmdWord] at hcmd
  exact ⟨_, hexec, State.clkCycle_busy_of_accepted hrun hidle hop, hcmd⟩

end Sys2Proof.Machine
end

section
/-! The encoding again (30_encoding.md): decoding an encoded instruction, encoding a decoded word, the table's examples. -/

namespace Sys2Proof

/-! ## Decoding an encoded instruction -/

/-- A read cycle decodes to its read (R112). -/
theorem decodeHostbus_busReadBits (idx : RegIdx) : decodeHostbus (busReadBits idx) = .rd idx := by
  revert idx; decide

/-- The READ frame of a cell decodes to it (R105). -/
theorem decodeWire9_frameRead (a : DevAddr) : decodeWire9 (0b110#3 ++ a) = .instr (.frameRead a) := by
  revert a; decide

/-- The WRITE frame of a cell decodes to it (R105). -/
theorem decodeWire9_frameWrite (a : DevAddr) : decodeWire9 (0b101#3 ++ a) = .instr (.frameWrite a) := by
  revert a; decide

/-- Decoding on bits, format by format. -/
theorem decode_encode (i : Instr) : decode (encode i) = .instr i := by
  cases i with
  | init a d | read a d | write a d | ewen a d | ewds a d | writeb a d | reserved6 a d | reserved7 a d =>
    rw [encode, decode, decodeCmd32, cmdOp_cmdWord, cmdAddr_cmdWord, cmdData_cmdWord]
    rfl
  | wr idx v => exact congrArg Decoded.instr (decodeHostbus_busWriteBits idx v)
  | rd idx => exact congrArg Decoded.instr (decodeHostbus_busReadBits idx)
  | frameRead a => exact decodeWire9_frameRead a
  | frameWrite a => exact decodeWire9_frameWrite a
  | frameEwen | frameEwds => rfl
  | frameData d => rfl

/-- The bytes of an instruction decode as its bits do. -/
theorem decodeBytes_encodeBytes (i : Instr) : decodeBytes (encodeBytes i) = decode (encode i) := by
  rw [decodeBytes, encodeBytes, rawOfBytes_bytes]

/-! ## Encoding a decoded word -/

/-- A CMD word put together from the fields of `w` is `w` with its reserved bits at 0 (R101, R103). -/
theorem cmdReadback_eq_and (w : Word) : cmdWord (cmdOp w) (cmdAddr w) (cmdData w) = w &&& 0x00FFFF07#32 := by
  have mask (i : Nat) (hi : i < 32) : (0x00FFFF07#32).getLsbD i = decide (i < 3 ∨ 8 ≤ i ∧ i < 24) := by
    revert i; decide
  refine BitVec.eq_of_getLsbD_eq fun i hi => ?_
  rw [cmdWord_bit, BitVec.getLsbD_and, mask i hi]
  simp only [cmdOp, cmdAddr, cmdData, BitVec.getLsbD_extractLsb']
  split_ifs with h3 h8 h16 h24
  · simp [h3]
  · simp [show ¬(i < 3 ∨ 8 ≤ i ∧ i < 24) by omega]
  · simp [show i - 8 < 8 by omega, show 8 + (i - 8) = i by omega, show i < 3 ∨ 8 ≤ i ∧ i < 24 by omega]
  · simp [show i - 16 < 8 by omega, show 16 + (i - 16) = i by omega, show i < 3 ∨ 8 ≤ i ∧ i < 24 by omega]
  · simp [show ¬(i < 3 ∨ 8 ≤ i ∧ i < 24) by omega]

/-- The eight CMD32 instructions encode to the word of their OP and fields. -/
theorem encode_decodeCmd32 (w : Word) :
    encode (decodeCmd32 w) = .cmd32 (cmdWord (cmdOp w) (cmdAddr w) (cmdData w)) := by
  unfold decodeCmd32
  rcases bits3_cases (cmdOp w) with h | h | h | h | h | h | h | h <;> rw [h] <;> rfl

/-- The bits of a write cycle are those it was decoded from (R112). -/
theorem busWriteBits_fields {w : BitVec 36} (h : w.getLsbD 35 = true) :
    busWriteBits (w.extractLsb' 32 3) (w.extractLsb' 0 32) = w := by
  refine BitVec.eq_of_getLsbD_eq fun i hi => ?_
  rw [busWriteBits_bit, BitVec.getLsbD_extractLsb', BitVec.getLsbD_extractLsb']
  split_ifs with h32 h35
  · simp [h32]
  · simp [h35, show 32 + (i - 32) = i by omega]
  · obtain rfl : i = 35 := by omega
    simpa using h.symm

/-- The bits of a read cycle are those it was decoded from, with the data bits at 0 (R112). -/
theorem busReadBits_fields {w : BitVec 36} (h : w.getLsbD 35 = false) :
    busReadBits (w.extractLsb' 32 3) = w &&& 0xF00000000#36 := by
  have mask (i : Nat) (hi : i < 36) : (0xF00000000#36).getLsbD i = decide (32 ≤ i) := by
    revert i; decide
  refine BitVec.eq_of_getLsbD_eq fun i hi => ?_
  rw [busReadBits_bit, BitVec.getLsbD_extractLsb', BitVec.getLsbD_and, mask i hi]
  split_ifs with h32 h35
  · simp [show ¬32 ≤ i by omega]
  · simp [h35, show 32 + (i - 32) = i by omega, show 32 ≤ i by omega]
  · obtain rfl : i = 35 := by omega
    rw [h]; rfl

/-- A decoded 9-bit frame encodes to the frame it was (R105). -/
theorem encode_of_decodeWire9 {w : BitVec 9} {i : Instr} (h : decodeWire9 w = .instr i) : encode i = .wire9 w := by
  unfold decodeWire9 at h
  split_ifs at h with hread hwrite hewen hewds <;> cases h
  · exact congrArg Raw.wire9 (Machine.wire9_of_opcode hread).symm
  · exact congrArg Raw.wire9 (Machine.wire9_of_opcode hwrite).symm
  · rw [hewen]; rfl
  · rw [hewds]; rfl

/-- The only error of a 9-bit frame is its own (R105). -/
theorem decodeWire9_error {w : BitVec 9} {e : DecodeError} (h : decodeWire9 w = .error e) : e = .unknownFrame := by
  unfold decodeWire9 at h
  split_ifs at h
  cases h
  rfl

/-! ## The statements -/

/-- Settles O1: on bits by the decoder's fields, on bytes because the bytes of a format spell its bits. -/
theorem decodeEncodeRoundTrip : Obligations.DecodeEncodeRoundTrip := fun i _ =>
  ⟨decode_encode i, (decodeBytes_encodeBytes i).trans (decode_encode i)⟩

/-- Settles O2, format by format. -/
theorem encodeDecodeCanonicalWord : Obligations.EncodeDecodeCanonicalWord := by
  refine ⟨fun w => ?_, fun w => ?_, fun w => ?_⟩
  · rw [encode_decodeCmd32, cmdReadback_eq_and]
  · cases h : w.getLsbD 35 with
    | true => rw [decodeHostbus, if_pos h, encode, busWriteBits_fields h]; rfl
    | false => rw [decodeHostbus, h, if_neg (by decide), encode, busReadBits_fields h, if_neg (by decide)]
  · cases h : decodeWire9 w with
    | instr i => exact .inl ⟨i, rfl, encode_of_decodeWire9 h⟩
    | error e => exact .inr (by rw [decodeWire9_error h])

/-- Settles O3: ten closed words, evaluated. -/
theorem writtenOutWordsDecode : Obligations.WrittenOutWordsDecode := by
  unfold Obligations.WrittenOutWordsDecode
  decide

/-- Settles O5: a decoded CMD word is the write of that very word, its reserved bits included. -/
theorem commandIsWriteOfCmd : Obligations.CommandIsWriteOfCmd := fun w s => Machine.exec_decodeCmd32 w s

end Sys2Proof
end

section
/-! Single cycles: what is fetched and what a step makes of it, the accept edge of the five commands, the edges at which a
frame is sent or received and a poll slot ends, what stops before the first reset, and what a running command depends on. -/

namespace Sys2Proof.Machine

/-! ## Fetch -/

/-- In an ordinary cycle without a host request the bits are the frame of the edge. -/
theorem State.fetch_of_running {s : State} (hreq : s.req = .idle) (h : s.running) :
    s.fetch = s.mwm.frameDue s.params := by
  obtain ⟨hseen, hrst⟩ := h
  simp [State.fetch, hreq, HostReq.raw, hseen, hrst]

/-- Where a byte is received, no frame is sent at the same edge: CS_OFF follows RECV8 (R161). -/
theorem Seq.sendDue_of_recvDue {p : Params} {b : Bool} {q : Seq} {d : Byte} (h : q.recvDue b = some d) :
    q.sendDue p = none := by
  unfold Seq.recvDue at h
  split at h
  · rename_i hends hop
    have hord := Seq.followingOp_order hop
    unfold Seq.sendDue
    split
    · rename_i hf
      rw [hf] at hord
      cases hord
    · rfl
  · cases h

theorem Mwm.frameDue_of_sendDue {p : Params} {m : Mwm} {r : Raw} (h : m.seq.sendDue p = some r) :
    m.frameDue p = some r := by
  rw [Mwm.frameDue, h]

theorem Mwm.frameDue_of_recvDue {p : Params} {m : Mwm} {d : Byte} (h : m.seq.recvDue m.sampleDO = some d) :
    m.frameDue p = some (.wire8 d) := by
  rw [Mwm.frameDue, Seq.sendDue_of_recvDue h, h]
  rfl

/-! ## The five commands at their accept edge -/

/-- A command with a micro-program, accepted: its registers, and CS_ON with C cycles to wait (R131, R160). -/
theorem State.clkCycle_mwm_of_program {s : State} (h : s.running) (hb : s.mwm.seq.busy = false) {op : BitVec 3}
    (hop : 1 ≤ op.toNat ∧ op.toNat ≤ 5) (a d : Byte) :
    (s.clkCycle (.write 0#3 (cmdWord op a d))).mwm = s.synced (s.mwm.host.accepted op a d)
      { s.mwm.acceptedSeq op a d with
        busy := true, upc := 0#4, csQ := true, dly := s.mwm.host.tCs.setWidth 17, phase := .hold } := by
  obtain ⟨-, -, hmwm⟩ := State.hostCycle_of_accepted h hb (cmdWord op a d)
  have hcmd := (cmdOp_cmdWord op a d).symm ▸ hop
  have hhost : ((s.mwm.latch (cmdWord op a d)).startCommand s.params).host = s.mwm.host.accepted op a d := by
    rw [Mwm.startCommand_host, Mwm.latch_cmdWord]
  obtain ⟨h0, h67⟩ := (op_hasProgram_iff _).mp hcmd
  rw [hmwm, Mwm.accept_seq_program _ hcmd, Mwm.accept_program _ h0 h67, hhost, Mwm.latch_cmdWord]
  simp only [Seq.startCsOn, Seq.wait, Seq.setCS, Mwm.acceptedSeq, BitVec.ofNat_toNat]

/-! ## The edges of frames -/

/-- The sequencer where the SEND of a frame starts, register by register (R135). -/
theorem Seq.beginFrame_eq (r : Raw) (q : Seq) :
    q.beginFrame r = { q with
      upc := q.upc + 1#4, shVal := frameBits r, bitIdx := BitVec.ofNat 4 (frameWidth r - 1)
      diQ := (frameBits r).getLsbD (frameWidth r - 1), dly := q.work.su.setWidth 17, phase := .setup } := by
  rw [← BitVec.ofNat_toNat]
  rfl

/-- The sequencer where RECV8 has taken its byte: CS_OFF follows it (R132, R139, R161). -/
theorem Seq.takeByte_eq (p : Params) (d : Byte) {q : Seq} (hf : q.followingOp = some .csOff) :
    q.takeByte p d = { q with
      acc := d, upc := q.upc + 1#4, csQ := false, diQ := false, dly := q.work.cs.setWidth 17, phase := .hold } := by
  rw [Seq.takeByte, Seq.finishOp_some (q := { q with acc := d }) hf, ← BitVec.ofNat_toNat]
  rfl

/-- A received byte is followed by CS_OFF (R161). -/
theorem Seq.followingOp_of_recvDue {b : Bool} {q : Seq} {d : Byte} (h : q.recvDue b = some d) :
    q.followingOp = some .csOff := by
  unfold Seq.recvDue at h
  split at h
  · rename_i hends hop
    have hord := Seq.followingOp_order hop
    cases hf : q.followingOp with
    | none => rw [hf] at hord; cases hord
    | some op => cases op <;> first | rfl | (rw [hf] at hord; cases hord)
  · cases h

/-- An ordinary cycle with a running command that goes on: the sequencer's registers are those of its edge. -/
theorem State.clkCycle_mwm_of_busy {s : State} (hrst : s.rst = false) (hb : s.mwm.seq.busy = true) {q : Seq}
    (hq : s.mwm.seq.edge s.params s.mwm.doS2 = q) (hgo : q.busy = true) (acc : Access) :
    (s.clkCycle acc).mwm = s.synced (s.mwm.hostEdge s.params acc).host q := by
  rw [State.clkCycle_mwm, State.mwmEdge_busy hrst hb, hq, if_pos hgo]

/-- The cycle at whose end the SEND of a due frame starts. -/
theorem State.clkCycle_mwm_of_sendDue {s : State} (hrst : s.rst = false) {r : Raw}
    (h : s.mwm.seq.sendDue s.params = some r) :
    (s.clkCycle s.portAccess).mwm = s.synced (s.mwm.hostEdge s.params s.portAccess).host (s.mwm.seq.beginFrame r) := by
  obtain ⟨hb, hedge⟩ := Seq.sendDue_edge (b := s.mwm.doS2) h
  exact State.clkCycle_mwm_of_busy hrst hb hedge hb _

/-- A frame that is due: the whole effect of its cycle. -/
theorem State.sendCycle_effect {s : State} (h : s.running) {r : Raw} (hr : s.mwm.seq.sendDue s.params = some r) :
    ∃ t, s.sendCycle r = .next t ∧ s.othersAdvance t ∧
      t.mwm = s.synced (s.mwm.hostEdge s.params s.portAccess).host { s.mwm.seq with
        upc := s.mwm.seq.upc + 1#4, shVal := frameBits r, bitIdx := BitVec.ofNat 4 (frameWidth r - 1)
        diQ := (frameBits r).getLsbD (frameWidth r - 1), dly := s.mwm.seq.work.su.setWidth 17, phase := .setup } := by
  obtain ⟨hseen, hrst⟩ := h
  refine ⟨s.clkCycle s.portAccess, State.sendCycle_of_due hseen hr, State.cycleWith_others hseen _ _, ?_⟩
  rw [State.clkCycle_mwm_of_sendDue hrst hr, Seq.beginFrame_eq]

/-- A frame that is not due is refused (log entry 11). -/
theorem State.sendCycle_refused {s : State} (h : s.resetSeen = true) {r : Raw}
    (hr : s.mwm.seq.sendDue s.params ≠ some r) : s.sendCycle r = .refused .frameNotDue := by
  simp [State.sendCycle, h, hr]

/-! ## Before the first reset (R47) -/

/-- A host access without `rst` is refused. -/
theorem State.hostCycle_refused {s : State} (hseen : s.resetSeen = false) (hrst : s.rst = false) {acc : Access}
    (hacc : acc ≠ .none) : s.hostCycle acc = .refused .beforeFirstReset := by
  cases acc with
  | none => exact absurd rfl hacc
  | read idx => simp [State.hostCycle, State.beforeReset, hseen, hrst]
  | write idx v => simp [State.hostCycle, State.beforeReset, hseen, hrst]

theorem State.sendCycle_refused_before_reset {s : State} (hseen : s.resetSeen = false) (r : Raw) :
    s.sendCycle r = .refused .beforeFirstReset := by
  simp [State.sendCycle, hseen]

theorem State.dataCycle_refused_before_reset {s : State} (hseen : s.resetSeen = false) (d : Byte) :
    s.dataCycle d = .refused .beforeFirstReset := by
  simp [State.dataCycle, State.sendCycle, hseen]

/-- Without `rst` every instruction is refused. -/
theorem exec_refused_before_reset {s : State} (hseen : s.resetSeen = false) (hrst : s.rst = false) (i : Instr) :
    exec i s = .refused .beforeFirstReset := by
  cases i with
  | init _ _ | read _ _ | write _ _ | ewen _ _ | ewds _ _ | writeb _ _ | reserved6 _ _ | reserved7 _ _ | wr _ _ | rd _ =>
    exact State.hostCycle_refused hseen hrst (by simp)
  | frameRead _ | frameWrite _ | frameEwen | frameEwds => exact State.sendCycle_refused_before_reset hseen _
  | frameData d => exact State.dataCycle_refused_before_reset hseen d

/-! ## The end of a poll slot (R141, R142) -/

theorem nextSlot_toNat (w : Word) : (nextSlot w).toNat = min (w.toNat + 1) 0xFFFFFFFF := by
  unfold nextSlot
  split
  · rename_i h; subst h; rfl
  · rename_i h
    have : w.toNat ≠ 0xFFFFFFFF := fun hw => h (BitVec.eq_of_toNat_eq hw)
    bv_omega

/-- CS_OFF follows POLL (R164, R168). -/
theorem Seq.followingOp_of_poll {q : Seq} {bounded : Bool} (h : q.currentOp = some (.poll bounded)) :
    q.followingOp = some .csOff := by
  have hord := Seq.followingOp_order h
  cases hf : q.followingOp with
  | none => rw [hf] at hord; cases hord
  | some op => cases op <;> first | rfl | (rw [hf] at hord; cases hord)

/-- The three outcomes of a slot's last edge: success, timeout, the next slot. -/
theorem Seq.actPoll_low {p : Params} {bounded b : Bool} {q : Seq} (h : q.currentOp = some (.poll bounded))
    (hp : q.phase = .low) :
    q.actPoll p bounded b =
      if b then { q.countSlot with upc := q.upc + 1#4 }.startCsOff
      else if bounded && nextSlot q.slotCtr == q.work.pmax then
        { q.countSlot.pollTimesOut with upc := q.upc + 1#4 }.startCsOff
      else q.countSlot.startSlot := by
  have hf := Seq.followingOp_of_poll h
  have h1 : q.countSlot.finishOp p = { q.countSlot with upc := q.upc + 1#4 }.startCsOff :=
    Seq.finishOp_some (q := q.countSlot) hf
  have h2 : q.countSlot.pollTimesOut.finishOp p = { q.countSlot.pollTimesOut with upc := q.upc + 1#4 }.startCsOff :=
    Seq.finishOp_some (q := q.countSlot.pollTimesOut) hf
  simp only [Seq.actPoll, hp, h1, h2]
  rfl

/-! ## What a running command depends on (R39, R211) -/

/-- The environment after a cycle depends on the MWM through its sequencer only: the pins, `busy` and the working copies. -/
theorem Env.observe_congr {m m' : Mwm} (h : m.seq = m'.seq) (e : Env) (p : Params) (c : Nat) :
    e.observe p m c = e.observe p m' c := by
  have hfast : m.tooFast e.minima = m'.tooFast e.minima := by rw [Mwm.tooFast, Mwm.tooFast, h]
  have hwriting : e.writing m = e.writing m' := by rw [Env.writing, Env.writing, h]
  have hn : e.nextConduct m = e.nextConduct m' := by
    unfold Env.nextConduct
    rw [hfast, hwriting]
  simp only [Env.observe, Env.observeDevice, hn, Mwm.csPin, Mwm.clkPin, Mwm.diPin, h]

/-- So does the level it drives. -/
theorem Env.drive_congr {m m' : Mwm} (h : m.seq = m'.seq) (e : Env) (p : Params) (c : Nat) :
    e.drive p m c = e.drive p m' c := by
  simp only [Env.drive, Env.driveDevice, Mwm.csPin, h]

/-- Of two different levels, every level is one. -/
theorem bool_eq_or_eq : ∀ {x y : Bool}, x ≠ y → ∀ z, z = x ∨ z = y := by decide

/-! ## The statements -/

/-- Settles O7: `step` runs what it decodes, and each of the four sources of bits is fetched. -/
theorem stepRunsDecodedInstruction : Obligations.StepRunsDecodedInstruction := by
  refine ⟨fun s r i hf hd _ => ?_, fun s rst rest w hs => ?_, fun s rst rest b hs => ?_, fun s r hreq hrun hdue => ?_,
    fun s d hreq hrun hdue => ?_⟩
  · simp only [step, hf, hd]
  · simp [State.fetch, State.req, hs, HostReq.raw]
  · simp [State.fetch, State.req, hs, HostReq.raw]
  · rw [State.fetch_of_running hreq hrun, Mwm.frameDue_of_sendDue hdue]
  · rw [State.fetch_of_running hreq hrun, Mwm.frameDue_of_recvDue hdue]

/-- Settles O8: a fetched frame's cycle is the ordinary one too. -/
theorem everyStepIsOneCycle : Obligations.EveryStepIsOneCycle := fun _ hseen => step_eq_clkCycle hseen

/-- Settles O13: the outcomes of a cycle before the first reset, one by one. -/
theorem nothingObservedBeforeReset : Obligations.NothingObservedBeforeReset := by
  intro s hseen
  refine ⟨fun idx => ?_, fun hrst => exec_refused_before_reset hseen hrst, fun hrst hreq => ?_, fun hrst idx v => ?_⟩
  · show s.hostCycle (.read idx) = _
    cases hrst : s.rst <;> simp [State.hostCycle, State.beforeReset, hseen, hrst]
  · have hacc : s.portAccess = .none := by simp [State.portAccess, hreq]
    rw [step_eq_hostCycle, hacc]
    simp [State.hostCycle, State.beforeReset, hseen, hrst]
  · exact ⟨_, State.hostCycle_firstReset hseen hrst (by simp), rfl, rfl⟩

/-- Settles O21: the five are one accepted word each, with their own OP. -/
theorem commandsStartWithCsOn : Obligations.CommandsStartWithCsOn := by
  intro a d s hrun hb
  have started {op : BitVec 3} (hop : 1 ≤ op.toNat ∧ op.toNat ≤ 5) :
      ∃ t, s.hostCycle (.write 0#3 (cmdWord op a d)) = .next t ∧ s.othersAdvance t ∧
        t.mwm = s.synced (s.mwm.host.accepted op a d) { s.mwm.acceptedSeq op a d with
          busy := true, upc := 0#4, csQ := true, dly := s.mwm.host.tCs.setWidth 17, phase := .hold } :=
    ⟨_, State.hostCycle_after hrun.1 _, State.cycleWith_others hrun.1 _ _, State.clkCycle_mwm_of_program hrun hb hop a d⟩
  exact ⟨started (by decide), started (by decide), started (by decide), started (by decide), started (by decide)⟩

/-- Settles O26: each of the five frames is the cycle that starts its SEND. -/
theorem framesStartTheirSend : Obligations.FramesStartTheirSend := by
  intro s hrun
  refine ⟨fun a h => State.sendCycle_effect hrun h, fun a h => State.sendCycle_effect hrun h,
    fun h => State.sendCycle_effect hrun h, fun h => State.sendCycle_effect hrun h, fun d h => ?_⟩
  obtain ⟨t, ht, hothers, hmwm⟩ := State.sendCycle_effect hrun h
  refine ⟨t, ?_, hothers, hmwm⟩
  rw [← ht, State.sendCycle_of_due hrun.1 h]
  exact State.dataCycle_of_due hrun.1 h

/-- Settles O27: RECV8 is followed by CS_OFF, so the edge takes the byte and deasserts CS. -/
theorem dataFrameReceived : Obligations.DataFrameReceived := by
  intro s d ⟨hseen, hrst⟩ hdue
  obtain ⟨hb, hd, hedge⟩ := Seq.recvDue_edge (p := s.params) hdue
  rw [Seq.takeByte_eq s.params d (Seq.followingOp_of_recvDue hdue)] at hedge
  exact ⟨hd, _, State.dataCycle_of_received hseen hdue, State.cycleWith_others hseen _ _,
    State.clkCycle_mwm_of_busy hrst hb hedge hb _⟩

/-- Settles O28, frame by frame. -/
theorem frameNotDueIsRefused : Obligations.FrameNotDueIsRefused := by
  intro s hseen
  refine ⟨fun a h => State.sendCycle_refused hseen h, fun a h => State.sendCycle_refused hseen h,
    fun h => State.sendCycle_refused hseen h, fun h => State.sendCycle_refused hseen h, fun d hsend hrecv => ?_⟩
  show s.dataCycle d = _
  rw [State.dataCycle, if_neg fun h => hrecv h.2, State.sendCycle_refused hseen hsend]

/-- Settles O29: the three outcomes of the slot's last edge. -/
theorem pollSlotEnds : Obligations.PollSlotEnds := by
  intro s bounded ⟨hseen, hrst⟩ hb hop hp hd
  have hedge : s.mwm.seq.edge s.params s.mwm.doS2 = s.mwm.seq.actPoll s.params bounded s.mwm.doS2 := by
    rw [Seq.edge_act hd, Seq.act, hop]
  have hseq : (s.clkCycle s.portAccess).mwm.seq = s.mwm.seq.actPoll s.params bounded s.mwm.doS2 :=
    (State.seq_clkCycle hrst hb _).trans hedge
  refine ⟨s.clkCycle s.portAccess, step_eq_clkCycle hseen, ?_⟩
  have hctr : (s.clkCycle s.portAccess).mwm.seq.slotCtr = nextSlot s.mwm.seq.slotCtr := by
    rw [hseq, Seq.actPoll_low hop hp]
    split_ifs <;> rfl
  refine ⟨by rw [hctr, nextSlot_toNat], fun hone => ?_, fun hzero hbound hlast => ?_, fun hzero hmore => ?_⟩
  · rw [hseq, Seq.actPoll_low hop hp, if_pos hone]
    exact ⟨rfl, rfl, rfl, rfl⟩
  · rw [hctr] at hlast
    rw [hseq, Seq.actPoll_low hop hp, hzero, if_neg (by decide), if_pos (by simp [hbound, hlast])]
    exact ⟨rfl, rfl, rfl, rfl⟩
  · rw [hctr] at hmore
    have hno : ¬(bounded && nextSlot s.mwm.seq.slotCtr == s.mwm.seq.work.pmax) = true := by simpa using hmore
    rw [hseq, Seq.actPoll_low hop hp, hzero, if_neg (by decide), if_neg hno]
    exact ⟨rfl, rfl, rfl, BitVec.ofNat_toNat _ _, rfl, rfl, rfl⟩

/-- Settles O41: the running sequencer takes its edge from itself and `do_s2`, and the environment sees the sequencer only. -/
theorem hostCannotDisturbRunningCommand : Obligations.HostCannotDisturbRunningCommand := by
  intro s s' acc acc' ⟨hseen, hrst⟩ ⟨hseen', hrst'⟩ hb hp he hc hq hs1 hs2
  have hb' : s'.mwm.seq.busy = true := hq ▸ hb
  have hobs : s.env.observe s.params s.mwm s.cycle = s'.env.observe s'.params s'.mwm s'.cycle := by
    rw [he, hp, hc, Env.observe_congr hq]
  have hpin : s.doPin = s'.doPin := by
    rw [State.doPin, State.doPin, hobs, hp, hc, Env.drive_congr hq]
  obtain ⟨h1, h2⟩ := State.clkCycle_sync hrst acc
  obtain ⟨h1', h2'⟩ := State.clkCycle_sync hrst' acc'
  refine ⟨_, _, State.hostCycle_after hseen acc, State.hostCycle_after hseen' acc', ?_, ?_, ?_, ?_⟩
  · rw [State.clkCycle_env, State.clkCycle_env, hobs, hpin]
  · rw [State.seq_clkCycle hrst hb, State.seq_clkCycle hrst' hb', hq, hp, hs2]
  · rw [h1, h1', State.doIn, State.doIn, he, hc, hpin]
  · rw [h2, h2', hs1]

/-- Settles O44: the synchronizer takes what `resolve` answers, the pin or the level before it. -/
theorem metastableSampleIsOldOrNew : Obligations.MetastableSampleIsOldOrNew := by
  intro s t ⟨hseen, hrst⟩ ht
  obtain rfl := Host.Outcome.next.inj ((step_eq_clkCycle hseen).symm.trans ht)
  obtain ⟨hS1, hS2⟩ := State.clkCycle_sync hrst s.portAccess
  refine ⟨?_, hS2, rfl, fun hsync => hS1.trans (State.doIn_of_synchronous hsync)⟩
  rw [hS1, State.doIn, Env.resolve]
  split
  · rename_i hchange
    obtain ⟨-, hne⟩ : s.env.asyncDo = true ∧ s.doPin ≠ s.env.doPrev := by simpa using hchange
    exact bool_eq_or_eq hne _
  · exact .inl rfl

end Sys2Proof.Machine
end

section
/-! The invariant of the machine (10_state.md R46): what an action of a legal running sequencer can be, and from it that every
step keeps the invariant, that chip-select changes only at CS_ON and CS_OFF, and that the line events are the changes of the
lines. -/

namespace Sys2Proof.Machine

/-! ## Where a micro-op starts -/

/-- The line registers of a sequencer. -/
def Seq.lines (q : Seq) : Lines := ⟨q.csQ, q.clkQ, q.diQ⟩

theorem Mwm.lines_eq (m : Mwm) : m.lines = m.seq.lines := rfl

/-- The levels that a micro-op finds at its start edge (R46, R131 to R142). -/
def MicroOp.startsFrom (l : Lines) : MicroOp → Prop
  | .csOn => l.cs = false ∧ l.clk = false ∧ l.di = false
  | .csOff => l.cs = true ∧ l.clk = false
  | .send _ => l.cs = true ∧ l.clk = false
  | .recv8 => l.cs = true ∧ l.clk = false
  | .poll _ => l.cs = true ∧ l.clk = false ∧ l.di = false

/-- Where a micro-op follows, it is the current one once `upc` has advanced. -/
theorem Seq.advance_currentOp {q : Seq} {op : MicroOp} (h : q.followingOp = some op) :
    { q with upc := q.upc + 1#4 }.currentOp = some op := by
  have hupc := Seq.upc_succ h
  show (microProgram q.work.op)[(q.upc + 1#4).toNat]? = some op
  rw [hupc]
  exact h

theorem Seq.startOp_currentOp (p : Params) (q : Seq) (op : MicroOp) : (q.startOp p op).currentOp = q.currentOp := by
  rw [Seq.currentOp, Seq.startOp_work, Seq.startOp_upc, Seq.currentOp]

theorem Seq.startOp_slotCtr (p : Params) (q : Seq) (op : MicroOp) : (q.startOp p op).slotCtr = q.slotCtr := by
  cases op <;> rfl

theorem Seq.startOp_timedOut (p : Params) (q : Seq) (op : MicroOp) : (q.startOp p op).timedOut = q.timedOut := by
  cases op <;> rfl

/-- A micro-op that ends with CLK low leaves the levels that the next one starts from. -/
theorem Seq.opLegal_startsFrom {p : Params} {q : Seq} {c op : MicroOp} (h : q.opLegal p) (hc : q.currentOp = some c)
    (hclk : q.clkQ = false) (hnext : q.followingOp = some op) : op.startsFrom q.lines := by
  have hord := Seq.followingOp_order hc
  rw [hnext] at hord
  rw [Seq.opLegal, hc] at h
  cases c with
  | csOn =>
    obtain ⟨-, hcs, -, hdi⟩ := h
    cases op with
    | send src => exact ⟨hcs, hclk⟩
    | poll bounded => exact ⟨hcs, hclk, hdi⟩
    | _ => cases hord
  | csOff =>
    obtain ⟨-, hcs, -, hdi⟩ := h
    cases op with
    | csOn => exact ⟨hcs, hclk, hdi⟩
    | _ => cases hord
  | send src =>
    obtain ⟨⟨hcs, -⟩, -⟩ := h
    cases op with
    | send _ | recv8 | csOff => exact ⟨hcs, hclk⟩
    | _ => cases hord
  | recv8 =>
    obtain ⟨⟨hcs, -⟩, -⟩ := h
    cases op with
    | csOff => exact ⟨hcs, hclk⟩
    | _ => cases hord
  | poll bounded =>
    obtain ⟨hcs, -⟩ := h
    cases op with
    | csOff => exact ⟨hcs, hclk⟩
    | _ => cases hord

/-! ## What an action can be -/

/-- What the action of a running sequencer can be, with its line events: the micro-op ends, with CLK low, and leaves at most
a sample and the poll's two results behind; or CLK rises or falls in a cell or a slot; or the next cell or slot starts. -/
inductive Seq.Acts (p : Params) (b : Bool) (q : Seq) : List LineEvent → Seq → Prop where
  | ends (c : MicroOp) (r : Seq) (sampled : List LineEvent) (hc : q.currentOp = some c) (hclk : q.clkQ = false)
      (hr : r = { q with acc := r.acc, slotCtr := r.slotCtr, timedOut := r.timedOut })
      (hpoll : (∀ bounded, c ≠ .poll bounded) → r.slotCtr = q.slotCtr ∧ r.timedOut = q.timedOut)
      (htimed : r.timedOut = true → q.timedOut = true ∨ c = .poll true)
      (hsampled : sampled = [] ∨ sampled = [.sample b]) :
      Acts p b q (sampled ++ q.finishEvents p) (r.finishOp p)
  | rises (hc : (∃ src, q.currentOp = some (.send src)) ∨ q.currentOp = some .recv8) (hp : q.phase = .setup) :
      Acts p b q [.clkUp] q.clkRise
  | falls (hc : (∃ src, q.currentOp = some (.send src)) ∨ q.currentOp = some .recv8) (hp : q.phase = .high) :
      Acts p b q [.clkDown] q.clkFall
  | fallsInSlot (bounded : Bool) (hc : q.currentOp = some (.poll bounded)) (hp : q.phase = .high) :
      Acts p b q (if q.work.pclk then [.clkDown] else []) q.clkFall
  | nextSendCell (src : FrameSrc) (hc : q.currentOp = some (.send src)) (hp : q.phase = .low) (hi : q.bitIdx ≠ 0#4) :
      Acts p b q [.di (q.shVal.getLsbD (q.bitIdx.toNat - 1))] (q.startSendCell (q.bitIdx.toNat - 1))
  | nextRecvCell (hc : q.currentOp = some .recv8) (hp : q.phase = .low) (hj : q.cell ≠ 7#4) :
      Acts p b q [.sample b] ((q.sampleBit b).startRecvCell (q.cell.toNat + 1))
  | nextSlot (bounded : Bool) (hc : q.currentOp = some (.poll bounded)) (hp : q.phase = .low)
      (hmore : bounded = true → q.countSlot.slotCtr ≠ q.work.pmax) :
      Acts p b q (.sample b :: if q.work.pclk then [.clkUp] else []) q.countSlot.startSlot

/-- The action of a SEND. -/
theorem Seq.actSend_acts {p : Params} {b : Bool} {q : Seq} {src : FrameSrc} (hc : q.currentOp = some (.send src))
    (hcell : q.cellLegal) : q.Acts p b (q.sendActEvents p) (q.actSend p) := by
  obtain ⟨-, hphase, hclk⟩ := hcell
  rcases hphase with hp | hp | hp
  · simp only [Seq.sendActEvents, Seq.actSend, hp]
    exact .rises (.inl ⟨src, hc⟩) hp
  · simp only [Seq.sendActEvents, Seq.actSend, hp]
    exact .falls (.inl ⟨src, hc⟩) hp
  · simp only [Seq.sendActEvents, Seq.actSend, hp]
    split
    · exact .ends (.send src) q [] hc (by simp [hclk, hp]) rfl (fun _ => ⟨rfl, rfl⟩) .inl (.inl rfl)
    · exact .nextSendCell src hc hp ‹_›

/-- The action of RECV8. -/
theorem Seq.actRecv8_acts {p : Params} {b : Bool} {q : Seq} (hc : q.currentOp = some .recv8) (hcell : q.cellLegal) :
    q.Acts p b (q.recvActEvents p b) (q.actRecv8 p b) := by
  obtain ⟨-, hphase, hclk⟩ := hcell
  rcases hphase with hp | hp | hp
  · simp only [Seq.recvActEvents, Seq.actRecv8, hp]
    exact .rises (.inr hc) hp
  · simp only [Seq.recvActEvents, Seq.actRecv8, hp]
    exact .falls (.inr hc) hp
  · simp only [Seq.recvActEvents, Seq.actRecv8, hp]
    split
    · exact .ends .recv8 (q.sampleBit b) [.sample b] hc (by simp [hclk, hp]) rfl (fun _ => ⟨rfl, rfl⟩) .inl (.inr rfl)
    · exact .nextRecvCell hc hp ‹_›

/-- The action of a POLL. -/
theorem Seq.actPoll_acts {p : Params} {bounded b : Bool} {q : Seq} (hc : q.currentOp = some (.poll bounded))
    (hphase : q.phase = .high ∨ q.phase = .low) (hclk : q.clkQ = (decide (q.phase = .high) && q.work.pclk)) :
    q.Acts p b (q.pollActEvents p bounded b) (q.actPoll p bounded b) := by
  rcases hphase with hp | hp
  · simp only [Seq.pollActEvents, Seq.actPoll, hp]
    exact .fallsInSlot bounded hc hp
  · have hlow : q.clkQ = false := by simp [hclk, hp]
    have notPoll {P : Prop} : (∀ x, MicroOp.poll bounded ≠ .poll x) → P := fun h => absurd rfl (h bounded)
    simp only [Seq.pollActEvents, Seq.actPoll, hp]
    split
    · exact .ends (.poll bounded) q.countSlot [.sample b] hc hlow rfl notPoll .inl (.inr rfl)
    · split
      · rename_i hlast
        obtain ⟨rfl, -⟩ : bounded = true ∧ q.countSlot.slotCtr = q.work.pmax := by simpa using hlast
        exact .ends (.poll true) q.countSlot.pollTimesOut [.sample b] hc hlow rfl notPoll (fun _ => .inr rfl) (.inr rfl)
      · rename_i hmore
        exact .nextSlot bounded hc hp (by simpa using hmore)

/-- The action of a legal running sequencer is one of these. -/
theorem Seq.act_acts {p : Params} (b : Bool) {q : Seq} (h : q.opLegal p) :
    q.Acts p b (q.actEvents p b) (q.act p b) := by
  unfold Seq.actEvents Seq.act
  cases hc : q.currentOp with
  | none => rw [Seq.opLegal, hc] at h; exact h.elim
  | some c =>
    rw [Seq.opLegal, hc] at h
    cases c with
    | csOn => exact .ends .csOn q [] hc h.2.2.1 rfl (fun _ => ⟨rfl, rfl⟩) .inl (.inl rfl)
    | csOff => exact .ends .csOff q [] hc h.2.2.1 rfl (fun _ => ⟨rfl, rfl⟩) .inl (.inl rfl)
    | send src => exact Seq.actSend_acts hc h.1
    | recv8 => exact Seq.actRecv8_acts hc h.1
    | poll bounded =>
      obtain ⟨-, -, hphase, hclk, -⟩ := h
      exact Seq.actPoll_acts hc hphase hclk

/-! ## The sequencer's part of the invariant -/

/-- A start edge waits at least one cycle and no longer than its phase, where the working timing is legal. -/
theorem Seq.startOp_wait {p : Params} {q : Seq} (hw : q.work.Legal) (op : MicroOp) :
    1 ≤ (q.startOp p op).dly.toNat ∧ (q.startOp p op).dly.toNat ≤ (q.startOp p op).phaseCycles := by
  obtain ⟨hth, hsu, hcs, -⟩ := hw
  have hth' : q.work.th.toNat < 2 ^ 16 := q.work.th.isLt
  have hsu' : q.work.su.toNat < 2 ^ 8 := q.work.su.isLt
  have hcs' : q.work.cs.toNat < 2 ^ 8 := q.work.cs.isLt
  have wait {n : Nat} (h1 : 1 ≤ n) (hn : n < 2 ^ 17) : 1 ≤ (BitVec.ofNat 17 n).toNat ∧ (BitVec.ofNat 17 n).toNat ≤ n := by
    rw [BitVec.toNat_ofNat, Nat.mod_eq_of_lt hn]
    exact ⟨h1, Nat.le_refl n⟩
  cases op with
  | csOn | csOff => exact wait hcs (by omega)
  | send _ | recv8 => exact wait hsu (by omega)
  | poll _ => exact wait (by omega) (by omega)

/-- A frame has at least one bit and no more than `bit_idx` can count. -/
theorem FrameSrc.frameWidth_pos (p : Params) (w : Work) (src : FrameSrc) :
    1 ≤ frameWidth (src.raw p w) ∧ frameWidth (src.raw p w) ≤ 9 := by
  have width : frameWidth (src.raw p w) = 9 ∨ frameWidth (src.raw p w) = 8 := by
    cases src with
    | data => exact .inr rfl
    | _ => exact .inl rfl
  omega

/-- A micro-op that starts from its levels is legal from its first edge on. -/
theorem Seq.startOp_opLegal {p : Params} {q : Seq} {op : MicroOp} (hw : q.work.Legal) (hop : q.currentOp = some op)
    (hl : op.startsFrom q.lines) (hctr : q.upc.toNat = 8 → q.slotCtr = 0#32) : (q.startOp p op).opLegal p := by
  have hcur : (q.startOp p op).currentOp = some op := (Seq.startOp_currentOp p q op).trans hop
  rw [Seq.opLegal, hcur]
  cases op with
  | csOn =>
    obtain ⟨-, hclk, hdi⟩ := hl
    exact ⟨rfl, rfl, hclk, hdi⟩
  | csOff =>
    obtain ⟨-, hclk⟩ := hl
    exact ⟨rfl, rfl, hclk, rfl⟩
  | send src =>
    obtain ⟨hcs, hclk⟩ := hl
    obtain ⟨h1, h9⟩ := FrameSrc.frameWidth_pos p q.work src
    have hidx : (BitVec.ofNat 4 (frameWidth (src.raw p q.work) - 1)).toNat = frameWidth (src.raw p q.work) - 1 := by
      rw [BitVec.toNat_ofNat, Nat.mod_eq_of_lt (by omega)]
    refine ⟨⟨hcs, .inl rfl, hclk⟩, rfl, ?_, ?_⟩
    · show (BitVec.ofNat 4 (frameWidth (src.raw p q.work) - 1)).toNat < frameWidth (src.raw p q.work)
      omega
    · show (frameBits (src.raw p q.work)).getLsbD (frameWidth (src.raw p q.work) - 1) =
        (frameBits (src.raw p q.work)).getLsbD (BitVec.ofNat 4 (frameWidth (src.raw p q.work) - 1)).toNat
      rw [hidx]
  | recv8 =>
    obtain ⟨hcs, hclk⟩ := hl
    exact ⟨⟨hcs, .inl rfl, hclk⟩, Nat.zero_lt_succ 7⟩
  | poll bounded =>
    obtain ⟨hcs, -, hdi⟩ := hl
    obtain ⟨-, -, -, hpmax⟩ := hw
    have hplace := Seq.currentOp_placed hop
    obtain ⟨h8, -⟩ : q.upc = 8#4 ∧ bounded = decide (q.work.op = 5#3) := by simpa [MicroOp.placedAt] using hplace
    refine ⟨hcs, hdi, .inl rfl, rfl, fun _ => ?_⟩
    show q.slotCtr.toNat < q.work.pmax.toNat
    rw [hctr (by rw [h8]; rfl)]
    exact hpmax

/-- Where a micro-op ends, the next one runs legally from its start edge on, or the command is over and all is idle. -/
theorem Seq.ends_legal {p : Params} {q r : Seq} {c : MicroOp} (h : q.runLegal p) (hb : q.busy = true)
    (hc : q.currentOp = some c) (hclk : q.clkQ = false)
    (hr : r = { q with acc := r.acc, slotCtr := r.slotCtr, timedOut := r.timedOut })
    (hpoll : (∀ bounded, c ≠ .poll bounded) → r.slotCtr = q.slotCtr ∧ r.timedOut = q.timedOut) :
    if (r.finishOp p).busy then (r.finishOp p).runLegal p else (r.finishOp p).idleLegal := by
  obtain ⟨hw, -, -, hop, hbefore, hat⟩ := h
  have hwork : r.work = q.work := by rw [hr]
  have hupc : r.upc = q.upc := by rw [hr]
  have hlines : r.lines = q.lines := by rw [hr]; rfl
  have hfol : r.followingOp = q.followingOp := by rw [Seq.followingOp, hwork, hupc, Seq.followingOp]
  cases hnext : r.followingOp with
  | none =>
    rw [Seq.finishOp_none hnext]
    have hlast := Seq.currentOp_of_last hop (hfol.symm.trans hnext)
    obtain ⟨hcs, -, hdi⟩ := Seq.csOff_lines hop hlast
    have hl : q.lines = ⟨false, false, false⟩ := by rw [Seq.lines, hcs, hclk, hdi]
    rw [hl] at hlines
    obtain ⟨hcs', hclk', hdi'⟩ : r.csQ = false ∧ r.clkQ = false ∧ r.diQ = false := by simpa [Seq.lines] using hlines
    exact ⟨hcs', hclk', hdi', rfl, rfl, rfl⟩
  | some op =>
    have hadv := Seq.advance_currentOp hnext
    have hsucc := Seq.upc_succ hnext
    -- The poll stands at 8, so before it the poll's two results are still clear.
    have hctr : (r.upc + 1#4).toNat ≤ 8 → r.slotCtr = 0#32 ∧ r.timedOut = false := by
      intro h8
      have hlt : q.upc.toNat < 8 := by rw [← hupc]; omega
      obtain ⟨h1, h2⟩ := hpoll fun bounded hcb => by
        have hplace := Seq.currentOp_placed hc
        rw [hcb] at hplace
        obtain ⟨h8', -⟩ : q.upc = 8#4 ∧ bounded = decide (q.work.op = 5#3) := by simpa [MicroOp.placedAt] using hplace
        rw [h8'] at hlt
        exact absurd hlt (by decide)
      rw [h1, h2]
      exact hbefore hlt
    have hstart : op.startsFrom r.lines := hlines ▸ Seq.opLegal_startsFrom hop hc hclk (hfol ▸ hnext)
    rw [Seq.finishOp_some hnext, if_pos (by rw [Seq.startOp_busy, hr]; exact hb)]
    have hw' : { r with upc := r.upc + 1#4 }.work.Legal := by rw [← hwork] at hw; exact hw
    obtain ⟨hd1, hd2⟩ := Seq.startOp_wait (p := p) hw' op
    refine ⟨by rw [Seq.startOp_work]; exact hw', hd1, hd2,
      Seq.startOp_opLegal hw' hadv hstart fun h8 => (hctr (Nat.le_of_eq h8)).1, ?_, ?_⟩
    · rw [Seq.startOp_upc, Seq.startOp_slotCtr, Seq.startOp_timedOut]
      exact fun h8 => hctr (Nat.le_of_lt h8)
    · rw [Seq.startOp_upc, Seq.startOp_timedOut]
      exact fun h8 => (hctr (Nat.le_of_eq h8)).2

/-- `slot_ctr` below `w_pmax` stays below it where the next slot of a bounded poll starts (R142). -/
theorem nextSlot_lt {ctr pmax : Word} (h : ctr.toNat < pmax.toNat) (hne : nextSlot ctr ≠ pmax) :
    (nextSlot ctr).toNat < pmax.toNat := by
  have hmax := pmax.isLt
  have hne' : (nextSlot ctr).toNat ≠ pmax.toNat := fun hc => hne (BitVec.eq_of_toNat_eq hc)
  rw [nextSlot_toNat] at hne' ⊢
  omega

/-- Within a cell CLK rises and falls; whatever else the micro-op needs stays as it is. -/
theorem Seq.cell_opLegal {p : Params} {q q' : Seq} (h : q.opLegal p)
    (hc : (∃ src, q.currentOp = some (.send src)) ∨ q.currentOp = some .recv8)
    (hq : q' = { q with clkQ := q'.clkQ, dly := q'.dly, phase := q'.phase })
    (hphase : q'.phase = .setup ∨ q'.phase = .high ∨ q'.phase = .low) (hclk : q'.clkQ = decide (q'.phase = .high)) :
    q'.opLegal p := by
  have hcur : q'.currentOp = q.currentOp := by rw [hq]; rfl
  rw [Seq.opLegal] at h ⊢
  rw [hcur]
  rcases hc with ⟨src, hc⟩ | hc <;> rw [hc] at h ⊢ <;> obtain ⟨⟨hcs, -⟩, hrest⟩ := h
  · refine ⟨⟨?_, hphase, hclk⟩, ?_⟩ <;> rw [hq]
    exacts [hcs, hrest]
  · refine ⟨⟨?_, hphase, hclk⟩, ?_⟩ <;> rw [hq]
    exacts [hcs, hrest]

/-- The next cell of a SEND presents the next bit of its frame. -/
theorem Seq.startSendCell_opLegal {p : Params} {q : Seq} {src : FrameSrc} (h : q.opLegal p)
    (hc : q.currentOp = some (.send src)) (hp : q.phase = .low) : (q.startSendCell (q.bitIdx.toNat - 1)).opLegal p := by
  have hcur : (q.startSendCell (q.bitIdx.toNat - 1)).currentOp = some (.send src) := hc
  rw [Seq.opLegal, hc] at h
  obtain ⟨⟨hcs, -, hclk⟩, hframe, hidx, -⟩ := h
  have hidx16 : q.bitIdx.toNat < 16 := q.bitIdx.isLt
  have hless : (BitVec.ofNat 4 (q.bitIdx.toNat - 1)).toNat = q.bitIdx.toNat - 1 := by
    rw [BitVec.toNat_ofNat, Nat.mod_eq_of_lt (by omega)]
  rw [Seq.opLegal, hcur]
  refine ⟨⟨hcs, .inl rfl, by simp [hclk, hp]⟩, hframe, ?_, ?_⟩
  · rw [Seq.startSendCell_bitIdx, hless, Seq.startSendCell_work]
    omega
  · rw [Seq.startSendCell_bitIdx, hless]
    rfl

/-- The next cell of RECV8 is one of its eight. -/
theorem Seq.startRecvCell_opLegal {p : Params} {q : Seq} (b : Bool) (h : q.opLegal p) (hc : q.currentOp = some .recv8)
    (hp : q.phase = .low) (hj : q.cell ≠ 7#4) : ((q.sampleBit b).startRecvCell (q.cell.toNat + 1)).opLegal p := by
  have hcur : ((q.sampleBit b).startRecvCell (q.cell.toNat + 1)).currentOp = some .recv8 := hc
  rw [Seq.opLegal, hc] at h
  obtain ⟨⟨hcs, -, hclk⟩, hcell⟩ := h
  have hne : q.cell.toNat ≠ 7 := fun h7 => hj (BitVec.eq_of_toNat_eq h7)
  rw [Seq.opLegal, hcur]
  refine ⟨⟨hcs, .inl rfl, by simp [hclk, hp]⟩, ?_⟩
  rw [Seq.startRecvCell_cell, BitVec.toNat_ofNat, Nat.mod_eq_of_lt (by omega)]
  omega

/-- Within a slot CLK falls. -/
theorem Seq.slotFall_opLegal {p : Params} {q : Seq} {bounded : Bool} (h : q.opLegal p)
    (hc : q.currentOp = some (.poll bounded)) : q.clkFall.opLegal p := by
  have hcur : q.clkFall.currentOp = some (.poll bounded) := hc
  rw [Seq.opLegal, hc] at h
  obtain ⟨hcs, hdi, -, -, hctr⟩ := h
  rw [Seq.opLegal, hcur]
  exact ⟨hcs, hdi, .inr rfl, rfl, hctr⟩

/-- The next slot of a poll that goes on. -/
theorem Seq.startSlot_opLegal {p : Params} {q : Seq} {bounded : Bool} (h : q.opLegal p)
    (hc : q.currentOp = some (.poll bounded)) (hmore : bounded = true → q.countSlot.slotCtr ≠ q.work.pmax) :
    q.countSlot.startSlot.opLegal p := by
  have hcur : q.countSlot.startSlot.currentOp = some (.poll bounded) := hc
  rw [Seq.opLegal, hc] at h
  obtain ⟨hcs, hdi, -, -, hctr⟩ := h
  rw [Seq.opLegal, hcur]
  exact ⟨hcs, hdi, .inl rfl, rfl, fun hbound => nextSlot_lt (hctr hbound) (hmore hbound)⟩

/-- An action within a micro-op: its own rules kept and a whole wait before it, all is legal. -/
theorem Seq.runLegal_of_opLegal {p : Params} {q q' : Seq} {n : Nat} (h : q.runLegal p) (hop : q'.opLegal p)
    (hwork : q'.work = q.work)
    (hctr : (q'.upc.toNat < 8 → q'.slotCtr = 0#32 ∧ q'.timedOut = false) ∧ (q'.upc.toNat = 8 → q'.timedOut = false))
    (hd : q'.dly = BitVec.ofNat 17 n) (hn : q'.phaseCycles = n) (h1 : 1 ≤ n) (h17 : n < 2 ^ 17) : q'.runLegal p := by
  obtain ⟨hw, -⟩ := h
  have hdly : q'.dly.toNat = n := by rw [hd, BitVec.toNat_ofNat, Nat.mod_eq_of_lt h17]
  exact ⟨hwork ▸ hw, by omega, by omega, hop, hctr⟩

/-- An action keeps a running sequencer legal, or leaves it idle. -/
theorem Seq.act_legal {p : Params} {b : Bool} {q : Seq} (h : q.runLegal p) (hb : q.busy = true) :
    if (q.act p b).busy then (q.act p b).runLegal p else (q.act p b).idleLegal := by
  obtain ⟨⟨hth, hsu, -, -⟩, -, -, hop, hctr⟩ := id h
  have hth' : q.work.th.toNat < 2 ^ 16 := q.work.th.isLt
  have hsu' : q.work.su.toNat < 2 ^ 8 := q.work.su.isLt
  have hacts := Seq.act_acts b hop
  generalize q.act p b = q' at hacts ⊢
  generalize q.actEvents p b = es at hacts
  cases hacts with
  | ends c r sampled hc hclk hr hpoll htimed hsampled => exact Seq.ends_legal h hb hc hclk hr hpoll
  | rises hc hp =>
    rw [Seq.clkRise_busy, if_pos hb]
    exact Seq.runLegal_of_opLegal h (Seq.cell_opLegal hop hc rfl (.inr (.inl rfl)) rfl) rfl hctr rfl rfl (by omega)
      (by omega)
  | falls hc hp =>
    rw [Seq.clkFall_busy, if_pos hb]
    exact Seq.runLegal_of_opLegal h (Seq.cell_opLegal hop hc rfl (.inr (.inr rfl)) rfl) rfl hctr rfl rfl (by omega)
      (by omega)
  | fallsInSlot bounded hc hp =>
    rw [Seq.clkFall_busy, if_pos hb]
    exact Seq.runLegal_of_opLegal h (Seq.slotFall_opLegal hop hc) rfl hctr rfl rfl (by omega) (by omega)
  | nextSendCell src hc hp hi =>
    rw [Seq.startSendCell_busy, if_pos hb]
    exact Seq.runLegal_of_opLegal h (Seq.startSendCell_opLegal hop hc hp) rfl hctr rfl rfl hsu (by omega)
  | nextRecvCell hc hp hj =>
    rw [Seq.startRecvCell_busy, Seq.sampleBit_busy, if_pos hb]
    exact Seq.runLegal_of_opLegal h (Seq.startRecvCell_opLegal b hop hc hp hj) rfl hctr rfl rfl hsu (by omega)
  | nextSlot bounded hc hp hmore =>
    rw [Seq.startSlot_busy, Seq.countSlot_busy, if_pos hb]
    have hplace := Seq.currentOp_placed hc
    obtain ⟨h8, -⟩ : q.upc = 8#4 ∧ bounded = decide (q.work.op = 5#3) := by simpa [MicroOp.placedAt] using hplace
    exact Seq.runLegal_of_opLegal (n := q.work.th.toNat) h (Seq.startSlot_opLegal hop hc hmore) rfl
      ⟨fun hlt => absurd hlt (by simp [h8]), hctr.2⟩ rfl rfl (by omega) (by omega)

/-- An edge keeps a running sequencer legal, or leaves it idle. -/
theorem Seq.edge_legal {p : Params} {b : Bool} {q : Seq} (h : q.runLegal p) (hb : q.busy = true) :
    if (q.edge p b).busy then (q.edge p b).runLegal p else (q.edge p b).idleLegal := by
  by_cases hd : q.dly.toNat ≤ 1
  · rw [Seq.edge_act hd]
    exact Seq.act_legal h hb
  · obtain ⟨hw, -, hphase, hop, hbefore, hat⟩ := h
    have hdec : (q.dly - 1#17).toNat = q.dly.toNat - 1 := by bv_omega
    rw [Seq.edge_wait (by omega), if_pos hb]
    refine ⟨hw, ?_, ?_, hop, hbefore, hat⟩
    · show 1 ≤ (q.dly - 1#17).toNat
      omega
    · show (q.dly - 1#17).toNat ≤ q.phaseCycles
      omega

/-- `timed_out` is set by the bounded poll only, which is WRITEB's (R142, R168). -/
theorem Seq.edge_timedOut {p : Params} {b : Bool} {q : Seq} (h : q.opLegal p)
    (hq : q.timedOut = true → q.work.op = 5#3) (ht : (q.edge p b).timedOut = true) : q.work.op = 5#3 := by
  by_cases hd : q.dly.toNat ≤ 1
  · rw [Seq.edge_act hd] at ht
    have hacts := Seq.act_acts b h
    generalize q.act p b = q' at hacts ht
    generalize q.actEvents p b = es at hacts
    cases hacts with
    | ends c r sampled hc hclk hr hpoll htimed hsampled =>
      have hr' : (r.finishOp p).timedOut = r.timedOut := by
        cases hf : r.followingOp with
        | none => rw [Seq.finishOp_none hf]; rfl
        | some op => rw [Seq.finishOp_some hf, Seq.startOp_timedOut]
      rcases htimed (hr' ▸ ht) with h1 | rfl
      · exact hq h1
      · have hplace := Seq.currentOp_placed hc
        obtain ⟨-, h5⟩ : q.upc = 8#4 ∧ q.work.op = 5#3 := by simpa [MicroOp.placedAt] using hplace
        exact h5
    | _ => exact hq ht
  · rw [Seq.edge_wait (by omega)] at ht
    exact hq ht

/-! ## The host-visible registers -/

/-- CMD shows its reserved bits as 0, so reading it back changes nothing. -/
theorem cmdReadback_idem (v : Word) : cmdReadback (cmdReadback v) = cmdReadback v := by
  exact cmdReadback_cmdWord _ _ _

theorem le_toNat_ite {w : Nat} (least : Nat) (x : BitVec w) (h : least < 2 ^ w) :
    least ≤ (if x.toNat < least then BitVec.ofNat w least else x).toNat := by
  split
  · rw [BitVec.toNat_ofNat, Nat.mod_eq_of_lt h]
  · omega

/-- A register write keeps the registers legal (R32, R33, R62). -/
theorem HostRegs.write_legal {h : HostRegs} (hl : h.Legal) (idx : RegIdx) (v : Word) : (h.write idx v).Legal := by
  obtain ⟨hth, hsu, hcs, hpmax, hcmd⟩ := hl
  rcases bits3_cases idx with hi | hi | hi | hi | hi | hi | hi | hi <;> subst hi
  case inr.inr.inr.inl =>
    exact ⟨le_toNat_ite 2 _ (by decide), le_toNat_ite 1 _ (by decide), le_toNat_ite 1 _ (by decide), hpmax, hcmd⟩
  case inr.inr.inr.inr.inl => exact ⟨hth, hsu, hcs, le_toNat_ite 1 v (by decide), hcmd⟩
  all_goals exact ⟨hth, hsu, hcs, hpmax, hcmd⟩

/-- No register write but that of CMD changes CMD. -/
theorem HostRegs.write_cmd (h : HostRegs) (idx : RegIdx) (v : Word) : (h.write idx v).cmd = h.cmd := by
  rcases bits3_cases idx with hi | hi | hi | hi | hi | hi | hi | hi <;> subst hi <;> rfl

/-- A flag that is set now was set before, where what was clear stays clear. -/
theorem eq_true_of_false_imp : ∀ {x y : Bool}, (x = false → y = false) → y = true → x = true := by decide

/-- What an access does to the host-visible registers where no word is accepted: they stay legal, CMD stays, and of the
three flags of a command none is set. -/
theorem State.hostEdge_host_of_not_accepted {s : State} {acc : Access} (h : s.acceptedWord acc = none)
    (hl : s.mwm.host.Legal) :
    (s.mwm.hostEdge s.params acc).host.Legal ∧ (s.mwm.hostEdge s.params acc).host.cmd = s.mwm.host.cmd ∧
      (s.mwm.host.done = false → (s.mwm.hostEdge s.params acc).host.done = false) ∧
      (s.mwm.host.timeout = false → (s.mwm.hostEdge s.params acc).host.timeout = false) ∧
      (s.mwm.host.illegal = false → (s.mwm.hostEdge s.params acc).host.illegal = false) := by
  obtain ⟨hdone, htimeout, hillegal, -⟩ := State.hostEdge_flags_of_not_accepted h
  have hregs : (s.mwm.hostEdge s.params acc).host.Legal ∧ (s.mwm.hostEdge s.params acc).host.cmd = s.mwm.host.cmd := by
    cases acc with
    | none => exact ⟨hl, rfl⟩
    | read idx => exact ⟨hl, rfl⟩
    | write idx v =>
      by_cases hi : idx = 0#3
      · subst hi
        have hb : s.mwm.seq.busy = true := by simpa [State.acceptedWord] using h
        rw [Mwm.hostEdge_cmd_busy hb]
        exact ⟨hl, rfl⟩
      · rw [Mwm.hostEdge_reg hi]
        exact ⟨HostRegs.write_legal hl idx v, HostRegs.write_cmd _ idx v⟩
  refine ⟨hregs.1, hregs.2, fun h0 => ?_, fun h0 => ?_, fun h0 => ?_⟩
  · rw [hdone, h0, Bool.false_and]
  · rw [htimeout, h0, Bool.false_and]
  · rw [hillegal, h0, Bool.false_and]

/-! ## The MWM -/

theorem Mwm.reset_legal (p : Params) : Mwm.reset.Legal p := by
  refine ⟨by unfold HostRegs.Legal; decide, by unfold Mwm.operandsLatched; decide, by unfold Mwm.flagsLegal; decide,
    by decide, fun _ => by unfold Seq.idleLegal; decide, fun h => by cases h⟩

/-- The invariant does not see the synchronizer. -/
theorem State.synced_legal {s : State} {p : Params} {m : Mwm} (h : m.Legal p) : (s.synced m.host m.seq).Legal p := h

/-- An accepted command with a micro-program is running legally: its CS_ON starts from idle lines. -/
theorem Mwm.accept_runLegal (p : Params) {m : Mwm} {v : Word} (hop : 1 ≤ (cmdOp v).toNat ∧ (cmdOp v).toNat ≤ 5)
    (hl : m.host.Legal) (hidle : m.seq.idleLegal) : (m.accept p v).seq.runLegal p := by
  obtain ⟨hth, hsu, hcs, hpmax, -⟩ := hl
  obtain ⟨hcsQ, hclkQ, hdiQ, -⟩ := hidle
  have hw : (m.latch v).seq.work.Legal := ⟨hth, hsu, hcs, hpmax⟩
  have hcur : { (m.latch v).seq with busy := true, upc := 0#4 }.currentOp = some .csOn :=
    List.head?_eq_getElem?.symm.trans (microProgram_begins_csOn _ hop)
  rw [Mwm.accept_seq_program p hop]
  obtain ⟨hd1, hd2⟩ := Seq.startOp_wait (p := p) (q := { (m.latch v).seq with busy := true, upc := 0#4 }) hw .csOn
  have hstart : MicroOp.csOn.startsFrom { (m.latch v).seq with busy := true, upc := 0#4 }.lines := ⟨hcsQ, hclkQ, hdiQ⟩
  have hlegal := Seq.startOp_opLegal (p := p) (q := { (m.latch v).seq with busy := true, upc := 0#4 }) hw hcur hstart
    fun h8 => absurd h8 (by simp)
  exact ⟨hw, hd1, hd2, hlegal, fun _ => ⟨rfl, rfl⟩, fun _ => rfl⟩

/-- The lines of an idle MWM that accepts INIT or a reserved word stay idle. -/
theorem Mwm.accept_idleLegal (p : Params) {m : Mwm} {v : Word} (hop : ¬(1 ≤ (cmdOp v).toNat ∧ (cmdOp v).toNat ≤ 5))
    (hb : m.seq.busy = false) (hidle : m.seq.idleLegal) :
    (m.accept p v).seq.busy = false ∧ (m.accept p v).seq.idleLegal := by
  by_cases h0 : cmdOp v = 0#3
  · obtain ⟨-, -, -, hrest⟩ := hidle
    rw [Mwm.accept_init p h0]
    exact ⟨hb, rfl, rfl, rfl, hrest⟩
  · have h67 : cmdOp v = 6#3 ∨ cmdOp v = 7#3 := by
      by_contra h67
      exact hop ((op_hasProgram_iff _).mpr ⟨h0, h67⟩)
    rw [Mwm.accept_reserved p h67]
    exact ⟨hb, hidle⟩

/-- An accepted word leaves the MWM legal (R160). -/
theorem Mwm.accept_legal {p : Params} {m : Mwm} (h : m.Legal p) (hb : m.seq.busy = false) (v : Word) :
    (m.accept p v).Legal p := by
  obtain ⟨hl, -, -, -, hidle, -⟩ := h
  obtain ⟨hwork, -, htimed⟩ := Mwm.accept_latches p v m
  have hhost := Mwm.accept_host p v m
  refine ⟨?_, ?_, ?_, ?_, ?_, ?_⟩
  · obtain ⟨hth, hsu, hcs, hpmax, -⟩ := hl
    rw [hhost]
    exact ⟨hth, hsu, hcs, hpmax, (cmdReadback_idem v).symm⟩
  · rw [Mwm.operandsLatched, hwork, hhost]
    exact ⟨(cmdOp_cmdWord _ _ _).symm, (cmdAddr_cmdWord _ _ _).symm, (cmdData_cmdWord _ _ _).symm⟩
  · rw [Mwm.flagsLegal, hwork, hhost]
    refine ⟨fun hill => of_decide_eq_true hill, fun hto => absurd hto (by simp), fun hbusy => ⟨?_, rfl, ?_⟩⟩
    all_goals
      have hop : 1 ≤ (cmdOp v).toNat ∧ (cmdOp v).toNat ≤ 5 := by
        by_contra hop
        exact absurd ((Mwm.accept_idleLegal p hop hb (hidle hb)).1.symm.trans hbusy) (by decide)
      obtain ⟨h0, h67⟩ := (op_hasProgram_iff _).mp hop
    · exact decide_eq_false (not_or.mpr ⟨h0, h67⟩)
    · exact decide_eq_false h67
  · rw [htimed]
    exact fun h => absurd h (by decide)
  · intro hbusy
    refine (Mwm.accept_idleLegal p (fun hop => ?_) hb (hidle hb)).2
    rw [Mwm.accept_seq_program p hop] at hbusy
    cases hbusy
  · intro hbusy
    refine Mwm.accept_runLegal p ?_ hl (hidle hb)
    by_contra hop
    exact absurd ((Mwm.accept_idleLegal p hop hb (hidle hb)).1.symm.trans hbusy) (by decide)

/-- The sequencer of a legal MWM after an edge without a host access. -/
theorem State.seqNext_legal {s : State} (h : s.mwm.Legal s.params) :
    (s.seqNext.timedOut = true → s.mwm.seq.work.op = 5#3) ∧ (s.seqNext.busy = false → s.seqNext.idleLegal) ∧
      (s.seqNext.busy = true → s.seqNext.runLegal s.params) := by
  obtain ⟨-, -, -, htimed, hidle, hrun⟩ := h
  cases hb : s.mwm.seq.busy with
  | false =>
    have hq : s.seqNext = s.mwm.seq := by simp [State.seqNext, hb]
    rw [hq]
    exact ⟨htimed, hidle, hrun⟩
  | true =>
    have hq : s.seqNext = s.mwm.seq.edge s.params s.mwm.doS2 := by simp [State.seqNext, hb]
    have hlegal := Seq.edge_legal (b := s.mwm.doS2) (hrun hb) hb
    obtain ⟨-, -, -, hop, -⟩ := hrun hb
    rw [hq]
    refine ⟨Seq.edge_timedOut hop htimed, fun hbusy => ?_, fun hbusy => ?_⟩
    · simpa [hbusy] using hlegal
    · simpa [hbusy] using hlegal

/-- An ordinary cycle keeps the MWM legal. -/
theorem State.clkCycle_mwm_legal {s : State} (hrst : s.rst = false) (h : s.mwm.Legal s.params) (acc : Access) :
    (s.clkCycle acc).mwm.Legal s.params := by
  obtain ⟨hl, hops, ⟨hill, hto, hflags⟩, -, -, -⟩ := id h
  cases hw : s.acceptedWord acc with
  | some v =>
    obtain ⟨-, hb⟩ := State.acceptedWord_eq_some.mp hw
    rw [State.clkCycle_mwm_of_accepted hrst hw]
    exact State.synced_legal (Mwm.accept_legal h hb v)
  | none =>
    obtain ⟨hl', hcmd', hdone', hto', hill'⟩ := State.hostEdge_host_of_not_accepted hw hl
    obtain ⟨htimed, hidle, hrun⟩ := State.seqNext_legal h
    obtain ⟨hop, haddr, hdata⟩ := hops
    rw [State.clkCycle_mwm_of_not_accepted hrst hw]
    generalize (s.mwm.hostEdge s.params acc).host = host at *
    have hcmd : (s.settle host).cmd = s.mwm.host.cmd := by
      rw [← hcmd']; unfold State.settle; split <;> rfl
    have hillegal : (s.settle host).illegal = host.illegal := by unfold State.settle; split <;> rfl
    refine ⟨?_, ?_, ⟨?_, ?_, ?_⟩, ?_, hidle, hrun⟩
    · unfold State.settle
      split <;> exact hl'
    · show s.seqNext.work.op = cmdOp (s.settle host).cmd ∧ s.seqNext.work.addr = cmdAddr (s.settle host).cmd ∧
        s.seqNext.work.data = cmdData (s.settle host).cmd
      rw [s.seqNext_work, hcmd]
      exact ⟨hop, haddr, hdata⟩
    · show (s.settle host).illegal = true → s.seqNext.work.op = 6#3 ∨ s.seqNext.work.op = 7#3
      rw [hillegal, s.seqNext_work]
      exact fun ht => hill (eq_true_of_false_imp hill' ht)
    · show (s.settle host).timeout = true → s.seqNext.work.op = 5#3
      rw [s.seqNext_work]
      intro ht
      by_contra h5
      have hkept : (s.settle host).timeout = host.timeout := by
        unfold State.settle
        split
        · exact if_neg h5
        · rfl
      exact h5 (hto (eq_true_of_false_imp hto' (hkept ▸ ht)))
    · intro hbusy
      replace hbusy : s.seqNext.busy = true := hbusy
      have hb : s.mwm.seq.busy = true := by
        by_contra hb
        simp [State.seqNext, hb] at hbusy
      have hc : s.completes = false := by simp [State.completes, hbusy]
      obtain ⟨h1, h2, h3⟩ := hflags hb
      show (s.settle host).done = false ∧ (s.settle host).timeout = false ∧ (s.settle host).illegal = false
      rw [State.settle, hc]
      exact ⟨hdone' h1, hto' h2, hill' h3⟩
    · show s.seqNext.timedOut = true → s.seqNext.work.op = 5#3
      rw [s.seqNext_work]
      exact htimed

/-! ## The reference device -/

theorem Device.count_legal {d : Device} (h : d.Legal) : d.count.Legal := by
  obtain ⟨hmem, hcmd, hdata, hk, -⟩ := id h
  have hwf := Device.count_wf hmem
  by_cases h0 : d.busyRem - 1 = 0
  · have he : d.count = { d with busyRem := d.busyRem - 1 }.commit := by rw [Device.count, if_pos h0]
    rw [he] at hwf ⊢
    exact ⟨hwf, hcmd, hdata, hk, fun hb => by cases hb⟩
  · rw [Device.count, if_neg h0]
    exact ⟨hmem, hcmd, hdata, hk, fun _ => Nat.pos_of_ne_zero h0⟩

theorem Device.countDown_legal {d : Device} (h : d.Legal) : d.countDown.Legal := by
  unfold Device.countDown
  split
  · exact Device.count_legal h
  · exact h

theorem Device.csEvents_legal {d : Device} (cs : Bool) (h : d.Legal) : (d.csEvents cs).Legal := by
  obtain ⟨hmem, -, -, hk, hrem⟩ := id h
  have hwf := Device.startWrite_wf hmem
  unfold Device.csEvents
  split
  · unfold Device.csFall
    split
    · by_cases h0 : d.devBusy = 0
      · rw [Device.startWrite, if_pos h0] at hwf ⊢
        exact ⟨hwf, nofun, nofun, hk, hrem⟩
      · rw [Device.startWrite, if_neg h0]
        exact ⟨hmem, nofun, nofun, hk, fun _ => Nat.pos_of_ne_zero h0⟩
    · exact ⟨hmem, nofun, nofun, hk, hrem⟩
  · split
    · exact ⟨hmem, fun _ => Nat.zero_le 8, nofun, hk, hrem⟩
    · exact h

theorem Device.decode_legal {d : Device} (hmem : Memory.wf d.mem) (hk : d.k ≤ 8) (hrem : d.busy = true → 1 ≤ d.busyRem) :
    d.decode.Legal := by
  unfold Device.decode
  dsimp only
  split_ifs
  · exact ⟨hmem, nofun, nofun, Nat.zero_le 8, hrem⟩
  · exact ⟨hmem, nofun, fun _ => Nat.zero_le 7, hk, hrem⟩
  · exact ⟨hmem, nofun, nofun, hk, hrem⟩
  · exact ⟨hmem, nofun, nofun, hk, hrem⟩
  · exact ⟨hmem, nofun, nofun, hk, hrem⟩

theorem Device.clockCmdIn_legal {d : Device} (di : Bool) (h : d.Legal) (hp : d.phase = .cmdIn) : (d.clockCmdIn di).Legal := by
  obtain ⟨hmem, hcmd, -, hk, hrem⟩ := id h
  have hn := hcmd hp
  unfold Device.clockCmdIn
  split_ifs with h0 h9
  · exact h
  · exact Device.decode_legal (d := d.shiftFrame di) hmem hk hrem
  · refine ⟨hmem, fun _ => ?_, fun hw => ?_, hk, hrem⟩
    · show d.n + 1 ≤ 8
      omega
    · cases hp.symm.trans hw

theorem Device.clockReadOut_legal {d : Device} (h : d.Legal) : d.clockReadOut.Legal := by
  obtain ⟨hmem, hcmd, hdata, hk, hrem⟩ := id h
  unfold Device.clockReadOut
  split_ifs with h8
  · exact ⟨hmem, hcmd, hdata, h8, hrem⟩
  · exact h

theorem Device.clockWData_legal {d : Device} (di : Bool) (h : d.Legal) (hp : d.phase = .wData) :
    (d.clockWData di).Legal := by
  obtain ⟨hmem, -, hdata, hk, hrem⟩ := id h
  have hn := hdata hp
  unfold Device.clockWData
  split_ifs with h8
  · exact ⟨hmem, nofun, nofun, hk, hrem⟩
  · refine ⟨hmem, nofun, fun _ => ?_, hk, hrem⟩
    show d.n + 1 ≤ 7
    omega

theorem Device.clockRise_legal {d : Device} (di : Bool) (h : d.Legal) : (d.clockRise di).Legal := by
  unfold Device.clockRise
  split
  · split
    · exact Device.count_legal h
    · exact h
  · split
    · exact Device.clockCmdIn_legal di h ‹_›
    · exact Device.clockReadOut_legal h
    · exact Device.clockWData_legal di h ‹_›
    all_goals exact h

/-- A cycle of the reference device keeps its invariant. -/
theorem Device.observe_legal {d : Device} (cs clk di : Bool) (h : d.Legal) : (d.observe cs clk di).Legal := by
  have hcs := Device.csEvents_legal cs (Device.countDown_legal h)
  have hclk : ((d.countDown.csEvents cs).clkEvents cs clk di).Legal := by
    unfold Device.clkEvents
    split
    · exact Device.clockRise_legal di hcs
    · exact hcs
  exact hclk

/-- A cycle of the environment keeps the device's invariant. -/
theorem Env.observe_legal {e : Env} (p : Params) (m : Mwm) (c : Nat) (h : e.dev.Legal) :
    (e.observe p m c).dev.Legal := by
  unfold Env.observe Env.observeDevice
  split
  · split
    · exact Device.observe_legal _ _ _ h
    · exact h
    · obtain ⟨hmem, hrest⟩ := h
      obtain ⟨hwf, -⟩ := Memory.fill_spec (Config.openCell c) hmem
      exact ⟨hwf, hrest⟩
  · exact h
  · exact h

/-! ## Every step -/

/-- A cycle after the first reset keeps the invariant. -/
theorem State.clkCycle_legal {s : State} (hseen : s.resetSeen = true) (h : s.Legal) (acc : Access) :
    (s.clkCycle acc).Legal := by
  obtain ⟨hmwm, hdev⟩ := h
  refine ⟨fun _ => ?_, Env.observe_legal s.params s.mwm s.cycle hdev⟩
  cases hrst : s.rst with
  | true =>
    rw [State.clkCycle_mwm, State.mwmEdge_rst hrst]
    exact Mwm.reset_legal _
  | false => exact State.clkCycle_mwm_legal hrst (hmwm hseen) acc

/-- Settles O11: the reset values satisfy the MWM's invariant, the powered-up device its own. -/
theorem resetStateIsLegal : Obligations.ResetStateIsLegal := by
  refine ⟨fun _ => Mwm.reset_legal _, ?_⟩
  unfold Device.Legal
  decide

/-- Settles O12: a step is a whole cycle, or the first reset edge. -/
theorem stepKeepsLegal : Obligations.StepKeepsLegal := by
  intro s t h ht
  rcases step_next ht with ⟨hseen, rfl⟩ | ⟨-, acc, rfl⟩
  · exact State.clkCycle_legal hseen h _
  · exact ⟨fun _ => Mwm.reset_legal _, h.2⟩

end Sys2Proof.Machine
end

section
/-! The lines and their events (10_state.md R36, R46; 40_primitives.md R144): at every edge the events are the changes of the
three line registers, and chip-select moves only at CS_ON and CS_OFF. Beside them the conditions of STATUS. -/

namespace Sys2Proof.Machine

/-! ## Events as changes of the lines -/

/-- The events `es` are what takes the lines from `l` to `l'`, and those of CS and CLK are exactly its changes. -/
structure Lines.Moved (l : Lines) (es : List LineEvent) (l' : Lines) : Prop where
  after : l' = l.after es
  csUp : .csUp ∈ es ↔ l.cs = false ∧ l'.cs = true
  csDown : .csDown ∈ es ↔ l.cs = true ∧ l'.cs = false
  clkUp : .clkUp ∈ es ↔ l.clk = false ∧ l'.clk = true
  clkDown : .clkDown ∈ es ↔ l.clk = true ∧ l'.clk = false

theorem Lines.Moved.none (l : Lines) : l.Moved [] l := by
  obtain ⟨cs, clk, di⟩ := l
  constructor <;> simp [Lines.after]

theorem Lines.Moved.csOn {l : Lines} (h : l.cs = false) : l.Moved csOnEvents { l with cs := true } := by
  obtain ⟨cs, clk, di⟩ := l
  constructor <;> simp_all [Lines.after, Lines.move, csOnEvents]

theorem Lines.Moved.csOff {l : Lines} (h : l.cs = true) : l.Moved csOffEvents { l with cs := false, di := false } := by
  obtain ⟨cs, clk, di⟩ := l
  constructor <;> simp_all [Lines.after, Lines.move, csOffEvents]

theorem Lines.Moved.di (l : Lines) (b : Bool) : l.Moved [.di b] { l with di := b } := by
  obtain ⟨cs, clk, di⟩ := l
  constructor <;> simp [Lines.after, Lines.move]

theorem Lines.Moved.clkRise {l : Lines} (h : l.clk = false) : l.Moved [.clkUp] { l with clk := true } := by
  obtain ⟨cs, clk, di⟩ := l
  constructor <;> simp_all [Lines.after, Lines.move]

theorem Lines.Moved.clkFall {l : Lines} (h : l.clk = true) : l.Moved [.clkDown] { l with clk := false } := by
  obtain ⟨cs, clk, di⟩ := l
  constructor <;> simp_all [Lines.after, Lines.move]

/-- A sample moves no line. -/
theorem Lines.Moved.sampled {l l' : Lines} {es : List LineEvent} (h : l.Moved es l') (b : Bool) :
    l.Moved (.sample b :: es) l' := by
  obtain ⟨hafter, hcsUp, hcsDown, hclkUp, hclkDown⟩ := h
  exact ⟨hafter, by simpa using hcsUp, by simpa using hcsDown, by simpa using hclkUp, by simpa using hclkDown⟩

/-- The start edge of a micro-op. -/
theorem Seq.startOp_moved (p : Params) {q : Seq} {op : MicroOp} (h : op.startsFrom q.lines) :
    q.lines.Moved (q.startEvents p op) (q.startOp p op).lines := by
  cases op with
  | csOn => exact .csOn h.1
  | csOff => exact .csOff h.1
  | send src => exact .di _ _
  | recv8 => exact .none _
  | poll bounded =>
    obtain ⟨-, hclk, -⟩ := h
    have hl : (q.startOp p (.poll bounded)).lines = { q.lines with clk := q.work.pclk } := rfl
    rw [hl]
    cases hpclk : q.work.pclk with
    | true => simpa [Seq.startEvents, hpclk] using Lines.Moved.clkRise hclk
    | false =>
      have hsame : { q.lines with clk := false } = q.lines := by rw [← hclk]
      simpa [Seq.startEvents, hpclk, hsame] using Lines.Moved.none q.lines

/-- The start events of a micro-op depend on the working registers only. -/
theorem Seq.startEvents_congr (p : Params) {q r : Seq} (h : r.work = q.work) (op : MicroOp) :
    r.startEvents p op = q.startEvents p op := by
  cases op <;> simp only [Seq.startEvents, h]

/-- The end edge of a micro-op. -/
theorem Seq.ends_moved {p : Params} {q r : Seq} {c : MicroOp} (h : q.opLegal p) (hc : q.currentOp = some c)
    (hclk : q.clkQ = false) (hr : r = { q with acc := r.acc, slotCtr := r.slotCtr, timedOut := r.timedOut }) :
    q.lines.Moved (q.finishEvents p) (r.finishOp p).lines := by
  have hlines : r.lines = q.lines := by rw [hr]; rfl
  have hwork : r.work = q.work := by rw [hr]
  have hfol : r.followingOp = q.followingOp := by rw [hr]; rfl
  cases hnext : q.followingOp with
  | none =>
    rw [Seq.finishOp_none (hfol.trans hnext), Seq.finishEvents, hnext, ← hlines]
    exact .none r.lines
  | some op =>
    have hstart : op.startsFrom r.lines := hlines ▸ Seq.opLegal_startsFrom h hc hclk hnext
    have hmoved := Seq.startOp_moved p (q := { r with upc := r.upc + 1#4 }) hstart
    have hevents : { r with upc := r.upc + 1#4 }.startEvents p op = q.startEvents p op :=
      Seq.startEvents_congr p hwork op
    rw [hevents] at hmoved
    rw [Seq.finishOp_some (hfol.trans hnext), Seq.finishEvents, hnext, ← hlines]
    exact hmoved

/-- An action of a legal running sequencer moves the lines as its events say, and samples nothing but `b`. -/
theorem Seq.act_moved {p : Params} (b : Bool) {q : Seq} (h : q.opLegal p) :
    q.lines.Moved (q.actEvents p b) (q.act p b).lines := by
  have hacts := Seq.act_acts b h
  generalize q.act p b = q' at hacts ⊢
  generalize q.actEvents p b = es at hacts ⊢
  rw [Seq.opLegal] at h
  cases hacts with
  | ends c r sampled hc hclk hr hpoll htimed hsampled =>
    have hmoved := Seq.ends_moved (by rw [Seq.opLegal]; exact h) hc hclk hr
    rcases hsampled with rfl | rfl
    · exact hmoved
    · exact hmoved.sampled b
  | rises hc hp =>
    refine .clkRise (l := q.lines) ?_
    show q.clkQ = false
    rcases hc with ⟨src, hc⟩ | hc <;> rw [hc] at h <;> obtain ⟨⟨-, -, hclk⟩, -⟩ := h <;> simp [hclk, hp]
  | falls hc hp =>
    refine .clkFall (l := q.lines) ?_
    show q.clkQ = true
    rcases hc with ⟨src, hc⟩ | hc <;> rw [hc] at h <;> obtain ⟨⟨-, -, hclk⟩, -⟩ := h <;> simp [hclk, hp]
  | fallsInSlot bounded hc hp =>
    rw [hc] at h
    obtain ⟨-, -, -, hclk, -⟩ := h
    have hq : q.lines.clk = q.work.pclk := by
      show q.clkQ = _
      simp [hclk, hp]
    have hl : q.clkFall.lines = { q.lines with clk := false } := rfl
    rw [hl]
    cases hpclk : q.work.pclk with
    | true => exact .clkFall (hq.trans hpclk)
    | false =>
      have hsame : { q.lines with clk := false } = q.lines := by rw [← hpclk, ← hq]
      rw [hsame]
      exact .none _
  | nextSendCell src hc hp hi => exact .di _ _
  | nextRecvCell hc hp hj => exact (Lines.Moved.none _).sampled b
  | nextSlot bounded hc hp hmore =>
    rw [hc] at h
    obtain ⟨-, -, -, hclk, -⟩ := h
    have hq : q.lines.clk = false := by
      show q.clkQ = _
      simp [hclk, hp]
    have hl : q.countSlot.startSlot.lines = { q.lines with clk := q.work.pclk } := rfl
    rw [hl]
    cases hpclk : q.work.pclk with
    | true => exact (Lines.Moved.clkRise hq).sampled b
    | false =>
      have hsame : { q.lines with clk := false } = q.lines := by rw [← hq]
      rw [hsame]
      exact (Lines.Moved.none _).sampled b

/-- No start edge samples. -/
theorem Seq.sample_notMem_finishEvents (p : Params) (q : Seq) (x : Bool) : LineEvent.sample x ∉ q.finishEvents p := by
  unfold Seq.finishEvents
  cases q.followingOp with
  | none => simp
  | some op =>
    cases op with
    | poll bounded => cases hpclk : q.work.pclk <;> simp [Seq.startEvents, hpclk]
    | _ => simp [Seq.startEvents, csOnEvents, csOffEvents]

/-- A sample event carries `SampleDO()`. -/
theorem Seq.sample_of_mem_actEvents {p : Params} {b x : Bool} {q : Seq} (h : q.opLegal p)
    (hx : LineEvent.sample x ∈ q.actEvents p b) : x = b := by
  have hacts := Seq.act_acts b h
  generalize q.act p b = q' at hacts
  generalize q.actEvents p b = es at hacts hx
  cases hacts with
  | ends c r sampled hc hclk hr hpoll htimed hsampled =>
    have hno := Seq.sample_notMem_finishEvents p q x
    rcases hsampled with rfl | rfl
    · exact absurd hx hno
    · simpa [hno] using hx
  | fallsInSlot bounded hc hp => cases hpclk : q.work.pclk <;> simp [hpclk] at hx
  | nextRecvCell hc hp hj => simpa using hx
  | nextSlot bounded hc hp hmore => cases hpclk : q.work.pclk <;> simpa [hpclk] using hx
  | _ => simp at hx

/-! ## The edges of the machine -/

/-- In an idle legal MWM an access moves CS only, where it starts a command. -/
theorem Mwm.accept_moved (p : Params) {m : Mwm} (hb : m.seq.busy = false) (hidle : m.seq.idleLegal) (v : Word) :
    m.seq.lines.Moved (if microProgram (cmdOp v) ≠ [] then csOnEvents else []) (m.accept p v).seq.lines := by
  obtain ⟨hcs, hclk, hdi, -⟩ := id hidle
  by_cases hop : 1 ≤ (cmdOp v).toNat ∧ (cmdOp v).toNat ≤ 5
  · have hne : microProgram (cmdOp v) ≠ [] := fun hnil => by simpa [hnil] using microProgram_begins_csOn _ hop
    rw [if_pos hne, Mwm.accept_seq_program p hop]
    exact .csOn hcs
  · have hnil : microProgram (cmdOp v) = [] := by
      have none : ∀ op : BitVec 3, ¬(1 ≤ op.toNat ∧ op.toNat ≤ 5) → microProgram op = [] := by decide
      exact none _ hop
    obtain ⟨-, hcs', hclk', hdi', -⟩ := Mwm.accept_idleLegal p hop hb hidle
    have hl : (m.accept p v).seq.lines = m.seq.lines := by
      rw [Seq.lines, Seq.lines, hcs, hclk, hdi, hcs', hclk', hdi']
    rw [if_neg (not_not.mpr hnil), hl]
    exact .none _

/-- The events of an ordinary cycle of a legal machine move its lines. -/
theorem State.edge_moved {s : State} (hl : s.Legal) (h : s.running) (acc : Access) :
    s.mwm.lines.Moved (s.edgeEvents acc) (s.clkCycle acc).mwm.lines := by
  obtain ⟨hseen, hrst⟩ := h
  obtain ⟨hmwm, -⟩ := id hl
  obtain ⟨-, -, -, -, hidle, -⟩ := hmwm hseen
  rw [Mwm.lines_eq, Mwm.lines_eq]
  unfold State.edgeEvents
  rw [if_neg (by simp [hrst])]
  cases hb : s.mwm.seq.busy with
  | true =>
    rw [if_pos rfl, State.seq_clkCycle hrst hb, Mwm.sampleDO, Seq.edgeEvents]
    by_cases hd : s.mwm.seq.dly.toNat ≤ 1
    · rw [if_pos hd, Seq.edge_act hd]
      exact Seq.act_moved _ (hl.busy_opLegal hseen hb).2
    · rw [if_neg hd, Seq.edge_wait (by omega)]
      exact .none _
  | false =>
    rw [if_neg (by decide), State.clkCycle_seq hrst, hb, if_neg (by decide)]
    cases acc with
    | none => exact .none _
    | read idx => exact .none _
    | write idx v =>
      by_cases hi : idx = 0#3
      · subst hi
        rw [Mwm.hostEdge_cmd_idle hb]
        simpa using Mwm.accept_moved s.params hb (hidle hb) v
      · rw [Mwm.hostEdge_reg hi]
        simpa [hi] using Lines.Moved.none s.mwm.seq.lines

/-- A sample of an ordinary cycle carries `do_s2`. -/
theorem State.sample_of_mem_edgeEvents {s : State} (hl : s.Legal) (hseen : s.resetSeen = true) {acc : Access} {x : Bool}
    (hx : LineEvent.sample x ∈ s.edgeEvents acc) : x = s.mwm.sampleDO := by
  unfold State.edgeEvents at hx
  split_ifs at hx with hrst hb
  · cases hx
  · unfold Seq.edgeEvents at hx
    split_ifs at hx with hd
    · exact Seq.sample_of_mem_actEvents (hl.busy_opLegal hseen hb).2 hx
    · cases hx
  · cases acc with
    | none => cases hx
    | read idx => cases hx
    | write idx v =>
      dsimp only at hx
      split_ifs at hx
      · simp [csOnEvents] at hx
      · cases hx

/-! ## Where chip-select moves -/

/-- A start edge moves CS only in a CS_ON or a CS_OFF. -/
theorem Seq.startOp_csQ (p : Params) (q : Seq) (op : MicroOp) (h : (q.startOp p op).csQ ≠ q.csQ) :
    ((q.startOp p op).csQ = true → op = .csOn) ∧ ((q.startOp p op).csQ = false → op = .csOff) := by
  cases op with
  | csOn => exact ⟨fun _ => rfl, nofun⟩
  | csOff => exact ⟨nofun, fun _ => rfl⟩
  | _ => exact absurd rfl h

/-- An action moves CS only where a CS_ON or a CS_OFF starts. -/
theorem Seq.act_csQ {p : Params} {b : Bool} {q : Seq} (h : q.opLegal p) (hb : q.busy = true)
    (hne : (q.act p b).csQ ≠ q.csQ) :
    (q.act p b).busy = true ∧ ((q.act p b).csQ = true → (q.act p b).currentOp = some .csOn) ∧
      ((q.act p b).csQ = false → (q.act p b).currentOp = some .csOff) := by
  have hacts := Seq.act_acts b h
  generalize q.act p b = q' at hacts hne ⊢
  generalize q.actEvents p b = es at hacts
  cases hacts with
  | ends c r sampled hc hclk hr hpoll htimed hsampled =>
    have hcs : r.csQ = q.csQ := by rw [hr]
    have hbusy : r.busy = true := by rw [hr]; exact hb
    cases hnext : r.followingOp with
    | none =>
      rw [Seq.finishOp_none hnext] at hne
      exact absurd hcs hne
    | some op =>
      rw [Seq.finishOp_some hnext] at hne ⊢
      obtain ⟨hup, hdown⟩ := Seq.startOp_csQ p { r with upc := r.upc + 1#4 } op (by rw [← hcs] at hne; exact hne)
      have hcur : ({ r with upc := r.upc + 1#4 }.startOp p op).currentOp = some op :=
        (Seq.startOp_currentOp _ _ _).trans (Seq.advance_currentOp hnext)
      rw [hcur, Seq.startOp_busy]
      exact ⟨hbusy, fun h1 => congrArg some (hup h1), fun h0 => congrArg some (hdown h0)⟩
  | _ => exact absurd rfl hne

/-! ## The conditions of STATUS -/

/-- STATUS above its five flags holds the lines and the synchronizer. -/
theorem Mwm.status_upper (m : Mwm) (c : Condition) (i : Nat) :
    { m with host := m.host.raise c }.status.getLsbD (i + 5) = m.status.getLsbD (i + 5) := by
  have above (m : Mwm) : m.status.getLsbD (i + 5) =
      (0#20 ++ bit m.doS2 ++ bit m.seq.diQ ++ bit m.seq.clkQ ++ bit m.seq.csQ ++ 0#3).getLsbD i := by
    have split : m.status.getLsbD (i + 5) = @BitVec.getLsbD (27 + 1 + 1 + 1 + 1 + 1)
        (_ ++ bit m.host.dropped ++ bit m.host.illegal ++ bit m.host.timeout ++ bit m.host.done ++ bit m.seq.busy)
        (i + 5) := rfl
    rw [split]
    simp only [getLsbD_append_bit_succ]
  rw [above, above]

/-- Recording a condition sets its bit of STATUS and no other (R200). -/
theorem Mwm.status_raise (m : Mwm) (c : Condition) :
    { m with host := m.host.raise c }.status = m.status ||| (1#32 <<< c.code) := by
  obtain ⟨h1, h2, h3, h4⟩ := m.status_flags
  obtain ⟨r1, r2, r3, r4⟩ := { m with host := m.host.raise c }.status_flags
  have h0 := m.status_busy
  have r0 := { m with host := m.host.raise c }.status_busy
  refine BitVec.eq_of_getLsbD_eq fun i hi => ?_
  rw [BitVec.getLsbD_or]
  match i with
  | 0 => rw [r0, h0]; cases c <;> simp [Condition.code]
  | 1 => rw [r1, h1]; cases c <;> simp [Condition.code]
  | 2 => rw [r2, h2]; cases c <;> simp [Condition.code]
  | 3 => rw [r3, h3]; cases c <;> simp [Condition.code]
  | 4 => rw [r4, h4]; cases c <;> simp [Condition.code]
  | i + 5 =>
    have hcode : c.code ≤ 4 := by cases c <;> decide
    have hno : (1#32 <<< c.code).getLsbD (i + 5) = false := by
      rw [BitVec.getLsbD_shiftLeft, BitVec.getLsbD_one]
      simp [show i + 5 - c.code ≠ 0 by omega]
    rw [Mwm.status_upper, hno, Bool.or_false]

/-! ## The statements -/

/-- Settles O31: idle, only an accepted command moves a line; busy, the events of each action are its changes. -/
theorem eventsMoveLines : Obligations.EventsMoveLines := by
  intro s t hl hrun ht
  obtain rfl := Host.Outcome.next.inj ((step_eq_clkCycle hrun.1).symm.trans ht)
  obtain ⟨hafter, hcsUp, hcsDown, hclkUp, hclkDown⟩ := State.edge_moved hl hrun s.portAccess
  exact ⟨hafter, hcsUp, hcsDown, hclkUp, hclkDown, fun b hb => State.sample_of_mem_edgeEvents hl hrun.1 hb⟩

/-- Settles O42: an idle MWM moves CS only where a command is accepted, a running one only where a CS_ON or CS_OFF starts. -/
theorem csChangesOnlyAtCsOps : Obligations.CsChangesOnlyAtCsOps := by
  intro s t hl ⟨hseen, hrst⟩ ht hne
  obtain rfl := Host.Outcome.next.inj ((step_eq_clkCycle hseen).symm.trans ht)
  cases hb : s.mwm.seq.busy with
  | true =>
    rw [State.seq_clkCycle hrst hb] at hne ⊢
    by_cases hd : s.mwm.seq.dly.toNat ≤ 1
    · rw [Seq.edge_act hd] at hne ⊢
      exact Seq.act_csQ (hl.busy_opLegal hseen hb).2 hb hne
    · rw [Seq.edge_wait (by omega)] at hne
      exact absurd rfl hne
  | false =>
    obtain ⟨-, -, -, -, hidle, -⟩ := hl.1 hseen
    cases hw : s.acceptedWord s.portAccess with
    | none =>
      rw [State.clkCycle_seq hrst, hb, if_neg (by decide), State.hostEdge_seq_of_not_accepted hw] at hne
      exact absurd rfl hne
    | some v =>
      rw [State.clkCycle_mwm_of_accepted hrst hw] at hne ⊢
      by_cases hop : 1 ≤ (cmdOp v).toNat ∧ (cmdOp v).toNat ≤ 5
      · have hcur : { (s.mwm.latch v).seq with busy := true, upc := 0#4 }.startCsOn.currentOp = some .csOn :=
          List.head?_eq_getElem?.symm.trans (microProgram_begins_csOn _ hop)
        simp only [State.synced, Mwm.accept_seq_program _ hop]
        exact ⟨rfl, fun _ => hcur, nofun⟩
      · obtain ⟨-, hcs, -⟩ := Mwm.accept_idleLegal s.params hop hb (hidle hb)
        exact absurd (hcs.trans (hidle hb).1.symm) hne

/-- Settles O46: bit by bit of STATUS. -/
theorem conditionsAreStatusBits : Obligations.ConditionsAreStatusBits := by
  refine ⟨rfl, rfl, rfl, fun m c => ⟨m.status_raise c, ?_⟩⟩
  cases c <;> rfl

end Sys2Proof.Machine
end

section
/-! The timelines of whole micro-ops and transactions (40_primitives.md R131 to R145, 41_commands.md): a running sequencer is
followed from the start edge of one micro-op to the start edge of the next. Each stretch is named by the sequencer just
before its start edge; `Seq.enter` takes that edge. -/

namespace Sys2Proof.Machine

/-! ## Start edges -/

/-- `upc` advances by 1 (R43). -/
def Seq.advance (q : Seq) : Seq := { q with upc := q.upc + 1#4 }

/-- The start edge of the micro-op at `upc`; past the last one, the completion edge (R43, R171). -/
def Seq.enter (p : Params) (q : Seq) : Seq :=
  match q.currentOp with
  | some op => q.startOp p op
  | none => q.complete

/-- The line events of that edge. -/
def Seq.enterEvents (p : Params) (q : Seq) : List LineEvent :=
  match q.currentOp with
  | some op => q.startEvents p op
  | none => []

theorem Seq.enter_of_some {p : Params} {q : Seq} {op : MicroOp} (h : q.currentOp = some op) :
    q.enter p = q.startOp p op := by rw [Seq.enter, h]

theorem Seq.enterEvents_of_some {p : Params} {q : Seq} {op : MicroOp} (h : q.currentOp = some op) :
    q.enterEvents p = q.startEvents p op := by rw [Seq.enterEvents, h]

theorem Seq.enter_work (p : Params) (q : Seq) : (q.enter p).work = q.work := by
  unfold Seq.enter
  split
  · exact Seq.startOp_work p q _
  · rfl

/-- `upc` names the micro-op that followed. -/
theorem Seq.currentOp_advance {q : Seq} {c : MicroOp} (h : q.currentOp = some c) :
    q.advance.currentOp = q.followingOp := by
  obtain ⟨hlt, -⟩ := List.getElem?_eq_some_iff.mp h
  have hlen := microProgram_length q.work.op
  have hsucc : (q.upc + 1#4).toNat = q.upc.toNat + 1 := by bv_omega
  show (microProgram q.work.op)[(q.upc + 1#4).toNat]? = _
  rw [hsucc, Seq.followingOp]

/-- The end of a micro-op is the start edge of the next (R130). -/
theorem Seq.finishOp_eq_enter (p : Params) {q : Seq} {c : MicroOp} (h : q.currentOp = some c) :
    q.finishOp p = q.advance.enter p := by
  rw [Seq.enter, Seq.currentOp_advance h]
  cases hf : q.followingOp with
  | none => exact Seq.finishOp_none hf
  | some op => exact Seq.finishOp_some hf

theorem Seq.finishEvents_eq_enterEvents (p : Params) {q : Seq} {c : MicroOp} (h : q.currentOp = some c) :
    q.finishEvents p = q.advance.enterEvents p := by
  rw [Seq.enterEvents, Seq.currentOp_advance h, Seq.finishEvents]
  cases q.followingOp with
  | none => rfl
  | some op => exact (Seq.startEvents_congr p rfl op).symm

/-! ## Stretches from start edge to start edge -/

/-- From cycle `c` on, with a command running in every cycle, `n` edges lead from the start edge of `q`'s micro-op to that of
`q'`; the line events are `es`, those of the first start edge included and those of the last one not. -/
def Seq.Performs (p : Params) (b : Nat → Bool) (c n : Nat) (q : Seq) (es : List LineEvent) (q' : Seq) : Prop :=
  ∃ rest, Seq.Runs p b c n (q.enter p) rest (q'.enter p) ∧ q.enterEvents p ++ rest = es ++ q'.enterEvents p

theorem Seq.Performs.trans {p : Params} {b : Nat → Bool} {c m n : Nat} {q q' q'' : Seq} {es es' : List LineEvent}
    (h : Seq.Performs p b c m q es q') (h' : Seq.Performs p b (c + m) n q' es' q'') :
    Seq.Performs p b c (m + n) q (es ++ es') q'' := by
  obtain ⟨r, hr, he⟩ := h
  obtain ⟨r', hr', he'⟩ := h'
  refine ⟨r ++ r', hr.trans hr', ?_⟩
  rw [← List.append_assoc, he, List.append_assoc, he', List.append_assoc]

theorem Seq.Performs.none (p : Params) (b : Nat → Bool) (c : Nat) (q : Seq) : Seq.Performs p b c 0 q [] q :=
  ⟨[], Seq.Runs.refl, by simp⟩

/-- The number of edges and the events written in another way. -/
theorem Seq.Performs.cast {p : Params} {b : Nat → Bool} {c m n : Nat} {q q' : Seq} {es es' : List LineEvent}
    (h : Seq.Performs p b c m q es q') (hn : m = n) (he : es = es') : Seq.Performs p b c n q es' q' := hn ▸ he ▸ h

/-! ## CS_ON and CS_OFF -/

/-- The sequencer just before the micro-op after a CS_ON. -/
def Seq.afterCsOn (q : Seq) : Seq := { q.startCsOn with dly := 1#17 }.advance

/-- The sequencer just before the micro-op after a CS_OFF. -/
def Seq.afterCsOff (q : Seq) : Seq := { q.startCsOff with dly := 1#17 }.advance

theorem Seq.startHold_dly (q : Seq) : (BitVec.ofNat 17 q.work.cs.toNat).toNat = q.work.cs.toNat := by
  have hcs : q.work.cs.toNat < 2 ^ 8 := q.work.cs.isLt
  rw [BitVec.toNat_ofNat, Nat.mod_eq_of_lt (by omega)]

/-- CS_ON: C cycles with CS up at their start (R131). -/
theorem Seq.performs_csOn {p : Params} {b : Nat → Bool} (c : Nat) {q : Seq} (hb : q.busy = true) (hw : q.work.Legal)
    (ho : q.currentOp = some .csOn) : Seq.Performs p b c q.work.cs.toNat q csOnEvents q.afterCsOn := by
  have hrun := Seq.runs_hold (p := p) (b := b) (c := c) (q := q.startCsOn) hb hw (.inl ho) q.startHold_dly
  have hcur : { q.startCsOn with dly := 1#17 }.currentOp = some .csOn := ho
  rw [Seq.finishOp_eq_enter p hcur, Seq.finishEvents_eq_enterEvents p hcur] at hrun
  refine ⟨_, ?_, by rw [Seq.enterEvents_of_some ho]; rfl⟩
  rw [Seq.enter_of_some ho]
  exact hrun

/-- CS_OFF: C cycles with CS down and DI at 0 at their start (R132). -/
theorem Seq.performs_csOff {p : Params} {b : Nat → Bool} (c : Nat) {q : Seq} (hb : q.busy = true) (hw : q.work.Legal)
    (ho : q.currentOp = some .csOff) : Seq.Performs p b c q.work.cs.toNat q csOffEvents q.afterCsOff := by
  have hrun := Seq.runs_hold (p := p) (b := b) (c := c) (q := q.startCsOff) hb hw (.inr ho) q.startHold_dly
  have hcur : { q.startCsOff with dly := 1#17 }.currentOp = some .csOff := ho
  rw [Seq.finishOp_eq_enter p hcur, Seq.finishEvents_eq_enterEvents p hcur] at hrun
  refine ⟨_, ?_, by rw [Seq.enterEvents_of_some ho]; rfl⟩
  rw [Seq.enter_of_some ho]
  exact hrun

/-! ## SEND -/

/-- The sequencer just before the micro-op after a SEND of `v`. -/
def Seq.afterSend (v : Frame) (q : Seq) : Seq := ({ q with shVal := v }.sendCellEnd 0).advance

theorem sendEvents_eq_cons (v : Frame) {w : Nat} (h : 1 ≤ w) :
    sendEvents v w = .di (v.getLsbD (w - 1)) :: (sendEvents v w).tail := by
  obtain ⟨i, rfl⟩ : ∃ i, w = i + 1 := ⟨w - 1, by omega⟩
  rfl

/-- SEND: w·L cycles, every bit of the frame with one pulse (R135, R137). -/
theorem Seq.performs_send {p : Params} {b : Nat → Bool} (c : Nat) {q : Seq} {src : FrameSrc} {v : Frame} {w : Nat}
    (hb : q.busy = true) (hw : q.work.Legal) (ho : q.currentOp = some (.send src)) (hc : q.clkQ = false)
    (hv : frameBits (src.raw p q.work) = v) (hwidth : frameWidth (src.raw p q.work) = w) :
    Seq.Performs p b c (sendCycles q.work.su.toNat q.work.th.toNat w) q (sendEvents v w) (q.afterSend v) := by
  subst hv hwidth
  obtain ⟨h1, h9⟩ := FrameSrc.frameWidth_pos p q.work src
  have hrun := Seq.runs_send (p := p) (b := b) (v := frameBits (src.raw p q.work)) c hb hw ho hc h1 (by omega)
  have hcur : ({ q with shVal := frameBits (src.raw p q.work) }.sendCellEnd 0).currentOp = some (.send src) := ho
  rw [Seq.finishOp_eq_enter p hcur, Seq.finishEvents_eq_enterEvents p hcur] at hrun
  refine ⟨(sendEvents (frameBits (src.raw p q.work)) (frameWidth (src.raw p q.work))).tail ++
    (q.afterSend (frameBits (src.raw p q.work))).enterEvents p, ?_, ?_⟩
  · rw [Seq.enter_of_some ho]
    exact hrun
  · rw [Seq.enterEvents_of_some ho, ← List.append_assoc]
    exact congrArg (· ++ _) (sendEvents_eq_cons _ h1).symm

/-! ## RECV8 -/

/-- The sequencer at the last edge of a RECV8 that starts in cycle `c`, with the whole byte in `acc`. -/
def Seq.recv8End (b : Nat → Bool) (c : Nat) (q : Seq) : Seq :=
  { q with acc := recvAcc b (cellCycles q.work.su.toNat q.work.th.toNat) c 8 0#8 }.recvCellEnd 7

/-- The sequencer just before the micro-op after that RECV8. -/
def Seq.afterRecv8 (b : Nat → Bool) (c : Nat) (q : Seq) : Seq := (q.recv8End b c).advance

/-- RECV8: 8·L cycles, a sample at the end of each cell (R139, R140). -/
theorem Seq.performs_recv8 {p : Params} {b : Nat → Bool} (c : Nat) {q : Seq} (hb : q.busy = true) (hw : q.work.Legal)
    (ho : q.currentOp = some .recv8) (hc : q.clkQ = false) :
    Seq.Performs p b c (recvCycles q.work.su.toNat q.work.th.toNat) q
      (recvCellEvents b (cellCycles q.work.su.toNat q.work.th.toNat) c 8) (q.afterRecv8 b c) := by
  have hrun : Seq.Runs p b c (recvCycles q.work.su.toNat q.work.th.toNat) q.startRecv8
      (recvCellEvents b (cellCycles q.work.su.toNat q.work.th.toNat) c 8 ++ (q.recv8End b c).finishEvents p)
      ((q.recv8End b c).finishOp p) :=
    Seq.runs_recvCells (p := p) (b := b) (n := 7) (j := 0) (q := { q with acc := 0#8 }) c hb hw ho hc rfl
  have hcur : (q.recv8End b c).currentOp = some .recv8 := ho
  rw [Seq.finishOp_eq_enter p hcur, Seq.finishEvents_eq_enterEvents p hcur] at hrun
  refine ⟨_, ?_, by rw [Seq.enterEvents_of_some ho]; rfl⟩
  rw [Seq.enter_of_some ho]
  exact hrun

/-- The events of RECV cells in terms of their samples. -/
theorem recvCellEvents_eq (b : Nat → Bool) (l c n : Nat) :
    recvCellEvents b l c n = recvEvents ((List.range n).map fun j => b (c + (j + 1) * l - 1)) := by
  induction n generalizing c with
  | zero => rfl
  | succ n ih =>
    have hsamples : (List.range (n + 1)).map (fun j => b (c + (j + 1) * l - 1)) =
        b (c + l - 1) :: (List.range n).map fun j => b (c + l + (j + 1) * l - 1) := by
      rw [List.range_succ_eq_map, List.map_cons, List.map_map, Nat.zero_add, Nat.one_mul]
      refine congrArg _ (List.map_congr_left fun j _ => ?_)
      show b (c + (j + 1 + 1) * l - 1) = _
      rw [show c + (j + 1 + 1) * l = c + l + (j + 1) * l by ring]
    rw [recvCellEvents, ih, hsamples]
    rfl

/-! ## POLL -/

/-- The sequencer in the middle of a slot, where CLK is low again. -/
def Seq.slotMiddle (q : Seq) : Seq := { q.startSlot with dly := 1#17 }.clkFall

/-- The first half of a slot (R141). -/
theorem Seq.runs_slotHigh {p : Params} {b : Nat → Bool} {c : Nat} {q : Seq} {bounded : Bool} (hb : q.busy = true)
    (hw : q.work.Legal) (ho : q.currentOp = some (.poll bounded)) :
    Seq.Runs p b c q.work.th.toNat q.startSlot (if q.work.pclk then [.clkDown] else []) q.slotMiddle := by
  have hth : q.work.th.toNat < 2 ^ 16 := q.work.th.isLt
  obtain ⟨h2, -⟩ := hw
  have hrun := Seq.Runs.waitAct (p := p) (b := b) (c := c) (q := q.startSlot) hb
    (n := q.work.th.toNat) (Seq.wait_toNat _ _ _ (by show q.work.th.toNat < _; omega)) (by omega)
  have hcur : { q.startSlot with dly := 1#17 }.currentOp = some (.poll bounded) := ho
  unfold Seq.act Seq.actEvents at hrun
  rw [hcur] at hrun
  exact hrun

theorem Seq.slotMiddle_end (q : Seq) : { q.slotMiddle with dly := 1#17 } = q.slotEnd := by
  simp [Seq.slotMiddle, Seq.slotEnd, Seq.clkFall, Seq.wait, Seq.setCLK, Seq.startSlot]

/-- The second half of a slot, with its sample at the last edge (R141). -/
theorem Seq.runs_slotLow {p : Params} {b : Nat → Bool} {c : Nat} {q : Seq} {bounded : Bool} (hb : q.busy = true)
    (hw : q.work.Legal) (ho : q.currentOp = some (.poll bounded)) :
    Seq.Runs p b c q.work.th.toNat q.slotMiddle (q.slotEnd.pollActEvents p bounded (b (c + q.work.th.toNat - 1)))
      (q.slotEnd.actPoll p bounded (b (c + q.work.th.toNat - 1))) := by
  have hth : q.work.th.toNat < 2 ^ 16 := q.work.th.isLt
  obtain ⟨h2, -⟩ := hw
  have hrun := Seq.Runs.waitAct (p := p) (b := b) (c := c) (q := q.slotMiddle) hb
    (n := q.work.th.toNat) (Seq.wait_toNat _ _ _ (by show q.work.th.toNat < _; omega)) (by omega)
  have hcur : q.slotEnd.currentOp = some (.poll bounded) := ho
  rw [Seq.slotMiddle_end] at hrun
  unfold Seq.act Seq.actEvents at hrun
  rw [hcur] at hrun
  exact hrun

/-- The sequencer just before the micro-op after a poll whose last slot sampled 1. -/
def Seq.afterPoll (q : Seq) : Seq := q.slotEnd.countSlot.advance

/-- The same after a bounded poll that timed out. -/
def Seq.afterTimeout (q : Seq) : Seq := q.slotEnd.countSlot.pollTimesOut.advance

/-- A whole slot, its last edge being that of an action `q'` with the events `es` after the sample. -/
theorem Seq.runs_wholeSlot {p : Params} {b : Nat → Bool} {c : Nat} {q q' : Seq} {bounded x : Bool} {es : List LineEvent}
    (hb : q.busy = true) (hw : q.work.Legal) (ho : q.currentOp = some (.poll bounded))
    (hx : b (c + 2 * q.work.th.toNat - 1) = x) (hq : q.slotEnd.actPoll p bounded x = q')
    (he : q.slotEnd.pollActEvents p bounded x = .sample x :: es) :
    Seq.Runs p b c (2 * q.work.th.toNat) (q.enter p)
      ((if q.work.pclk then [.clkDown] else []) ++ .sample x :: es) q' := by
  have hrun := (Seq.runs_slotHigh (p := p) (b := b) (c := c) hb hw ho).trans (Seq.runs_slotLow hb hw ho)
  rw [show c + q.work.th.toNat + q.work.th.toNat = c + 2 * q.work.th.toNat by omega, hx, hq, he,
    show q.work.th.toNat + q.work.th.toNat = 2 * q.work.th.toNat by omega] at hrun
  rw [Seq.enter_of_some ho]
  exact hrun

/-- The events of one slot: those of its start edge, the fall of CLK and the sample. -/
theorem pollEvents_singleton (clocked x : Bool) :
    (if clocked then [LineEvent.clkUp] else []) ++ ((if clocked then [.clkDown] else []) ++ [.sample x]) =
      pollEvents clocked [x] := by
  cases clocked <;> rfl

/-- A slot that samples 1 is the last (R141). -/
theorem Seq.performs_lastSlot {p : Params} {b : Nat → Bool} {c : Nat} {q : Seq} {bounded : Bool} (hb : q.busy = true)
    (hw : q.work.Legal) (ho : q.currentOp = some (.poll bounded)) (hx : b (c + 2 * q.work.th.toNat - 1) = true) :
    Seq.Performs p b c (2 * q.work.th.toNat) q (pollEvents q.work.pclk [true]) q.afterPoll := by
  have hcur : q.slotEnd.countSlot.currentOp = some (.poll bounded) := ho
  have hq : q.slotEnd.actPoll p bounded true = q.afterPoll.enter p := Seq.finishOp_eq_enter p hcur
  have he : q.slotEnd.pollActEvents p bounded true = .sample true :: q.afterPoll.enterEvents p :=
    congrArg _ (Seq.finishEvents_eq_enterEvents p hcur)
  refine ⟨_, Seq.runs_wholeSlot hb hw ho hx hq he, ?_⟩
  rw [Seq.enterEvents_of_some ho, ← pollEvents_singleton]
  simp [Seq.startEvents]

/-- Slot `w_pmax` of a bounded poll is the last, even if it samples 0 (R142). -/
theorem Seq.performs_timeoutSlot {p : Params} {b : Nat → Bool} {c : Nat} {q : Seq} (hb : q.busy = true)
    (hw : q.work.Legal) (ho : q.currentOp = some (.poll true)) (hx : b (c + 2 * q.work.th.toNat - 1) = false)
    (hlast : nextSlot q.slotCtr = q.work.pmax) :
    Seq.Performs p b c (2 * q.work.th.toNat) q (pollEvents q.work.pclk [false]) q.afterTimeout := by
  have hcur : q.slotEnd.countSlot.pollTimesOut.currentOp = some (.poll true) := ho
  have hpmax : (true && q.slotEnd.countSlot.slotCtr == q.slotEnd.work.pmax) = true := by
    show (true && nextSlot q.slotCtr == q.work.pmax) = true
    simpa using hlast
  have hq : q.slotEnd.actPoll p true false = q.afterTimeout.enter p :=
    (if_pos hpmax).trans (Seq.finishOp_eq_enter p hcur)
  have he : q.slotEnd.pollActEvents p true false = .sample false :: q.afterTimeout.enterEvents p :=
    congrArg _ ((if_pos hpmax).trans (Seq.finishEvents_eq_enterEvents p hcur))
  refine ⟨_, Seq.runs_wholeSlot hb hw ho hx hq he, ?_⟩
  rw [Seq.enterEvents_of_some ho, ← pollEvents_singleton]
  simp [Seq.startEvents]

/-- A slot that samples 0 and does not reach the bound is followed by the next (R141, R142). -/
theorem Seq.performs_emptySlot {p : Params} {b : Nat → Bool} {c : Nat} {q : Seq} {bounded : Bool} (hb : q.busy = true)
    (hw : q.work.Legal) (ho : q.currentOp = some (.poll bounded)) (hx : b (c + 2 * q.work.th.toNat - 1) = false)
    (hmore : bounded = true → nextSlot q.slotCtr ≠ q.work.pmax) :
    Seq.Performs p b c (2 * q.work.th.toNat) q (pollEvents q.work.pclk [false]) q.countSlot := by
  have hcur : q.countSlot.currentOp = some (.poll bounded) := ho
  have hpmax : ¬(bounded && q.slotEnd.countSlot.slotCtr == q.slotEnd.work.pmax) = true := by
    show ¬(bounded && nextSlot q.slotCtr == q.work.pmax) = true
    simpa using hmore
  have hq : q.slotEnd.actPoll p bounded false = q.countSlot.enter p := by
    rw [Seq.enter_of_some hcur]
    exact if_neg hpmax
  have he : q.slotEnd.pollActEvents p bounded false = .sample false :: q.countSlot.enterEvents p := by
    rw [Seq.enterEvents_of_some hcur]
    exact congrArg _ (if_neg hpmax)
  refine ⟨_, Seq.runs_wholeSlot hb hw ho hx hq he, ?_⟩
  rw [Seq.enterEvents_of_some ho, ← pollEvents_singleton]
  simp [Seq.startEvents]

/-- The sequencer after `k` slots that were not the last. -/
def Seq.countSlots (k : Nat) (q : Seq) : Seq := { q with slotCtr := nextSlot^[k] q.slotCtr }

theorem nextSlot_iterate_toNat (k : Nat) (w : Word) : (nextSlot^[k] w).toNat = min (w.toNat + k) 0xFFFFFFFF := by
  induction k generalizing w with
  | zero => have := w.isLt; show w.toNat = _; omega
  | succ k ih => rw [Function.iterate_succ_apply, ih, nextSlot_toNat]; omega

theorem pollEvents_append (clocked : Bool) (xs ys : List Bool) :
    pollEvents clocked (xs ++ ys) = pollEvents clocked xs ++ pollEvents clocked ys := List.flatMap_append

/-- As long as the slots sample 0 and the bound is not reached, the poll goes on (R141, R142). -/
theorem Seq.performs_emptySlots {p : Params} {b : Nat → Bool} {c k : Nat} {q : Seq} {bounded : Bool} (hb : q.busy = true)
    (hw : q.work.Legal) (ho : q.currentOp = some (.poll bounded))
    (hx : ∀ j, j < k → b (c + 2 * q.work.th.toNat * (j + 1) - 1) = false)
    (hmore : bounded = true → q.slotCtr.toNat + k < q.work.pmax.toNat) :
    Seq.Performs p b c (pollCycles q.work.th.toNat k) q (pollEvents q.work.pclk (List.replicate k false))
      (q.countSlots k) := by
  induction k with
  | zero => exact Seq.Performs.none p b c q
  | succ k ih =>
    have hfront := ih (fun j hj => hx j (by omega)) (fun hbound => by have := hmore hbound; omega)
    have hslot : Seq.Performs p b (c + pollCycles q.work.th.toNat k) (2 * q.work.th.toNat) (q.countSlots k)
        (pollEvents q.work.pclk [false]) (q.countSlots k).countSlot := by
      refine Seq.performs_emptySlot hb hw (q := q.countSlots k) ho ?_ fun hbound hlast => ?_
      · have hend : c + pollCycles q.work.th.toNat k + 2 * q.work.th.toNat = c + 2 * q.work.th.toNat * (k + 1) := by
          rw [pollCycles, Nat.mul_succ, Nat.add_assoc]
        show b (c + pollCycles q.work.th.toNat k + 2 * q.work.th.toNat - 1) = false
        rw [hend]
        exact hx k (Nat.lt_succ_self k)
      · have hmax := q.work.pmax.isLt
        have hctr := congrArg BitVec.toNat hlast
        have hlt := hmore hbound
        replace hctr : (nextSlot (nextSlot^[k] q.slotCtr)).toNat = q.work.pmax.toNat := hctr
        rw [nextSlot_toNat, nextSlot_iterate_toNat] at hctr
        omega
    have hnext : (q.countSlots k).countSlot = q.countSlots (k + 1) := by
      simp [Seq.countSlots, Seq.countSlot, Function.iterate_succ_apply']
    rw [hnext] at hslot
    refine (hfront.trans hslot).cast ?_ ?_
    · rw [pollCycles, pollCycles, Nat.mul_succ]
    · rw [← pollEvents_append, List.replicate_succ']

end Sys2Proof.Machine
end

section
/-! Whole commands (41_commands.md): the micro-programs as stretches of edges, the machine that follows them from the accept
edge on, and its registers at the completion edge. First the transactions; then the machine. -/

namespace Sys2Proof.Machine

/-! ## The micro-programs -/

/-- The micro-op at `upc`, from the table of its command. -/
theorem Seq.currentOp_of_table {q : Seq} {op : BitVec 3} {n : BitVec 4} {c : Option MicroOp} (hop : q.work.op = op)
    (hupc : q.upc = n) (h : (microProgram op)[n.toNat]? = c) : q.currentOp = c := by
  rw [Seq.currentOp, hop, hupc, h]

/-- The sequencer just before the micro-op after an EWEN or EWDS transaction. -/
def Seq.afterEnable (v : Frame) (q : Seq) : Seq := ((q.afterCsOn).afterSend v).afterCsOff

/-- CS_ON, SEND of a 9-bit frame, CS_OFF: 2C + 9L cycles (R166, R167, R245). -/
theorem Seq.performs_enable {p : Params} {b : Nat → Bool} (c : Nat) {q : Seq} {src : FrameSrc} {v : Frame}
    (hb : q.busy = true) (hw : q.work.Legal) (hc : q.clkQ = false) (hv : src.raw p q.work = .wire9 v)
    (hon : q.currentOp = some .csOn) (hsend : q.afterCsOn.currentOp = some (.send src))
    (hoff : (q.afterCsOn.afterSend v).currentOp = some .csOff) :
    Seq.Performs p b c (enableCycles q.work.su.toNat q.work.th.toNat q.work.cs.toNat) q (enableEvents v)
      (q.afterEnable v) := by
  have h1 := Seq.performs_csOn (p := p) (b := b) c hb hw hon
  have h2 := Seq.performs_send (p := p) (b := b) (q := q.afterCsOn) (v := v) (w := 9) (c + q.work.cs.toNat) hb hw hsend
    hc (by rw [show q.afterCsOn.work = q.work from rfl, hv]; rfl)
    (by rw [show q.afterCsOn.work = q.work from rfl, hv]; rfl)
  have h3 := Seq.performs_csOff (p := p) (b := b) (q := q.afterCsOn.afterSend v)
    (c + (q.work.cs.toNat + sendCycles q.work.su.toNat q.work.th.toNat 9)) hb hw hoff
  refine ((h1.trans h2).trans h3).cast ?_ rfl
  show q.work.cs.toNat + sendCycles q.work.su.toNat q.work.th.toNat 9 + q.work.cs.toNat = _
  unfold enableCycles
  omega

/-- The micro-ops of EWEN and EWDS (R166, R167). -/
theorem Seq.enable_currentOps {q : Seq} {src : FrameSrc}
    (hop : q.work.op = 3#3 ∧ src = .ewen ∨ q.work.op = 4#3 ∧ src = .ewds) (hupc : q.upc = 0#4) (v : Frame) :
    q.currentOp = some .csOn ∧ q.afterCsOn.currentOp = some (.send src) ∧
      (q.afterCsOn.afterSend v).currentOp = some .csOff ∧ (q.afterEnable v).currentOp = none := by
  rcases hop with ⟨hop, rfl⟩ | ⟨hop, rfl⟩ <;>
    exact ⟨Seq.currentOp_of_table hop hupc rfl,
      Seq.currentOp_of_table (n := 0#4 + 1#4) hop (congrArg (· + 1#4) hupc) rfl,
      Seq.currentOp_of_table (n := 0#4 + 1#4 + 1#4) hop (congrArg (· + 1#4 + 1#4) hupc) rfl,
      Seq.currentOp_of_table (n := 0#4 + 1#4 + 1#4 + 1#4) hop (congrArg (· + 1#4 + 1#4 + 1#4) hupc) rfl⟩

/-- From the start edge of READ to that of its RECV8: C + 9L cycles. -/
def Work.readHeadCycles (w : Work) : Nat := w.cs.toNat + sendCycles w.su.toNat w.th.toNat 9

/-- The sequencer just before READ's completion edge, when READ starts in cycle `c`. -/
def Seq.afterRead (v : Frame) (b : Nat → Bool) (c : Nat) (q : Seq) : Seq :=
  ((q.afterCsOn.afterSend v).afterRecv8 b (c + q.work.readHeadCycles)).afterCsOff

/-- The samples of a READ that starts in cycle `c` (R138). -/
def Work.readSamples (w : Work) (b : Nat → Bool) (c : Nat) : List Bool :=
  (List.range 8).map fun j => b (c + w.readHeadCycles + (j + 1) * cellCycles w.su.toNat w.th.toNat - 1)

/-- The micro-ops of READ up to its RECV8 (R161). -/
theorem Seq.read_currentOps {q : Seq} (hop : q.work.op = 1#3) (hupc : q.upc = 0#4) (v : Frame) :
    q.currentOp = some .csOn ∧ q.afterCsOn.currentOp = some (.send .read) ∧
      (q.afterCsOn.afterSend v).currentOp = some .recv8 :=
  ⟨Seq.currentOp_of_table hop hupc rfl, Seq.currentOp_of_table (n := 0#4 + 1#4) hop (congrArg (· + 1#4) hupc) rfl,
    Seq.currentOp_of_table (n := 0#4 + 1#4 + 1#4) hop (congrArg (· + 1#4 + 1#4) hupc) rfl⟩

/-- READ as a whole (R161). -/
theorem Seq.performs_read {p : Params} {b : Nat → Bool} (c : Nat) {q : Seq} (hb : q.busy = true) (hw : q.work.Legal)
    (hc : q.clkQ = false) (hop : q.work.op = 1#3) (hupc : q.upc = 0#4) :
    Seq.Performs p b c (readCycles q.work.su.toNat q.work.th.toNat q.work.cs.toNat) q
        (readEvents (addrFrame p.readHdr q.work.addr) (q.work.readSamples b c))
        (q.afterRead (addrFrame p.readHdr q.work.addr) b c) ∧
      (q.afterRead (addrFrame p.readHdr q.work.addr) b c).currentOp = none := by
  generalize hv : addrFrame p.readHdr q.work.addr = v
  obtain ⟨hon, hsend, hrecv⟩ := Seq.read_currentOps hop hupc v
  have hoff : ((q.afterCsOn.afterSend v).afterRecv8 b (c + q.work.readHeadCycles)).currentOp = some .csOff :=
    Seq.currentOp_of_table (n := 0#4 + 1#4 + 1#4 + 1#4) hop (congrArg (· + 1#4 + 1#4 + 1#4) hupc) rfl
  have hend : (q.afterRead v b c).currentOp = none :=
    Seq.currentOp_of_table (n := 0#4 + 1#4 + 1#4 + 1#4 + 1#4) hop (congrArg (· + 1#4 + 1#4 + 1#4 + 1#4) hupc) rfl
  have h1 := Seq.performs_csOn (p := p) (b := b) c hb hw hon
  have h2 := Seq.performs_send (p := p) (b := b) (q := q.afterCsOn) (v := v) (w := 9) (c + q.work.cs.toNat) hb hw hsend
    hc hv rfl
  have h3 := Seq.performs_recv8 (p := p) (b := b) (q := q.afterCsOn.afterSend v) (c + q.work.readHeadCycles) hb hw hrecv
    hc
  have h4 := Seq.performs_csOff (p := p) (b := b)
    (q := (q.afterCsOn.afterSend v).afterRecv8 b (c + q.work.readHeadCycles))
    (c + (q.work.readHeadCycles + recvCycles q.work.su.toNat q.work.th.toNat)) hb hw hoff
  refine ⟨(((h1.trans h2).trans h3).trans h4).cast ?_ ?_, hend⟩
  · show q.work.cs.toNat + sendCycles q.work.su.toNat q.work.th.toNat 9 + recvCycles q.work.su.toNat q.work.th.toNat +
      q.work.cs.toNat = _
    simp only [sendCycles, recvCycles, readCycles, Config.readBits]
    omega
  · rw [recvCellEvents_eq]
    rfl

/-- The sequencer just before the poll of WRITE or WRITEB. -/
def Seq.afterWriteHead (ewen frame data : Frame) (q : Seq) : Seq :=
  ((((q.afterEnable ewen).afterCsOn.afterSend frame).afterSend data).afterCsOff).afterCsOn

/-- From the start edge of WRITE or WRITEB to that of its poll: 5C + 26L cycles (R164, R168). -/
def Work.pollStart (w : Work) : Nat := 5 * w.cs.toNat + sendCycles w.su.toNat w.th.toNat 26

/-- Before their poll WRITE and WRITEB are the same (R164, R168). -/
theorem microProgram_write_table {op : BitVec 3} (hop : op = 2#3 ∨ op = 5#3) {n : Nat} (hn : n ≠ 8) :
    (microProgram op)[n]? = (programWrite false)[n]? := by
  rcases hop with rfl | rfl
  · rfl
  · match n with
    | 0 | 1 | 2 | 3 | 4 | 5 | 6 | 7 => rfl
    | 8 => exact absurd rfl hn
    | 9 | 10 | 11 | 12 => rfl
    | n + 13 => rfl

/-- The micro-op of WRITE or WRITEB at an `upc` other than the poll's, at a later point `q'` of the command. -/
theorem Seq.currentOp_of_write {q q' : Seq} (hop : q.work.op = 2#3 ∨ q.work.op = 5#3) (n : Nat)
    (hwork : q'.work = q.work) (hupc : q'.upc.toNat = n) (hn : n ≠ 8) : q'.currentOp = (programWrite false)[n]? := by
  rw [Seq.currentOp, hwork, hupc, microProgram_write_table hop hn]

/-- The micro-ops of WRITE and WRITEB up to their poll (R164, R168). -/
structure Seq.WriteHead (ewen frame data : Frame) (q : Seq) : Prop where
  enableOn : q.currentOp = some .csOn
  enableSend : q.afterCsOn.currentOp = some (.send .ewen)
  enableOff : (q.afterCsOn.afterSend ewen).currentOp = some .csOff
  on : (q.afterEnable ewen).currentOp = some .csOn
  sendFrame : (q.afterEnable ewen).afterCsOn.currentOp = some (.send .write)
  sendData : ((q.afterEnable ewen).afterCsOn.afterSend frame).currentOp = some (.send .data)
  off : (((q.afterEnable ewen).afterCsOn.afterSend frame).afterSend data).currentOp = some .csOff
  pollOn : (((q.afterEnable ewen).afterCsOn.afterSend frame).afterSend data).afterCsOff.currentOp = some .csOn

theorem Seq.writeHead {q : Seq} (hop : q.work.op = 2#3 ∨ q.work.op = 5#3) (hupc : q.upc = 0#4)
    (ewen frame data : Frame) : q.WriteHead ewen frame data := by
  obtain ⟨busy, csQ, clkQ, diQ, work, acc, shVal, bitIdx, slotCtr, timedOut, upc, dly, phase, cell⟩ := q
  subst hupc
  exact ⟨Seq.currentOp_of_write hop 0 rfl rfl (by decide), Seq.currentOp_of_write hop 1 rfl rfl (by decide),
    Seq.currentOp_of_write hop 2 rfl rfl (by decide), Seq.currentOp_of_write hop 3 rfl rfl (by decide),
    Seq.currentOp_of_write hop 4 rfl rfl (by decide), Seq.currentOp_of_write hop 5 rfl rfl (by decide),
    Seq.currentOp_of_write hop 6 rfl rfl (by decide), Seq.currentOp_of_write hop 7 rfl rfl (by decide)⟩

/-- The CS assertion of a write with its frame and its data: 2C + 17L cycles. -/
def Work.writeSendCycles (w : Work) : Nat :=
  w.cs.toNat + sendCycles w.su.toNat w.th.toNat 9 + sendCycles w.su.toNat w.th.toNat 8

/-- From the start edge of WRITE or WRITEB to that of the CS_OFF behind its data (R164, R168). -/
theorem Seq.performs_writeSend {p : Params} {b : Nat → Bool} (c : Nat) {q : Seq} (hb : q.busy = true) (hw : q.work.Legal)
    (hc : q.clkQ = false) {ewen frame data : Frame} (hhead : q.WriteHead ewen frame data)
    (hframe : frame = addrFrame p.writeHdr q.work.addr) (hdata : data = q.work.data.setWidth 9) :
    Seq.Performs p b c q.work.writeSendCycles (q.afterEnable ewen)
      (csOnEvents ++ sendEvents frame 9 ++ sendEvents data 8)
      (((q.afterEnable ewen).afterCsOn.afterSend frame).afterSend data) := by
  obtain ⟨busy, csQ, clkQ, diQ, work, acc, shVal, bitIdx, slotCtr, timedOut, upc, dly, phase, cell⟩ := q
  let q : Seq := ⟨busy, csQ, clkQ, diQ, work, acc, shVal, bitIdx, slotCtr, timedOut, upc, dly, phase, cell⟩
  have h2 := Seq.performs_csOn (p := p) (b := b) (q := q.afterEnable ewen) c hb hw hhead.on
  have h3 (c : Nat) := Seq.performs_send (p := p) (b := b) (q := (q.afterEnable ewen).afterCsOn) (src := .write)
    (v := frame) (w := 9) c hb hw hhead.sendFrame hc hframe.symm rfl
  have h4 (c : Nat) := Seq.performs_send (p := p) (b := b)
    (q := (q.afterEnable ewen).afterCsOn.afterSend frame) (src := .data) (v := data) (w := 8) c hb hw hhead.sendData hc
    hdata.symm rfl
  exact (h2.trans (h3 _)).trans (h4 _)

/-- WRITE and WRITEB up to their poll (R164, R168). -/
theorem Seq.performs_writeHead {p : Params} {b : Nat → Bool} (c : Nat) {q : Seq} (hb : q.busy = true) (hw : q.work.Legal)
    (hc : q.clkQ = false) (hop : q.work.op = 2#3 ∨ q.work.op = 5#3) (hupc : q.upc = 0#4) :
    Seq.Performs p b c q.work.pollStart q
      (writeHeadEvents (p.ewenFrame.setWidth 9) (addrFrame p.writeHdr q.work.addr) q.work.data)
      (q.afterWriteHead (p.ewenFrame.setWidth 9) (addrFrame p.writeHdr q.work.addr) (q.work.data.setWidth 9)) := by
  obtain ⟨busy, csQ, clkQ, diQ, work, acc, shVal, bitIdx, slotCtr, timedOut, upc, dly, phase, cell⟩ := q
  let q : Seq := ⟨busy, csQ, clkQ, diQ, work, acc, shVal, bitIdx, slotCtr, timedOut, upc, dly, phase, cell⟩
  have hhead := Seq.writeHead hop hupc (p.ewenFrame.setWidth 9) (addrFrame p.writeHdr work.addr) (work.data.setWidth 9)
  have h1 := Seq.performs_enable (p := p) (b := b) (q := q) (src := .ewen) c hb hw hc rfl hhead.enableOn hhead.enableSend
    hhead.enableOff
  have h2 (c : Nat) := Seq.performs_writeSend (p := p) (b := b) c hb hw hc hhead rfl rfl
  have h3 (c : Nat) := Seq.performs_csOff (p := p) (b := b)
    (q := ((q.afterEnable (p.ewenFrame.setWidth 9)).afterCsOn.afterSend (addrFrame p.writeHdr work.addr)).afterSend
      (work.data.setWidth 9)) c hb hw hhead.off
  have h4 (c : Nat) := Seq.performs_csOn (p := p) (b := b)
    (q := (((q.afterEnable (p.ewenFrame.setWidth 9)).afterCsOn.afterSend (addrFrame p.writeHdr work.addr)).afterSend
      (work.data.setWidth 9)).afterCsOff) c hb hw hhead.pollOn
  refine (((h1.trans (h2 _)).trans (h3 _)).trans (h4 _)).cast ?_ ?_
  · show enableCycles work.su.toNat work.th.toNat work.cs.toNat + work.writeSendCycles + work.cs.toNat + work.cs.toNat = _
    simp only [enableCycles, sendCycles, Work.pollStart, Work.writeSendCycles]
    omega
  · simp only [writeHeadEvents, List.append_assoc]

/-- The sequencer just before the completion edge of WRITE or WRITEB, from the one just after its poll. -/
def Seq.afterWriteTail (ewds : Frame) (q : Seq) : Seq := q.afterCsOff.afterEnable ewds

/-- WRITE and WRITEB after their poll (R164, R168). -/
theorem Seq.performs_writeTail {p : Params} {b : Nat → Bool} (c : Nat) {q : Seq} (hb : q.busy = true) (hw : q.work.Legal)
    (hc : q.clkQ = false) (hop : q.work.op = 2#3 ∨ q.work.op = 5#3) (hupc : q.upc = 9#4) :
    Seq.Performs p b c (q.work.cs.toNat + enableCycles q.work.su.toNat q.work.th.toNat q.work.cs.toNat) q
        (csOffEvents ++ enableEvents (p.ewdsFrame.setWidth 9)) (q.afterWriteTail (p.ewdsFrame.setWidth 9)) ∧
      (q.afterWriteTail (p.ewdsFrame.setWidth 9)).currentOp = none := by
  obtain ⟨busy, csQ, clkQ, diQ, work, acc, shVal, bitIdx, slotCtr, timedOut, upc, dly, phase, cell⟩ := q
  subst hupc
  let q : Seq := ⟨busy, csQ, clkQ, diQ, work, acc, shVal, bitIdx, slotCtr, timedOut, 9#4, dly, phase, cell⟩
  have h1 := Seq.performs_csOff (p := p) (b := b) (q := q) c hb hw (Seq.currentOp_of_write hop 9 rfl rfl (by decide))
  have h2 := Seq.performs_enable (p := p) (b := b) (q := q.afterCsOff) (src := .ewds) (v := p.ewdsFrame.setWidth 9)
    (c + work.cs.toNat) hb hw hc rfl (Seq.currentOp_of_write hop 10 rfl rfl (by decide))
    (Seq.currentOp_of_write hop 11 rfl rfl (by decide)) (Seq.currentOp_of_write hop 12 rfl rfl (by decide))
  exact ⟨h1.trans h2, Seq.currentOp_of_write hop 13 rfl rfl (by decide)⟩

/-! ## The machine as its cycles -/

/-- A run after the first reset is a number of cycles. -/
theorem after_iff_cycles {t : State} (h : t.resetSeen = true) (n : Nat) (P : State → Prop) :
    After n t P ↔ P (t.cycles n) := by
  unfold After
  rw [run_cycles (fun _ => step_eq_clkCycle) h n]
  constructor
  · rintro ⟨u, hu, hp⟩
    cases hu
    exact hp
  · exact fun hp => ⟨_, rfl, hp⟩

theorem State.cycles_legal {t : State} (hq : t.quiet) (hl : t.Legal) (n : Nat) : (t.cycles n).Legal := by
  induction n with
  | zero => exact hl
  | succ n ih =>
    rw [State.cycles_succ]
    exact State.clkCycle_legal (State.quiet_cycles hq n).1 ih _

theorem Lines.after_append (l : Lines) (xs ys : List LineEvent) : l.after (xs ++ ys) = (l.after xs).after ys :=
  List.foldl_append

/-- The lines after any number of cycles are what their events make of them. -/
theorem State.lines_cycles {t : State} (hq : t.quiet) (hl : t.Legal) (n : Nat) :
    (t.cycles n).mwm.lines = t.mwm.lines.after (eventsOver n t) := by
  induction n generalizing t with
  | zero => rfl
  | succ n ih =>
    have hmoved := State.edge_moved hl ⟨hq.1, State.quiet_rst hq⟩ t.portAccess
    rw [eventsOver, step_eq_clkCycle hq.1, State.cycles,
      ih (State.quiet_clkCycle hq _) (State.clkCycle_legal hq.1 hl _), hmoved.after]
    exact (Lines.after_append _ _ _).symm

/-- The levels that a running sequencer samples, cycle by cycle. -/
def State.samples (t : State) (i : Nat) : Bool := (t.cycles i).mwm.doS2

theorem State.cycles_asyncDo (t : State) (n : Nat) : (t.cycles n).env.asyncDo = t.env.asyncDo := by
  induction n with
  | zero => rfl
  | succ n ih =>
    rw [State.cycles_succ, State.clkCycle_env]
    exact (Env.observe_kind _ _ _ _).2.trans ih

/-- With DO synchronous to `clk`, the level sampled in a cycle is the pin of two cycles before (R38). -/
theorem State.samples_eq_doPin {t : State} (hq : t.quiet) (hsync : t.env.asyncDo = false) (i : Nat) :
    t.samples (i + 2) = (t.cycles i).doPin := by
  have hrst (n : Nat) : (t.cycles n).rst = false := State.quiet_rst (State.quiet_cycles hq n)
  have hpin := State.doIn_of_synchronous (s := t.cycles i) ((t.cycles_asyncDo i).trans hsync)
  rw [State.samples, State.cycles_succ, (State.clkCycle_sync (hrst (i + 1)) _).2, State.cycles_succ,
    (State.clkCycle_sync (hrst i) _).1, hpin]

/-! ## A command from its accept edge on -/

/-- The machine in the first cycle after an accept edge. -/
def State.commanded (op : BitVec 3) (a d : Byte) (s : State) : State := s.clkCycle (.write 0#3 (cmdWord op a d))

/-- The sequencer just before its first start edge, which is the accept edge (R160). -/
def State.startSeq (op : BitVec 3) (a d : Byte) (s : State) : Seq :=
  { s.mwm.acceptedSeq op a d with busy := true, upc := 0#4 }

/-- The line events from the accept edge on. -/
def State.seenEvents (op : BitVec 3) (a d : Byte) (s : State) (n : Nat) : List LineEvent :=
  s.edgeEvents (.write 0#3 (cmdWord op a d)) ++ eventsOver n (s.commanded op a d)

section
variable {s : State} {op : BitVec 3}

/-- What a legal idle machine has ready for a command: legal timing and idle lines. -/
theorem State.startSeq_legal (hl : s.Legal) (hq : s.quiet) (hb : s.mwm.seq.busy = false) (op : BitVec 3) (a d : Byte) :
    (s.startSeq op a d).work.Legal ∧ s.mwm.seq.idleLegal := by
  obtain ⟨hhost, -, -, -, hidle, -⟩ := hl.1 hq.1
  obtain ⟨hth, hsu, hcs, hpmax, -⟩ := hhost
  exact ⟨⟨hth, hsu, hcs, hpmax⟩, hidle hb⟩

theorem State.commanded_quiet (hq : s.quiet) (op : BitVec 3) (a d : Byte) : (s.commanded op a d).quiet :=
  State.quiet_clkCycle hq _

theorem State.commanded_legal (hl : s.Legal) (hq : s.quiet) (op : BitVec 3) (a d : Byte) : (s.commanded op a d).Legal :=
  State.clkCycle_legal hq.1 hl _

/-- At the accept edge the first micro-op starts (R130, R160). -/
theorem State.commanded_seq (hq : s.quiet) (hb : s.mwm.seq.busy = false) (hop : 1 ≤ op.toNat ∧ op.toNat ≤ 5) (a d : Byte) :
    (s.commanded op a d).mwm.seq = (s.startSeq op a d).enter s.params ∧
      s.edgeEvents (.write 0#3 (cmdWord op a d)) = (s.startSeq op a d).enterEvents s.params := by
  have hrun : s.running := ⟨hq.1, State.quiet_rst hq⟩
  have hcur : (s.startSeq op a d).currentOp = some .csOn :=
    List.head?_eq_getElem?.symm.trans (microProgram_begins_csOn op hop)
  constructor
  · rw [State.commanded, State.clkCycle_mwm_of_program hrun hb hop, Seq.enter_of_some hcur, ← BitVec.ofNat_toNat]
    rfl
  · have hne : microProgram op ≠ [] := fun hnil => by simpa [hnil] using microProgram_begins_csOn op hop
    rw [Seq.enterEvents_of_some hcur]
    unfold State.edgeEvents
    rw [if_neg (by simp [hrun.2]), if_neg (by simp [hb])]
    simp [hne, Seq.startEvents]

/-- The machine follows the micro-program: it is busy throughout, and its sequencer and events are those of the stretch. -/
theorem State.commanded_performs (hq : s.quiet) (hb : s.mwm.seq.busy = false) (hop : 1 ≤ op.toNat ∧ op.toNat ≤ 5)
    {a d : Byte} {n : Nat} {es : List LineEvent} {q' : Seq}
    (h : Seq.Performs s.params (s.commanded op a d).samples 0 n (s.startSeq op a d) es q') :
    (∀ m, m < n → ((s.commanded op a d).cycles m).mwm.seq.busy = true) ∧
      ((s.commanded op a d).cycles n).mwm.seq = q'.enter s.params ∧
      s.seenEvents op a d n = es ++ q'.enterEvents s.params := by
  obtain ⟨rest, hrun, hevents⟩ := h
  obtain ⟨hseq, hedge⟩ := State.commanded_seq hq hb hop a d
  have htq := State.commanded_quiet hq op a d
  rw [← hseq] at hrun
  obtain ⟨hbusy, hend⟩ := State.cycles_runs (s := s.commanded op a d) htq hrun
  refine ⟨hbusy, hend, ?_⟩
  rw [State.seenEvents, hedge, eventsOver_runs (fun _ => step_eq_clkCycle) htq hrun, hevents]

/-- After any number of cycles the lines are what the events since the accept edge make of the idle levels. -/
theorem State.commanded_lines (hl : s.Legal) (hq : s.quiet) (hb : s.mwm.seq.busy = false) (op : BitVec 3) (a d : Byte)
    (n : Nat) : ((s.commanded op a d).cycles n).mwm.lines = Lines.idle.after (s.seenEvents op a d n) := by
  obtain ⟨-, hcs, hclk, hdi, -⟩ := State.startSeq_legal hl hq hb op a d
  have hidle : s.mwm.lines = Lines.idle := by rw [Mwm.lines, hcs, hclk, hdi]; rfl
  have hmoved := State.edge_moved hl ⟨hq.1, State.quiet_rst hq⟩ (.write 0#3 (cmdWord op a d))
  have htq := State.commanded_quiet hq op a d
  have htl := State.commanded_legal hl hq op a d
  rw [State.lines_cycles htq htl, State.seenEvents, Lines.after_append, ← hidle]
  rw [← hmoved.after]
  rfl

/-- A running command has not set DONE (R160). -/
theorem State.done_of_busy {u : State} (hl : u.Legal) (hseen : u.resetSeen = true) (hb : u.mwm.seq.busy = true) :
    u.mwm.host.done = false := by
  obtain ⟨-, -, ⟨-, -, hflags⟩, -⟩ := hl.1 hseen
  exact (hflags hb).1

/-- What the registers show after the completion edge of a command whose last sequencer is `q` (R171). -/
structure State.Completed (op : BitVec 3) (q : Seq) (u : State) : Prop where
  seq : u.mwm.seq = q.complete
  done : u.mwm.host.done = true
  rdata : op = 1#3 → u.mwm.host.rdata = q.acc
  timeout : op = 5#3 → u.mwm.host.timeout = q.timedOut
  noTimeout : op ≠ 5#3 → u.mwm.host.timeout = false
  noIllegal : op ≠ 6#3 → op ≠ 7#3 → u.mwm.host.illegal = false
  csQ : u.mwm.seq.csQ = false
  clkQ : u.mwm.seq.clkQ = false
  diQ : u.mwm.seq.diQ = false

theorem State.Completed.idle {q : Seq} {u : State} (h : u.Completed op q) : u.mwm.seq.busy = false := by
  rw [h.seq]; rfl

/-- A stretch that ends past the last micro-op completes the command. -/
theorem State.commanded_completes (hl : s.Legal) (hq : s.quiet) (hb : s.mwm.seq.busy = false)
    (hop : 1 ≤ op.toNat ∧ op.toNat ≤ 5) {a d : Byte} {n : Nat} {es : List LineEvent} {q' : Seq} (hn : 1 ≤ n)
    (h : Seq.Performs s.params (s.commanded op a d).samples 0 n (s.startSeq op a d) es q') (hend : q'.currentOp = none)
    (hwork : q'.work.op = op) :
    ((s.commanded op a d).cycles n).Completed op q' ∧ s.seenEvents op a d n = es := by
  obtain ⟨hbusy, hseq, hevents⟩ := State.commanded_performs hq hb hop h
  have htq := State.commanded_quiet hq op a d
  have htl := State.commanded_legal hl hq op a d
  have henter : q'.enter s.params = q'.complete := by rw [Seq.enter, hend]
  have hevents0 : q'.enterEvents s.params = [] := by rw [Seq.enterEvents, hend]
  rw [henter] at hseq
  rw [hevents0, List.append_nil] at hevents
  refine ⟨?_, hevents⟩
  obtain ⟨k, rfl⟩ : ∃ k, n = k + 1 := ⟨n - 1, by omega⟩
  have hu := State.cycles_legal htq htl (k + 1)
  have huseen := (State.quiet_cycles htq (k + 1)).1
  have hrst := State.quiet_rst (State.quiet_cycles htq k)
  obtain ⟨-, -, ⟨hill, hto, -⟩, -, hidle, -⟩ := hu.1 huseen
  have hopu : ((s.commanded op a d).cycles (k + 1)).mwm.seq.work.op = op := by rw [hseq]; exact hwork
  obtain ⟨hcs, hclk, hdi, -⟩ := hidle (by rw [hseq]; rfl)
  generalize hx : (s.commanded op a d).cycles k = x at hrst
  have hstep : (s.commanded op a d).cycles (k + 1) = x.clkCycle x.portAccess := by rw [State.cycles_succ, hx]
  have hxb : x.mwm.seq.busy = true := hx ▸ hbusy k (Nat.lt_succ_self k)
  rw [hstep] at hseq hill hto hopu hcs hclk hdi ⊢
  have hnext : x.seqNext = q'.complete := by
    rw [State.clkCycle_seq hrst, if_pos hxb] at hseq
    exact hseq
  have hc : x.completes = true := by rw [State.completes, hxb, hnext]; rfl
  have hxseq : x.mwm.seq.complete = q'.complete := (State.seqNext_of_completes hc).symm.trans hnext
  have hhost := State.clkCycle_host hrst x.portAccess
  rw [if_pos hc] at hhost
  have hxop : x.mwm.seq.work.op = op := (congrArg (fun q => q.work.op) hxseq).trans hwork
  have hxacc : x.mwm.seq.acc = q'.acc := congrArg (fun q => q.acc) hxseq
  have hxto : x.mwm.seq.timedOut = q'.timedOut := congrArg (fun q => q.timedOut) hxseq
  refine ⟨hseq, by rw [hhost]; rfl, fun h1 => ?_, fun h5 => ?_, fun h5 => ?_, fun h6 h7 => ?_, hcs, hclk, hdi⟩
  · rw [hhost, ← hxacc]
    exact if_pos (hxop.trans h1)
  · rw [hhost, ← hxto]
    exact if_pos (hxop.trans h5)
  · by_contra hf
    exact h5 (hopu.symm.trans (hto (by simpa using hf)))
  · by_contra hf
    rcases hill (by simpa using hf) with hi | hi
    · exact h6 (hopu.symm.trans hi)
    · exact h7 (hopu.symm.trans hi)

end

end Sys2Proof.Machine
end

section
/-! EWEN, EWDS and READ from the accept edge to the completion edge (41_commands.md R161 to R167): their durations, their line
events and the byte that READ leaves. -/

namespace Sys2Proof.Machine

/-- EWEN or EWDS from a legal idle state: its whole run, with the events of its frame. -/
theorem State.commanded_enable {s : State} (hl : s.Legal) (hq : s.quiet) (hb : s.mwm.seq.busy = false) {op : BitVec 3}
    {v : Frame} (hop : op = 3#3 ∧ v = s.params.ewenFrame.setWidth 9 ∨ op = 4#3 ∧ v = s.params.ewdsFrame.setWidth 9)
    (a d : Byte) :
    Seq.Performs s.params (s.commanded op a d).samples 0 s.mwm.host.enableTime (s.startSeq op a d) (enableEvents v)
        ((s.startSeq op a d).afterEnable v) ∧ ((s.startSeq op a d).afterEnable v).currentOp = none := by
  obtain ⟨hw, -, hclk, -⟩ := State.startSeq_legal hl hq hb op a d
  rcases hop with ⟨rfl, rfl⟩ | ⟨rfl, rfl⟩
  · obtain ⟨hon, hsend, hoff, hend⟩ := Seq.enable_currentOps (q := s.startSeq 3#3 a d) (.inl ⟨rfl, rfl⟩) rfl _
    exact ⟨Seq.performs_enable (q := s.startSeq 3#3 a d) (src := .ewen) 0 rfl hw hclk rfl hon hsend hoff, hend⟩
  · obtain ⟨hon, hsend, hoff, hend⟩ := Seq.enable_currentOps (q := s.startSeq 4#3 a d) (.inr ⟨rfl, rfl⟩) rfl _
    exact ⟨Seq.performs_enable (q := s.startSeq 4#3 a d) (src := .ewds) 0 rfl hw hclk rfl hon hsend hoff, hend⟩

/-- READ from a legal idle state: its whole run. -/
theorem State.commanded_read {s : State} (hl : s.Legal) (hq : s.quiet) (hb : s.mwm.seq.busy = false) (a d : Byte) :
    Seq.Performs s.params (s.commanded 1#3 a d).samples 0 s.mwm.host.readTime (s.startSeq 1#3 a d)
        (readEvents (addrFrame s.params.readHdr a)
          ((s.startSeq 1#3 a d).work.readSamples (s.commanded 1#3 a d).samples 0))
        ((s.startSeq 1#3 a d).afterRead (addrFrame s.params.readHdr a) (s.commanded 1#3 a d).samples 0) ∧
      ((s.startSeq 1#3 a d).afterRead (addrFrame s.params.readHdr a) (s.commanded 1#3 a d).samples 0).currentOp = none := by
  obtain ⟨hw, -, hclk, -⟩ := State.startSeq_legal hl hq hb 1#3 a d
  exact Seq.performs_read (q := s.startSeq 1#3 a d) 0 rfl hw hclk rfl rfl

/-- Legal timing makes every command last at least a cycle. -/
theorem HostRegs.Legal.times_pos {h : HostRegs} (hl : h.Legal) :
    1 ≤ h.enableTime ∧ 1 ≤ h.readTime ∧ ∀ k, 1 ≤ h.writeTime k := by
  obtain ⟨-, -, hcs, -⟩ := hl
  refine ⟨?_, ?_, fun k => ?_⟩
  · unfold HostRegs.enableTime enableCycles
    omega
  · unfold HostRegs.readTime readCycles
    omega
  · unfold HostRegs.writeTime writeCycles
    omega

/-- Bit 7 − j of a byte received from cycle `c` on is the sample of its cell `j` (R139). -/
theorem Seq.afterRead_acc (v : Frame) (b : Nat → Bool) (c : Nat) (q : Seq) {j : Nat} (hj : j < 8) :
    (q.afterRead v b c).acc.getLsbD (7 - j) =
      b (c + q.work.readHeadCycles + (j + 1) * cellCycles q.work.su.toNat q.work.th.toNat - 1) :=
  recvAcc_bit b (cellCycles q.work.su.toNat q.work.th.toNat) (c + q.work.readHeadCycles) 8 j 0#8 hj (by omega)

/-- The byte that READ leaves in RDATA, sample by sample (R138, R162). -/
theorem State.commanded_rdata {s : State} (hl : s.Legal) (hq : s.quiet) (hb : s.mwm.seq.busy = false) (a d : Byte)
    {j : Nat} (hj : j < 8) :
    ((s.commanded 1#3 a d).cycles s.mwm.host.readTime).mwm.host.rdata.getLsbD (7 - j) =
      (s.commanded 1#3 a d).samples ((s.startSeq 1#3 a d).work.readHeadCycles +
        (j + 1) * cellCycles s.mwm.host.tSu.toNat s.mwm.host.tHalf.toNat - 1) := by
  obtain ⟨hperf, hend⟩ := State.commanded_read hl hq hb a d
  obtain ⟨hdone, -⟩ := State.commanded_completes hl hq hb (by decide) (HostRegs.Legal.times_pos (hl.1 hq.1).1).2.1 hperf
    hend rfl
  rw [hdone.rdata rfl, Seq.afterRead_acc _ _ _ _ hj, Nat.zero_add]
  rfl

/-! ## The statements -/

/-- Settles O30: the run of either command is 2C + 9L edges long and ends past the last micro-op. -/
theorem enableCommandsTakeExactTime : Obligations.EnableCommandsTakeExactTime := by
  intro a d s hl hq hb i hi
  have takes {op : BitVec 3} {v : Frame}
      (hop : op = 3#3 ∧ v = s.params.ewenFrame.setWidth 9 ∨ op = 4#3 ∧ v = s.params.ewdsFrame.setWidth 9) :
      ∃ t, s.hostCycle (.write 0#3 (cmdWord op a d)) = .next t ∧
        (∀ n, n < s.mwm.host.enableTime → After n t fun u => u.mwm.seq.busy = true ∧ u.mwm.host.done = false) ∧
        After s.mwm.host.enableTime t fun u => u.mwm.seq.busy = false ∧ u.mwm.host.done = true ∧
          u.mwm.seq.csQ = false ∧ u.mwm.seq.clkQ = false ∧ u.mwm.seq.diQ = false := by
    have hprog : 1 ≤ op.toNat ∧ op.toNat ≤ 5 := by rcases hop with ⟨rfl, -⟩ | ⟨rfl, -⟩ <;> decide
    obtain ⟨hperf, hend⟩ := State.commanded_enable hl hq hb hop a d
    obtain ⟨hbusy, -⟩ := State.commanded_performs hq hb hprog hperf
    obtain ⟨hdone, -⟩ := State.commanded_completes hl hq hb hprog (HostRegs.Legal.times_pos (hl.1 hq.1).1).1 hperf hend rfl
    have htq := State.commanded_quiet hq op a d
    have htl := State.commanded_legal hl hq op a d
    refine ⟨s.commanded op a d, State.hostCycle_after hq.1 _, fun n hn => ?_, ?_⟩
    · rw [after_iff_cycles htq.1]
      exact ⟨hbusy n hn, State.done_of_busy (State.cycles_legal htq htl n) (State.quiet_cycles htq n).1 (hbusy n hn)⟩
    · rw [after_iff_cycles htq.1]
      exact ⟨hdone.idle, hdone.done, hdone.csQ, hdone.clkQ, hdone.diQ⟩
  rcases hi with rfl | rfl
  · exact takes (.inl ⟨rfl, rfl⟩)
  · exact takes (.inr ⟨rfl, rfl⟩)

/-- Settles O32: the events of the run are those of the transaction, and the lines follow the events at every cycle. -/
theorem enableCommandsLineEvents : Obligations.EnableCommandsLineEvents := by
  intro a d s hl hq hb
  have follows {op : BitVec 3} {v : Frame}
      (hop : op = 3#3 ∧ v = s.params.ewenFrame.setWidth 9 ∨ op = 4#3 ∧ v = s.params.ewdsFrame.setWidth 9) :
      ∃ t, s.hostCycle (.write 0#3 (cmdWord op a d)) = .next t ∧
        s.edgeEvents (.write 0#3 (cmdWord op a d)) ++ eventsOver s.mwm.host.enableTime t = enableEvents v ∧
        ∀ n, n ≤ s.mwm.host.enableTime → After n t fun u => u.mwm.lines =
          Lines.idle.after (s.edgeEvents (.write 0#3 (cmdWord op a d)) ++ eventsOver n t) := by
    have hprog : 1 ≤ op.toNat ∧ op.toNat ≤ 5 := by rcases hop with ⟨rfl, -⟩ | ⟨rfl, -⟩ <;> decide
    obtain ⟨hperf, hend⟩ := State.commanded_enable hl hq hb hop a d
    obtain ⟨-, hevents⟩ := State.commanded_completes hl hq hb hprog (HostRegs.Legal.times_pos (hl.1 hq.1).1).1 hperf hend
      rfl
    refine ⟨s.commanded op a d, State.hostCycle_after hq.1 _, hevents, fun n _ => ?_⟩
    rw [after_iff_cycles (State.commanded_quiet hq op a d).1]
    exact State.commanded_lines hl hq hb op a d n
  exact ⟨follows (.inl ⟨rfl, rfl⟩), follows (.inr ⟨rfl, rfl⟩)⟩

/-- Settles O33: as for the others, and `acc` is the samples of the eight cells. -/
theorem readLineEvents : Obligations.ReadLineEvents := by
  intro a d s hl hq hb
  obtain ⟨hperf, hend⟩ := State.commanded_read hl hq hb a d
  obtain ⟨hdone, hevents⟩ := State.commanded_completes hl hq hb (by decide)
    (HostRegs.Legal.times_pos (hl.1 hq.1).1).2.1 hperf hend rfl
  refine ⟨s.commanded 1#3 a d, _, State.hostCycle_after hq.1 _, ?_, hevents, fun n _ => ?_, ?_⟩
  · simp [Work.readSamples]
  · rw [after_iff_cycles (State.commanded_quiet hq 1#3 a d).1]
    exact State.commanded_lines hl hq hb 1#3 a d n
  · rw [after_iff_cycles (State.commanded_quiet hq 1#3 a d).1]
    refine ⟨hdone.idle, fun j hj => ?_⟩
    rw [State.commanded_rdata hl hq hb a d hj, Work.readSamples, List.getElem?_map, List.getElem?_range hj,
      Option.map_some, Nat.zero_add]
    rfl

/-- Settles O36: the run of READ is 2C + 17L edges long. -/
theorem readTakesExactTime : Obligations.ReadTakesExactTime := by
  intro a d s hl hq hb
  obtain ⟨hperf, hend⟩ := State.commanded_read hl hq hb a d
  obtain ⟨hbusy, -⟩ := State.commanded_performs hq hb (by decide) hperf
  obtain ⟨hdone, -⟩ := State.commanded_completes hl hq hb (by decide) (HostRegs.Legal.times_pos (hl.1 hq.1).1).2.1 hperf
    hend rfl
  have htq := State.commanded_quiet hq 1#3 a d
  have htl := State.commanded_legal hl hq 1#3 a d
  refine ⟨s.commanded 1#3 a d, State.hostCycle_after hq.1 _, fun n hn => ?_, ?_⟩
  · rw [after_iff_cycles htq.1]
    exact ⟨hbusy n hn, State.done_of_busy (State.cycles_legal htq htl n) (State.quiet_cycles htq n).1 (hbusy n hn)⟩
  · rw [after_iff_cycles htq.1]
    exact ⟨hdone.idle, hdone.done, hdone.noTimeout (by decide), hdone.noIllegal (by decide) (by decide), hdone.csQ,
      hdone.clkQ, hdone.diQ⟩

/-- Settles O37: the sample at the end of cell j has passed the two stages of the synchronizer. -/
theorem readAssemblesDoPin : Obligations.ReadAssemblesDoPin := by
  intro a d s j hl hq hb hsync hj cell seen
  obtain ⟨hth, hsu, hcs, -⟩ := (hl.1 hq.1).1
  have htq := State.commanded_quiet hq 1#3 a d
  have htsync : (s.commanded 1#3 a d).env.asyncDo = false := by
    rw [State.commanded, State.clkCycle_env]
    exact (Env.observe_kind _ _ _ _).2.trans hsync
  have hcell : 5 ≤ cell := by
    show 5 ≤ cellCycles _ _
    unfold cellCycles
    omega
  have hmore : (9 + (j + 1)) * cell = 9 * cell + (j + 1) * cell := Nat.add_mul 9 (j + 1) cell
  have hpos : cell ≤ (j + 1) * cell := Nat.le_mul_of_pos_left cell (Nat.succ_pos j)
  have hless : (j + 1) * cell ≤ 8 * cell := Nat.mul_le_mul_right cell hj
  have hwhole : s.mwm.host.readTime = 2 * s.mwm.host.tCs.toNat + 17 * cell := rfl
  have hseen : seen + 2 = (s.startSeq 1#3 a d).work.readHeadCycles + (j + 1) * cell - 1 := by
    show s.mwm.host.tCs.toNat + (9 + (j + 1)) * cell - 3 + 2 = s.mwm.host.tCs.toNat + 9 * cell + (j + 1) * cell - 1
    omega
  have hle : seen ≤ s.mwm.host.readTime := by
    rw [hwhole]
    show s.mwm.host.tCs.toNat + (9 + (j + 1)) * cell - 3 ≤ _
    omega
  refine ⟨s.commanded 1#3 a d, State.hostCycle_after hq.1 _, ?_⟩
  rw [after_iff_cycles htq.1, after_iff_cycles (State.quiet_cycles htq seen).1, ← State.cycles_add,
    Nat.add_sub_cancel' hle, State.commanded_rdata hl hq hb a d hj, ← State.samples_eq_doPin htq htsync seen, hseen]

end Sys2Proof.Machine
end

section
/-! WRITE and WRITEB from the accept edge on (41_commands.md R164, R168 to R170, R207): the samples that end their poll, their
durations and line events, and the hang of a WRITE on a device that is stuck busy. -/

namespace Sys2Proof.Machine

section
variable {s : State} {op : BitVec 3}

/-! ## The poll's samples -/

/-- The level that slot `j` of the poll samples, slots numbered from 0 (R141). -/
def State.pollSample (op : BitVec 3) (a d : Byte) (s : State) (j : Nat) : Bool :=
  (s.commanded op a d).samples (s.mwm.host.pollStart + 2 * s.mwm.host.tHalf.toNat * (j + 1) - 1)

/-- The sequencer of WRITE or WRITEB just before its poll. -/
def State.pollSeq (op : BitVec 3) (a d : Byte) (s : State) : Seq :=
  (s.startSeq op a d).afterWriteHead (s.params.ewenFrame.setWidth 9) (addrFrame s.params.writeHdr a) (d.setWidth 9)

/-- The events of WRITE or WRITEB up to the poll. -/
def State.writeHead (a d : Byte) (s : State) : List LineEvent :=
  writeHeadEvents (s.params.ewenFrame.setWidth 9) (addrFrame s.params.writeHdr a) d

theorem State.pollSeq_currentOp (hop : op = 2#3 ∨ op = 5#3) (a d : Byte) (s : State) :
    (s.pollSeq op a d).currentOp = some (.poll (decide (op = 5#3))) := by
  rcases hop with rfl | rfl <;> rfl

/-- From the accept edge through `k` slots that sample 0 and do not end the poll. -/
theorem State.commanded_emptySlots (hl : s.Legal) (hq : s.quiet) (hb : s.mwm.seq.busy = false)
    (hop : op = 2#3 ∨ op = 5#3) {a d : Byte} {k : Nat} (hk : ∀ j, j < k → s.pollSample op a d j = false)
    (hmore : op = 5#3 → k < s.mwm.host.pollMax.toNat) :
    Seq.Performs s.params (s.commanded op a d).samples 0 (s.mwm.host.pollStart + pollCycles s.mwm.host.tHalf.toNat k)
      (s.startSeq op a d) (s.writeHead a d ++ pollEvents s.mwm.host.pollClk (List.replicate k false))
      ((s.pollSeq op a d).countSlots k) := by
  obtain ⟨hw, -, hclk, -⟩ := State.startSeq_legal hl hq hb op a d
  have hhead := Seq.performs_writeHead (p := s.params) (b := (s.commanded op a d).samples) (q := s.startSeq op a d) 0
    rfl hw hclk hop rfl
  have hpoll := Seq.performs_emptySlots (p := s.params) (b := (s.commanded op a d).samples) (k := k)
    (c := 0 + s.mwm.host.pollStart) (q := s.pollSeq op a d) rfl hw (State.pollSeq_currentOp hop a d s)
    (fun j hj => by rw [Nat.zero_add]; exact hk j hj)
    (fun hbound => by rw [show (s.pollSeq op a d).slotCtr.toNat = 0 from rfl, Nat.zero_add]; exact hmore (by simpa using hbound))
  exact hhead.trans hpoll

/-- The last slot of the poll: a sample of 1, or slot `w_pmax` of a bounded poll. -/
theorem State.commanded_lastSlot (hl : s.Legal) (hq : s.quiet) (hb : s.mwm.seq.busy = false)
    (hop : op = 2#3 ∨ op = 5#3) {a d : Byte} {k : Nat} {last : Bool} (hlast : s.pollSample op a d k = last)
    (hbound : last = false → op = 5#3 ∧ k + 1 = s.mwm.host.pollMax.toNat) :
    ∃ q, Seq.Performs s.params (s.commanded op a d).samples
        (s.mwm.host.pollStart + pollCycles s.mwm.host.tHalf.toNat k) (2 * s.mwm.host.tHalf.toNat)
        ((s.pollSeq op a d).countSlots k) (pollEvents s.mwm.host.pollClk [last]) q ∧
      q.busy = true ∧ q.work = (s.startSeq op a d).work ∧ q.upc = 9#4 ∧ q.clkQ = false ∧
      q.slotCtr.toNat = min (k + 1) 0xFFFFFFFF ∧ q.timedOut = !last := by
  obtain ⟨hw, -⟩ := State.startSeq_legal hl hq hb op a d
  have hcur := State.pollSeq_currentOp hop a d s
  have hctr : (nextSlot (nextSlot^[k] 0#32)).toNat = min (k + 1) 0xFFFFFFFF := by
    rw [nextSlot_toNat, nextSlot_iterate_toNat]
    simp
    omega
  have hend : s.mwm.host.pollStart + 2 * s.mwm.host.tHalf.toNat * (k + 1) - 1 =
      s.mwm.host.pollStart + pollCycles s.mwm.host.tHalf.toNat k + 2 * s.mwm.host.tHalf.toNat - 1 := by
    rw [pollCycles, Nat.mul_succ, Nat.add_assoc]
  rw [State.pollSample, hend] at hlast
  cases last with
  | true =>
    exact ⟨_, Seq.performs_lastSlot (q := (s.pollSeq op a d).countSlots k) rfl hw hcur hlast, rfl, rfl, rfl, rfl, hctr, rfl⟩
  | false =>
    obtain ⟨rfl, hpmax⟩ := hbound rfl
    have hmax := s.mwm.host.pollMax.isLt
    have heq : nextSlot ((s.pollSeq 5#3 a d).countSlots k).slotCtr = ((s.pollSeq 5#3 a d).countSlots k).work.pmax :=
      BitVec.eq_of_toNat_eq (hctr.trans (by rw [hpmax]; exact Nat.min_eq_left (by omega)))
    exact ⟨_, Seq.performs_timeoutSlot (q := (s.pollSeq 5#3 a d).countSlots k) rfl hw hcur hlast heq, rfl, rfl, rfl, rfl,
      hctr, rfl⟩

/-- A write as the part up to its poll, the slots before the last one, the last one, and CS_OFF with EWDS (R164, R245). -/
theorem HostRegs.writeTime_succ (h : HostRegs) (k : Nat) : h.writeTime (k + 1) =
    h.pollStart + pollCycles h.tHalf.toNat k + 2 * h.tHalf.toNat +
      (h.tCs.toNat + enableCycles h.tSu.toNat h.tHalf.toNat h.tCs.toNat) := by
  simp only [HostRegs.pollStart, HostRegs.writeTime, writeCycles, enableCycles, sendCycles, pollCycles, Nat.mul_succ]
  omega

/-- A WRITE or WRITEB whose poll ends with its slot `k`, from the accept edge to the completion edge. -/
theorem State.commanded_write (hl : s.Legal) (hq : s.quiet) (hb : s.mwm.seq.busy = false)
    (hop : op = 2#3 ∨ op = 5#3) {a d : Byte} {k : Nat} {last : Bool}
    (hk : ∀ j, j < k → s.pollSample op a d j = false) (hmore : op = 5#3 → k < s.mwm.host.pollMax.toNat)
    (hlast : s.pollSample op a d k = last) (hbound : last = false → op = 5#3 ∧ k + 1 = s.mwm.host.pollMax.toNat) :
    ∃ q, Seq.Performs s.params (s.commanded op a d).samples 0 (s.mwm.host.writeTime (k + 1)) (s.startSeq op a d)
        (writeEvents (s.params.ewenFrame.setWidth 9) (addrFrame s.params.writeHdr a) d (s.params.ewdsFrame.setWidth 9)
          s.mwm.host.pollClk (List.replicate k false ++ [last])) q ∧
      q.currentOp = none ∧ q.work.op = op ∧ q.slotCtr.toNat = min (k + 1) 0xFFFFFFFF ∧ q.timedOut = !last := by
  obtain ⟨hw, -⟩ := State.startSeq_legal hl hq hb op a d
  have hslots := State.commanded_emptySlots hl hq hb hop hk hmore
  obtain ⟨q, hslot, hbusy, hwork, hupc, hclk, hctr, htimed⟩ := State.commanded_lastSlot hl hq hb hop hlast hbound
  obtain ⟨htail, hend⟩ := Seq.performs_writeTail (p := s.params) (b := (s.commanded op a d).samples) (q := q)
    (s.mwm.host.pollStart + pollCycles s.mwm.host.tHalf.toNat k + 2 * s.mwm.host.tHalf.toNat)
    hbusy (hwork ▸ hw) hclk (hwork ▸ hop) hupc
  rw [hwork] at htail
  refine ⟨_, ((hslots.trans (by rw [Nat.zero_add]; exact hslot)).trans (by rw [Nat.zero_add]; exact htail)).cast ?_ ?_, hend,
    congrArg Work.op hwork, hctr, htimed⟩
  · exact (s.mwm.host.writeTime_succ k).symm
  · rw [writeEvents, pollEvents_append, State.writeHead]
    simp only [List.append_assoc]

/-! ## How a poll goes -/

/-- The samples of a poll: 0 some number of times and then 1, or 0 for ever. -/
theorem firstTrue_or_allFalse (x : Nat → Bool) :
    (∃ k, (∀ j, j < k → x j = false) ∧ x k = true) ∨ ∀ j, x j = false := by
  by_cases h : ∃ k, x k = true
  · exact .inl ⟨Nat.find h, fun j hj => by simpa using Nat.find_min h hj, Nat.find_spec h⟩
  · exact .inr fun j => by simpa using fun hj => h ⟨j, hj⟩

/-- A bounded poll of `n` slots ends with the first sample of 1, or with its last slot. -/
theorem firstTrue_or_last (x : Nat → Bool) {n : Nat} (hn : 1 ≤ n) :
    ∃ k, k < n ∧ (∀ j, j < k → x j = false) ∧ (x k = false → k + 1 = n) := by
  have short (k : Nat) (hk : k < n) (hx : ∀ j, j < n - 1 → x j = false) :
      ∃ k, k < n ∧ (∀ j, j < k → x j = false) ∧ (x k = false → k + 1 = n) := ⟨n - 1, by omega, hx, fun _ => by omega⟩
  rcases firstTrue_or_allFalse x with ⟨k, hk, hone⟩ | hall
  · by_cases hkn : k < n
    · exact ⟨k, hkn, hk, fun h0 => by rw [hone] at h0; cases h0⟩
    · exact short 0 hn fun j hj => hk j (by omega)
  · exact short 0 hn fun j _ => hall j

/-- A WRITE whose poll samples 0 for ever is busy for ever (R207). -/
theorem State.commanded_write_hangs (hl : s.Legal) (hq : s.quiet) (hb : s.mwm.seq.busy = false) {a d : Byte}
    (hall : ∀ j, s.pollSample 2#3 a d j = false) (n : Nat) : ((s.commanded 2#3 a d).cycles n).mwm.seq.busy = true := by
  obtain ⟨hth, -⟩ := (hl.1 hq.1).1
  have hslots := State.commanded_emptySlots (k := n + 1) hl hq hb (.inl rfl) (fun j _ => hall j) fun h => by cases h
  obtain ⟨hbusy, -⟩ := State.commanded_performs hq hb (by decide) hslots
  refine hbusy n ?_
  have hmul : n + 1 ≤ 2 * s.mwm.host.tHalf.toNat * (n + 1) := Nat.le_mul_of_pos_left _ (by omega)
  unfold pollCycles
  omega

end

/-! ## The machine within a slot -/

/-- Within a wait an edge only counts. -/
theorem Seq.edges_wait {p : Params} {b : Nat → Bool} (n c : Nat) {q : Seq} (h : n < q.dly.toNat) :
    ∃ dly, Seq.edges p b c n q = { q with dly := dly } := by
  induction n generalizing c q with
  | zero => exact ⟨q.dly, rfl⟩
  | succ n ih =>
    rw [Seq.edges, Seq.edge_wait (by omega)]
    obtain ⟨dly, hd⟩ := ih (c + 1) (q := { q with dly := q.dly - 1#17 }) (by
      show n < (q.dly - 1#17).toNat
      bv_omega)
    exact ⟨dly, hd⟩

/-- The sequencer `r` cycles into a slot: CLK, if clocked, is high in the first half. -/
theorem Seq.edges_slot {p : Params} {b : Nat → Bool} {c r : Nat} {q : Seq} {bounded : Bool} (hb : q.busy = true)
    (hw : q.work.Legal) (ho : q.currentOp = some (.poll bounded)) (hr : r < 2 * q.work.th.toNat) :
    ∃ dly phase, Seq.edges p b c r q.startSlot =
      { q with clkQ := q.work.pclk && decide (r < q.work.th.toNat), dly := dly, phase := phase } := by
  have hth : q.work.th.toNat < 2 ^ 16 := q.work.th.isLt
  have hdly : (BitVec.ofNat 17 q.work.th.toNat).toNat = q.work.th.toNat := by
    rw [BitVec.toNat_ofNat, Nat.mod_eq_of_lt (by omega)]
  by_cases hhalf : r < q.work.th.toNat
  · obtain ⟨dly, hd⟩ := Seq.edges_wait (p := p) (b := b) r c (q := q.startSlot) (hdly ▸ hhalf)
    exact ⟨dly, .high, by rw [hd, decide_eq_true hhalf, Bool.and_true]; rfl⟩
  · obtain ⟨m, rfl⟩ : ∃ m, r = q.work.th.toNat + m := ⟨r - q.work.th.toNat, by omega⟩
    obtain ⟨-, -, hmiddle⟩ := Seq.runs_slotHigh (p := p) (b := b) (c := c) hb hw ho
    obtain ⟨dly, hd⟩ := Seq.edges_wait (p := p) (b := b) m (c + q.work.th.toNat) (q := q.slotMiddle) (by
      show m < (BitVec.ofNat 17 q.work.th.toNat).toNat
      omega)
    refine ⟨dly, .low, ?_⟩
    rw [Seq.edges_add, hmiddle, hd, decide_eq_false hhalf, Bool.and_false]
    rfl

/-- Before the end of a stretch the sequencer of the machine is where its edges have led so far. -/
theorem State.commanded_edges {s : State} {op : BitVec 3} (hq : s.quiet) (hb : s.mwm.seq.busy = false)
    (hop : 1 ≤ op.toNat ∧ op.toNat ≤ 5) {a d : Byte} {n : Nat} {es : List LineEvent} {q' : Seq}
    (h : Seq.Performs s.params (s.commanded op a d).samples 0 n (s.startSeq op a d) es q') {m : Nat} (hm : m ≤ n) :
    ((s.commanded op a d).cycles m).mwm.seq =
      Seq.edges s.params (s.commanded op a d).samples 0 m ((s.startSeq op a d).enter s.params) := by
  obtain ⟨-, ⟨hbusy, -, -⟩, -⟩ := h
  obtain ⟨hseq, -⟩ := State.commanded_seq hq hb hop a d
  have hrun : Seq.Runs s.params (s.commanded op a d).samples 0 m (s.commanded op a d).mwm.seq _ _ :=
    ⟨fun j hj => hseq ▸ hbusy j (by omega), rfl, rfl⟩
  rw [← hseq]
  exact (State.cycles_runs (s := s.commanded op a d) (State.commanded_quiet hq op a d) hrun).2

/-- A hanging WRITE, `r` cycles into slot `k` (R207). -/
theorem State.commanded_write_inSlot {s : State} (hl : s.Legal) (hq : s.quiet) (hb : s.mwm.seq.busy = false) {a d : Byte}
    (hall : ∀ j, s.pollSample 2#3 a d j = false) (k : Nat) {r : Nat} (hr : r < 2 * s.mwm.host.tHalf.toNat) :
    ∃ dly phase, ((s.commanded 2#3 a d).cycles
        (s.mwm.host.pollStart + pollCycles s.mwm.host.tHalf.toNat k + r)).mwm.seq =
      { (s.pollSeq 2#3 a d).countSlots k with
        clkQ := s.mwm.host.pollClk && decide (r < s.mwm.host.tHalf.toNat), dly := dly, phase := phase } := by
  obtain ⟨hw, -⟩ := State.startSeq_legal hl hq hb 2#3 a d
  have slots (k : Nat) := State.commanded_emptySlots (k := k) hl hq hb (.inl rfl) (fun j _ => hall j)
    (fun h : (2#3 : BitVec 3) = 5#3 => by cases h)
  have hcur : ((s.pollSeq 2#3 a d).countSlots k).currentOp = some (.poll false) := rfl
  have hmore : s.mwm.host.pollStart + pollCycles s.mwm.host.tHalf.toNat k + r ≤
      s.mwm.host.pollStart + pollCycles s.mwm.host.tHalf.toNat (k + 1) := by
    unfold pollCycles
    rw [Nat.mul_succ]
    omega
  obtain ⟨-, ⟨-, -, hstart⟩, -⟩ := slots k
  rw [State.commanded_edges hq hb (by decide) (slots (k + 1)) hmore, Seq.edges_add, hstart, Seq.enter_of_some hcur]
  exact Seq.edges_slot (q := (s.pollSeq 2#3 a d).countSlots k) rfl hw hcur hr

/-! ## The stuck device -/

theorem State.cycles_kind (t : State) (n : Nat) : (t.cycles n).env.kind = t.env.kind := by
  induction n with
  | zero => rfl
  | succ n ih =>
    rw [State.cycles_succ, State.clkCycle_env]
    exact (Env.observe_kind _ _ _ _).1.trans ih

/-- With DO synchronous to `clk`, the sample of a slot is the DO pin three cycles before the slot's last edge (R38, R141). -/
theorem State.pollSample_eq_doPin {s : State} (hl : s.Legal) (hq : s.quiet) (hsync : s.env.asyncDo = false) (op : BitVec 3)
    (a d : Byte) (j : Nat) : s.pollSample op a d j =
      ((s.commanded op a d).cycles (s.mwm.host.pollStart + 2 * s.mwm.host.tHalf.toNat * (j + 1) - 3)).doPin := by
  obtain ⟨-, -, hcs, -⟩ := (hl.1 hq.1).1
  obtain ⟨-, hasync⟩ := Env.observe_kind s.env s.params s.mwm s.cycle
  have hindex : s.mwm.host.pollStart + 2 * s.mwm.host.tHalf.toNat * (j + 1) - 1 =
      (s.mwm.host.pollStart + 2 * s.mwm.host.tHalf.toNat * (j + 1) - 3) + 2 := by
    unfold HostRegs.pollStart
    omega
  rw [State.pollSample, hindex, State.samples_eq_doPin (State.commanded_quiet hq op a d) (hasync.trans hsync)]

/-- Against a stuck device every slot samples 0 (R87). -/
theorem State.pollSample_of_stuck {s : State} (hl : s.Legal) (hq : s.quiet) (hk : s.env.kind = .stuckBusy)
    (hsync : s.env.asyncDo = false) (op : BitVec 3) (a d : Byte) (j : Nat) : s.pollSample op a d j = false := by
  obtain ⟨hkind, -⟩ := Env.observe_kind s.env s.params s.mwm s.cycle
  obtain ⟨hlevels, -⟩ := undrivenEnvironmentsKeepCells
  rw [State.pollSample_eq_doPin hl hq hsync]
  exact (hlevels _).2 ((State.cycles_kind _ _).trans (hkind.trans hk))

/-! ## The statements -/

/-- Settles O34: the poll ends with its first sample of 1, or there is none. -/
theorem writeLineEvents : Obligations.WriteLineEvents := by
  intro a d s hl hq hb
  have htq := State.commanded_quiet hq 2#3 a d
  refine ⟨s.commanded 2#3 a d, State.hostCycle_after hq.1 _, fun n => ?_, ?_⟩
  · rw [after_iff_cycles htq.1]
    exact State.commanded_lines hl hq hb 2#3 a d n
  · rcases firstTrue_or_allFalse (s.pollSample 2#3 a d) with ⟨k, hk, hone⟩ | hall
    · refine .inl ⟨k, ?_⟩
      obtain ⟨q, hperf, hend, hopq, -, -⟩ := State.commanded_write hl hq hb (.inl rfl) hk (fun h => by cases h) hone
        (fun h => by cases h)
      obtain ⟨hdone, hevents⟩ := State.commanded_completes hl hq hb (by decide)
        ((HostRegs.Legal.times_pos (hl.1 hq.1).1).2.2 _) hperf hend hopq
      rw [after_iff_cycles htq.1]
      exact ⟨hdone.idle, hevents⟩
    · refine .inr fun k => ?_
      obtain ⟨-, -, hevents⟩ := State.commanded_performs hq hb (by decide)
        (State.commanded_emptySlots (k := k) hl hq hb (.inl rfl) (fun j _ => hall j) fun h => by cases h)
      rw [after_iff_cycles htq.1]
      exact ⟨State.commanded_write_hangs hl hq hb hall _, hevents⟩

/-- Settles O35: the bounded poll ends with its first sample of 1, or with slot POLL_MAX. -/
theorem boundedWriteLineEvents : Obligations.BoundedWriteLineEvents := by
  intro a d s hl hq hb
  have htq := State.commanded_quiet hq 5#3 a d
  obtain ⟨-, -, -, hpmax, -⟩ := (hl.1 hq.1).1
  obtain ⟨k, hkn, hk, hlast⟩ := firstTrue_or_last (s.pollSample 5#3 a d) hpmax
  obtain ⟨q, hperf, hend, hopq, -, htimed⟩ := State.commanded_write hl hq hb (.inr rfl) hk (fun _ => hkn) rfl
    fun h0 => ⟨rfl, hlast h0⟩
  obtain ⟨hdone, hevents⟩ := State.commanded_completes hl hq hb (by decide)
    ((HostRegs.Legal.times_pos (hl.1 hq.1).1).2.2 _) hperf hend hopq
  refine ⟨s.commanded 5#3 a d, k, s.pollSample 5#3 a d k, State.hostCycle_after hq.1 _, hkn, hlast, hevents,
    fun n _ => ?_, ?_⟩
  · rw [after_iff_cycles htq.1]
    exact State.commanded_lines hl hq hb 5#3 a d n
  · rw [after_iff_cycles htq.1]
    exact ⟨hdone.idle, (hdone.timeout rfl).trans htimed⟩

/-- Settles O38: a bounded poll always ends. -/
theorem boundedWriteCompletes : Obligations.BoundedWriteCompletes := by
  intro a d s hl hq hb
  have htq := State.commanded_quiet hq 5#3 a d
  have hmax := s.mwm.host.pollMax.isLt
  obtain ⟨-, -, -, hpmax, -⟩ := (hl.1 hq.1).1
  obtain ⟨k, hkn, hk, hlast⟩ := firstTrue_or_last (s.pollSample 5#3 a d) hpmax
  obtain ⟨q, hperf, hend, hopq, hctr, htimed⟩ := State.commanded_write hl hq hb (.inr rfl) hk (fun _ => hkn) rfl
    fun h0 => ⟨rfl, hlast h0⟩
  obtain ⟨hbusy, -⟩ := State.commanded_performs hq hb (by decide) hperf
  obtain ⟨hdone, -⟩ := State.commanded_completes hl hq hb (by decide)
    ((HostRegs.Legal.times_pos (hl.1 hq.1).1).2.2 _) hperf hend hopq
  have htimeout := hdone.timeout rfl
  refine ⟨s.commanded 5#3 a d, k + 1, State.hostCycle_after hq.1 _, Nat.succ_pos k, hkn, fun n hn => ?_, ?_⟩
  · rw [after_iff_cycles htq.1]
    exact hbusy n hn
  · rw [after_iff_cycles htq.1]
    refine ⟨hdone.idle, hdone.done, ?_, ?_, fun hto => hlast ?_, hdone.csQ, hdone.clkQ, hdone.diQ⟩
    · rw [hdone.seq]
      exact hctr.trans (Nat.min_eq_left (by omega))
    · rw [htimeout, hdone.seq]
      rfl
    · rw [htimeout, htimed] at hto
      simpa using hto

/-- Settles O39: the poll ends with its first sample of 1, at the end of a slot, or never. -/
theorem writeCompletesOnlyAtSlotEnds : Obligations.WriteCompletesOnlyAtSlotEnds := by
  intro a d s hl hq hb
  have htq := State.commanded_quiet hq 2#3 a d
  refine ⟨s.commanded 2#3 a d, State.hostCycle_after hq.1 _, ?_⟩
  rcases firstTrue_or_allFalse (s.pollSample 2#3 a d) with ⟨k, hk, hone⟩ | hall
  · obtain ⟨q, hperf, hend, hopq, -, -⟩ := State.commanded_write hl hq hb (.inl rfl) hk (fun h => by cases h) hone
      (fun h => by cases h)
    obtain ⟨hbusy, -⟩ := State.commanded_performs hq hb (by decide) hperf
    obtain ⟨hdone, -⟩ := State.commanded_completes hl hq hb (by decide)
      ((HostRegs.Legal.times_pos (hl.1 hq.1).1).2.2 _) hperf hend hopq
    refine .inr ⟨k + 1, Nat.succ_pos k, fun n hn => ?_, ?_⟩
    · rw [after_iff_cycles htq.1]
      exact hbusy n hn
    · rw [after_iff_cycles htq.1]
      exact ⟨hdone.idle, hdone.done, hdone.noTimeout (by decide), hdone.csQ, hdone.clkQ, hdone.diQ⟩
  · refine .inl fun n => ?_
    rw [after_iff_cycles htq.1]
    exact State.commanded_write_hangs hl hq hb hall n

/-- A cycle with `rst` leaves every register of the MWM at its reset value. -/
theorem State.clkCycle_mwm_of_rst {s : State} (h : s.rst = true) (acc : Access) : (s.clkCycle acc).mwm = Mwm.reset :=
  State.mwmEdge_rst h acc _

/-- Settles O40: every slot samples 0, so the WRITE stands in its poll for ever; a CMD write leaves it there, and only a cycle
with `rst` ends it. -/
theorem writeHangsOnStuckDevice : Obligations.WriteHangsOnStuckDevice := by
  intro a d s hl hq hb hkind hsync pollStart half
  have htq := State.commanded_quiet hq 2#3 a d
  have hall := State.pollSample_of_stuck hl hq hkind hsync 2#3 a d
  have hbusy := State.commanded_write_hangs hl hq hb hall
  have hpoll : pollStart = s.mwm.host.pollStart := rfl
  obtain ⟨hth, -⟩ := (hl.1 hq.1).1
  have inPoll (n : Nat) (hn : pollStart ≤ n) :
      ((s.commanded 2#3 a d).cycles n).mwm.seq.csQ = true ∧ ((s.commanded 2#3 a d).cycles n).mwm.seq.diQ = false ∧
        ((s.commanded 2#3 a d).cycles n).mwm.seq.upc = 8#4 ∧
        ((s.commanded 2#3 a d).cycles n).mwm.seq.clkQ =
          (s.mwm.host.pollClk && decide ((n - pollStart) % (2 * half) < half)) := by
    have hcut : n = s.mwm.host.pollStart + pollCycles s.mwm.host.tHalf.toNat ((n - pollStart) / (2 * half)) +
        (n - pollStart) % (2 * half) := by
      have := Nat.div_add_mod (n - pollStart) (2 * half)
      show n = pollStart + 2 * half * ((n - pollStart) / (2 * half)) + _
      omega
    obtain ⟨dly, phase, hseq⟩ := State.commanded_write_inSlot hl hq hb hall ((n - pollStart) / (2 * half))
      (Nat.mod_lt (n - pollStart) (show 0 < 2 * half by show 0 < 2 * s.mwm.host.tHalf.toNat; omega))
    rw [← hcut] at hseq
    rw [hseq]
    exact ⟨rfl, rfl, rfl, rfl⟩
  refine ⟨s.commanded 2#3 a d, State.hostCycle_after hq.1 _, fun n => ?_⟩
  rw [after_iff_cycles htq.1]
  have huq := State.quiet_cycles htq n
  have hurst := State.quiet_rst huq
  refine ⟨hbusy n, fun hn => ?_⟩
  obtain ⟨hcs, hdi, hupc, hclk⟩ := inPoll n hn
  obtain ⟨-, -, hupc', -⟩ := inPoll (n + 1) (by omega)
  refine ⟨hcs, hdi, hupc, hclk, fun v => ?_, ?_⟩
  · have hnext : (((s.commanded 2#3 a d).cycles n).clkCycle (.write 0#3 v)).mwm.seq =
        ((s.commanded 2#3 a d).cycles (n + 1)).mwm.seq := by
      rw [State.cycles_succ, State.seq_clkCycle hurst (hbusy n), State.seq_clkCycle hurst (hbusy n)]
    refine ⟨_, State.hostCycle_after huq.1 _, ?_, ?_, by rw [hnext]; exact hbusy (n + 1), by rw [hnext]; exact hupc'⟩
    · rw [State.clkCycle_mwm_of_dropped hurst (hbusy n)]
      rfl
    · rw [State.clkCycle_mwm_of_dropped hurst (hbusy n)]
      exact State.hostNext_cmd _
  · have hrst : ({ (s.commanded 2#3 a d).cycles n with
        script := ⟨true, .idle⟩ :: ((s.commanded 2#3 a d).cycles n).script } : State).rst = true := rfl
    exact ⟨_, step_eq_clkCycle huq.1, State.clkCycle_mwm_of_rst hrst _⟩

end Sys2Proof.Machine
end

section
/-! The reference device at its pins (20_memory.md R75 to R86): its write cycle, the frames and bytes it is clocked, and what
timing too fast for it leaves open (70_reset_and_hazards.md R241). -/

namespace Sys2Proof.Machine

/-! ## The write cycle (R77, R78, R80) -/

/-- The device has `r` counts left until byte `v` is in cell `a` of the cells `m`; with 0 left it is there. -/
structure Device.Pending (m : Memory) (a : DevAddr) (v : Byte) (r : Nat) (d : Device) : Prop where
  busy : d.busy = decide (0 < r)
  left : 0 < r → d.busyRem = r ∧ d.pendA = a ∧ d.pendD = v
  mem : d.mem = if r = 0 then m.write a.toNat v else m

/-- A cycle with these levels counts the busy time: every one in `cycles` mode, those with a rising clock in `pulses` mode. -/
def Device.counts (cs clk : Bool) (d : Device) : Bool :=
  match d.mode with
  | .cycles => true
  | .pulses => cs && !d.clkPrev && clk

section
variable {m : Memory} {a : DevAddr} {v : Byte} {r : Nat} {d : Device}

theorem Device.Pending.count (h : d.Pending m a v r) (hr : 0 < r) : d.count.Pending m a v (r - 1) := by
  obtain ⟨hrem, ha, hv⟩ := h.left hr
  have hm : d.mem = m := h.mem.trans (if_neg (by omega))
  by_cases hone : r = 1
  · rw [Device.count_of_last (hrem.trans hone), hone]
    refine ⟨rfl, fun h0 => absurd h0 (by decide), ?_⟩
    rw [if_pos rfl, ← hm, ← ha, ← hv]
    rfl
  · rw [Device.count_of_more (by omega)]
    refine ⟨h.busy.trans (by simp; omega), fun _ => ⟨congrArg (· - 1) hrem, ha, hv⟩, ?_⟩
    rw [if_neg (by omega)]
    exact hm

theorem Device.Pending.countDown_cycles (h : d.Pending m a v r) (hm : d.mode = .cycles) :
    d.countDown.Pending m a v (r - 1) := by
  unfold Device.countDown
  by_cases hr : 0 < r
  · rw [if_pos (by simp [h.busy, hm, hr])]
    exact h.count hr
  · obtain rfl : r = 0 := by omega
    rw [if_neg (by simp [h.busy])]
    exact h

theorem Device.countDown_pulses (hm : d.mode = .pulses) : d.countDown = d := by
  obtain ⟨-, -, -, -, -, -, hpulse⟩ := d.countDown_frame
  exact hpulse hm

/-- A CS fall in WAITCS with writing enabled starts the write cycle (R78). -/
theorem Device.csFall_pending (h : d.writeReady = true) : d.csFall.Pending d.mem d.a d.d d.devBusy := by
  rw [Device.csFall, if_pos h]
  have hb : d.busy = false := by simpa using (Bool.and_eq_true_iff.mp h).2
  unfold Device.startWrite
  split
  · rename_i h0
    rw [h0]
    exact ⟨hb, fun hr => absurd hr (Nat.lt_irrefl 0), (if_pos rfl).symm⟩
  · rename_i h0
    exact ⟨(decide_eq_true (Nat.pos_of_ne_zero h0)).symm, fun _ => ⟨rfl, rfl, rfl⟩, (if_neg h0).symm⟩

/-- A CS event leaves the write cycle alone unless it starts another. -/
theorem Device.Pending.csEvents {cs : Bool} (h : d.Pending m a v r) (hcs : d.csPrev = cs ∨ d.phase ≠ .waitCs) :
    (d.csEvents cs).Pending m a v r := by
  unfold Device.csEvents
  split
  · rename_i hfall
    have hready : d.writeReady = false := by
      rcases hcs with hcs | hcs
      · simp [hcs] at hfall
      · simp [Device.writeReady, hcs]
    rw [Device.csFall, if_neg (by simp [hready])]
    exact ⟨h.busy, h.left, h.mem⟩
  · split
    · exact ⟨h.busy, h.left, h.mem⟩
    · exact h

/-- A rising clock in `cycles` mode, and one on a device that is not busy, counts nothing. -/
theorem Device.Pending.clockRise_uncounted (h : d.Pending m a v r) (hm : d.mode = .cycles ∨ r = 0) (di : Bool) :
    (d.clockRise di).Pending m a v r := by
  by_cases hr : r = 0
  · subst hr
    obtain ⟨hbusy, -, -, hmem, -⟩ := Device.clockRise_frame di (h.busy.trans rfl)
    exact ⟨hbusy, fun h0 => absurd h0 (by decide), hmem.trans h.mem⟩
  · rw [Device.clockRise_busy_cycles (h.busy.trans (by simp; omega)) (hm.resolve_right hr)]
    exact h

theorem Device.Pending.clockRise_pulses (h : d.Pending m a v r) (hm : d.mode = .pulses) (di : Bool) :
    (d.clockRise di).Pending m a v (r - 1) := by
  by_cases hr : r = 0
  · subst hr
    exact h.clockRise_uncounted (.inr rfl) di
  · rw [Device.clockRise_busy_pulses (h.busy.trans (by simp; omega)) hm]
    exact h.count (by omega)

theorem Device.csEvents_frame (cs : Bool) (d : Device) :
    (d.csEvents cs).mode = d.mode ∧ (d.csEvents cs).clkPrev = d.clkPrev := by
  unfold Device.csEvents Device.csFall Device.startWrite Device.csRise
  split_ifs <;> exact ⟨rfl, rfl⟩

/-- A cycle takes a count from the write cycle if it counts. -/
theorem Device.Pending.observe {cs : Bool} (h : d.Pending m a v r) (hcs : d.csPrev = cs ∨ d.phase ≠ .waitCs)
    (clk di : Bool) : (d.observe cs clk di).Pending m a v (if d.counts cs clk then r - 1 else r) := by
  obtain ⟨-, -, hprev, -, hmode, -⟩ := d.countDown_frame
  have hphase : d.countDown.phase = d.phase := by
    unfold Device.countDown Device.count Device.commit
    split_ifs <;> rfl
  obtain ⟨hmode', hclk⟩ := d.countDown.csEvents_frame cs
  have hcs' : d.countDown.csPrev = cs ∨ d.countDown.phase ≠ .waitCs := by rwa [hprev, hphase]
  have hend : ((d.countDown.csEvents cs).clkEvents cs clk di).Pending m a v (if d.counts cs clk then r - 1 else r) := by
    unfold Device.clkEvents Device.counts
    cases hm : d.mode with
    | cycles =>
      have hp := (h.countDown_cycles hm).csEvents hcs'
      rw [if_pos rfl]
      split
      · exact hp.clockRise_uncounted (.inl (hmode'.trans (hmode.trans hm))) di
      · exact hp
    | pulses =>
      rw [Device.countDown_pulses hm] at hcs' hclk hmode' ⊢
      have hp := h.csEvents hcs'
      rw [hclk]
      by_cases hrise : (cs && !d.clkPrev && clk) = true
      · simpa only [hrise, if_true] using hp.clockRise_pulses (hmode'.trans hm) di
      · simpa only [hrise, if_false, Bool.false_eq_true] using hp
  exact ⟨hend.busy, hend.left, hend.mem⟩

end

theorem Device.clkEvents_mode (cs clk di : Bool) (d : Device) : (d.clkEvents cs clk di).mode = d.mode := by
  unfold Device.clkEvents
  split
  · cases hb : d.busy with
    | true =>
      unfold Device.clockRise Device.count Device.commit
      rw [if_pos hb]
      split <;> (try split) <;> rfl
    | false =>
      obtain ⟨-, -, -, -, -, hm⟩ := Device.clockRise_frame di hb
      exact hm
  · rfl

/-- The mode of the busy time never changes (R9). -/
theorem Device.observe_mode (cs clk di : Bool) (d : Device) : (d.observe cs clk di).mode = d.mode := by
  obtain ⟨-, -, -, -, hmode, -⟩ := d.countDown_frame
  obtain ⟨hmode', -⟩ := d.countDown.csEvents_frame cs
  exact (Device.clkEvents_mode cs clk di _).trans (hmode'.trans hmode)

/-- Settles O48: every cycle takes one count, and the last commits the byte. -/
theorem deviceBusyCountsCycles : Obligations.DeviceBusyCountsCycles := by
  intro d cs clk di hl hb hm hcs after
  obtain ⟨⟨hsorted, -⟩, -, -, -, hrem⟩ := hl
  have counted (n : Nat) : (after n).Pending d.mem d.pendA d.pendD (d.busyRem - n) ∧ (after n).mode = .cycles ∧
      (after n).csPrev = cs := by
    induction n with
    | zero =>
      have hpos := hrem hb
      exact ⟨⟨hb.trans (by simp; omega), fun _ => ⟨rfl, rfl, rfl⟩, (if_neg (by omega)).symm⟩, hm, hcs⟩
    | succ n ih =>
      obtain ⟨hp, hmode, hprev⟩ := ih
      have hstep : after (n + 1) = (after n).observe cs (clk n) (di n) := by
        show List.foldl _ _ _ = _
        rw [List.range_succ, List.foldl_append]
        rfl
      have hp' := hp.observe (.inl hprev) (clk n) (di n)
      rw [Device.counts, hmode, if_pos rfl] at hp'
      rw [hstep]
      exact ⟨hp', (Device.observe_mode _ _ _ _).trans hmode, rfl⟩
  refine ⟨fun n hn => ?_, ?_, fun x => ?_⟩
  · obtain ⟨hp, -⟩ := counted n
    exact ⟨hp.busy.trans (by simp; omega), hp.mem.trans (if_neg (by omega))⟩
  · exact (counted _).1.busy.trans (by simp)
  · rw [(counted _).1.mem, if_pos (Nat.sub_self _), Memory.read_write hsorted]

/-! ## Bits shifted in (R81, R84) -/

/-- A word into which bits are shifted from below. -/
def shiftAll {w : Nat} (x : BitVec w) (bits : List Bool) : BitVec w :=
  bits.foldl (fun y b => (y <<< 1) ||| BitVec.setWidth w (bit b)) x

theorem shiftAll_append {w : Nat} (x : BitVec w) (bits : List Bool) (b : Bool) :
    shiftAll x (bits ++ [b]) = (shiftAll x bits <<< 1) ||| BitVec.setWidth w (bit b) := List.foldl_append

theorem getLsbD_shiftAll {w : Nat} (x : BitVec w) (bits : List Bool) {i : Nat} (hi : i < w) :
    (shiftAll x bits).getLsbD i =
      if i < bits.length then bits.reverse.getD i false else x.getLsbD (i - bits.length) := by
  induction bits using List.reverseRecOn generalizing i with
  | nil => rfl
  | append_singleton xs b ih =>
    rw [shiftAll_append, BitVec.getLsbD_or, BitVec.getLsbD_shiftLeft]
    cases i with
    | zero => simp [hi]
    | succ i =>
      rw [Nat.add_sub_cancel, ih (by omega)]
      simp [hi]

/-- A whole word shifted in, highest bit first, replaces what was there. -/
theorem shiftAll_word {w : Nat} (x v : BitVec w) : shiftAll x ((List.range w).map fun j => v.getLsbD (w - 1 - j)) = v := by
  refine BitVec.eq_of_getLsbD_eq fun i hi => ?_
  have hlen : ((List.range w).map fun j => v.getLsbD (w - 1 - j)).length = w := by simp
  rw [getLsbD_shiftAll x _ hi, if_pos (by rw [hlen]; exact hi), List.getD_eq_getElem _ _ (by simpa using hi),
    List.getElem_reverse]
  simp only [hlen, List.getElem_map, List.getElem_range]
  congr 1
  omega

section
variable {d : Device}

theorem Device.clockRise_cmdIn (hb : d.busy = false) (hp : d.phase = .cmdIn) (di : Bool) :
    d.clockRise di = d.clockCmdIn di := by
  unfold Device.clockRise
  rw [hp]
  simp [hb]

theorem Device.clockRise_wData (hb : d.busy = false) (hp : d.phase = .wData) (di : Bool) :
    d.clockRise di = d.clockWData di := by
  unfold Device.clockRise
  rw [hp]
  simp [hb]

theorem Device.clockRise_readOut (hb : d.busy = false) (hp : d.phase = .readOut) (di : Bool) :
    d.clockRise di = d.clockReadOut := by
  unfold Device.clockRise
  rw [hp]
  simp [hb]

/-- Zeros before the start bit are skipped (R81). -/
theorem Device.clockRise_skip (hb : d.busy = false) (hp : d.phase = .cmdIn) (hn : d.n = 0) : d.clockRise false = d := by
  rw [Device.clockRise_cmdIn hb hp, Device.clockCmdIn, if_pos ⟨hn, rfl⟩]

theorem Device.clockBits_skip (hb : d.busy = false) (hp : d.phase = .cmdIn) (hn : d.n = 0) (zeros : Nat) :
    d.clockBits (List.replicate zeros false) = d := by
  induction zeros with
  | zero => rfl
  | succ k ih => rw [List.replicate_succ, Device.clockBits_cons, Device.clockRise_skip hb hp hn, ih]

/-- The bits of a frame before its last one are shifted in (R81). -/
theorem Device.clockBits_shift (hb : d.busy = false) (hp : d.phase = .cmdIn) (bits : List Bool)
    (hstart : d.n = 0 → bits.head? ≠ some false) (hn : d.n + bits.length < 9) :
    d.clockBits bits = { d with shreg := shiftAll d.shreg bits, n := d.n + bits.length } := by
  induction bits generalizing d with
  | nil => rfl
  | cons b bits ih =>
    rw [List.length_cons] at hn
    have hrise : d.clockRise b = d.shiftFrame b := by
      rw [Device.clockRise_cmdIn hb hp, Device.clockCmdIn, if_neg, if_neg (by omega)]
      rintro ⟨h0, rfl⟩
      exact hstart h0 rfl
    rw [Device.clockBits_cons, hrise, ih (d := d.shiftFrame b) hb hp (fun h0 => absurd h0 (Nat.succ_ne_zero _))
      (by show d.n + 1 + bits.length < 9; omega), List.length_cons, Nat.add_comm bits.length 1, ← Nat.add_assoc]
    rfl

/-- A whole frame with its start bit is decoded (R81, R82). -/
theorem Device.clockBits_frame (hb : d.busy = false) (hp : d.phase = .cmdIn) (hn : d.n = 0) {f : Frame}
    (hf : f.getLsbD 8 = true) : d.clockBits (frameDiBits f) = { d with shreg := f, n := 9 }.decode := by
  obtain ⟨front, last, hbits, hlen, hhead⟩ : ∃ front last, frameDiBits f = front ++ [last] ∧ front.length = 8 ∧
      front.head? = some (f.getLsbD 8) := ⟨(List.range 8).map fun j => f.getLsbD (8 - j), f.getLsbD 0, rfl, rfl, rfl⟩
  have hall : shiftAll d.shreg (front ++ [last]) = f := hbits ▸ shiftAll_word d.shreg f
  have hfront : d.clockBits front = { d with shreg := shiftAll d.shreg front, n := 8 } := by
    rw [Device.clockBits_shift hb hp front (fun _ => by simp [hhead, hf]) (by omega), hlen, hn]
  rw [hbits, Device.clockBits_append, hfront, Device.clockBits_cons,
    Device.clockRise_cmdIn (d := { d with shreg := shiftAll d.shreg front, n := 8 }) hb hp, Device.clockCmdIn,
    if_neg (fun h => Nat.succ_ne_zero 7 h.1), if_pos rfl, Device.shiftFrame]
  show Device.decode { d with shreg := (shiftAll d.shreg front <<< 1) ||| BitVec.setWidth 9 (bit last), n := 9 } = _
  rw [← shiftAll_append, hall]

/-- Eight data bits are shifted in, and the device waits for the CS fall (R84). -/
theorem Device.clockBits_byte (hb : d.busy = false) (hp : d.phase = .wData) (hn : d.n = 0) (v : Byte) :
    d.clockBits (byteDiBits v) = { d with d := v, n := 8, phase := .waitCs } := by
  have shifts (bits : List Bool) (hlen : bits.length ≤ 8) :
      d.clockBits bits = { d with
        d := shiftAll d.d bits, n := bits.length, phase := if bits.length = 8 then .waitCs else .wData } := by
    induction bits using List.reverseRecOn with
    | nil =>
      obtain ⟨⟩ := d
      subst hn hp
      rfl
    | append_singleton xs b ih =>
      rw [List.length_append, List.length_singleton] at hlen ⊢
      rw [Device.clockBits_append, ih (by omega), shiftAll_append, if_neg (by omega)]
      exact Device.clockRise_wData
        (d := { d with d := shiftAll d.d xs, n := xs.length, phase := .wData }) hb rfl b
  rw [shifts _ (by simp [byteDiBits])]
  have hall : shiftAll d.d (byteDiBits v) = v := shiftAll_word d.d v
  rw [hall]
  rfl

/-- Read pulses count up to eight, whatever DI carries (R83). -/
theorem Device.clockBits_readOut (hb : d.busy = false) (hp : d.phase = .readOut) (bits : List Bool)
    (hk : d.k + bits.length ≤ 8) : d.clockBits bits = { d with k := d.k + bits.length } := by
  induction bits generalizing d with
  | nil => rfl
  | cons b bits ih =>
    rw [List.length_cons] at hk
    have hrise : d.clockRise b = { d with k := d.k + 1 } := by
      rw [Device.clockRise_readOut hb hp, Device.clockReadOut, if_pos (by omega)]
    rw [Device.clockBits_cons, hrise, ih (d := { d with k := d.k + 1 }) hb hp (by show d.k + 1 + bits.length ≤ 8; omega),
      List.length_cons, Nat.add_comm bits.length 1, ← Nat.add_assoc]

/-- After read pulse `j`, numbered from 0, the device drives bit 7 − j of its byte (R86). -/
theorem Device.drive_clockBits_readOut (hb : d.busy = false) (hp : d.phase = .readOut) (hk : d.k = 0) {j : Nat}
    (hj : j < 8) {bits : List Bool} (hlen : bits.length = j + 1) (undriven : Bool) :
    (d.clockBits bits).drive true undriven = d.snap.getLsbD (7 - j) := by
  rw [Device.clockBits_readOut hb hp bits (by omega)]
  refine (Device.drive_readOut (d := { d with k := d.k + bits.length }) hb hp undriven).trans ?_
  show (decide (1 ≤ d.k + bits.length) && d.snap.getLsbD (8 - (d.k + bits.length))) = _
  rw [hk, hlen, decide_eq_true (by omega), Bool.true_and]
  congr 1
  omega

/-! ## The frames of the commands (R82) -/

theorem Device.decode_read (d : Device) (a : DevAddr) : { d with shreg := 0b110#3 ++ a }.decode =
    { d with shreg := 0b110#3 ++ a, a := a, snap := d.mem.read a.toNat, k := 0, phase := .readOut } := by
  have hop : ((0b110#3 ++ a : Frame)).extractLsb' 6 3 = 0b110#3 := by revert a; decide
  have haddr : ((0b110#3 ++ a : Frame)).extractLsb' 0 6 = a := by revert a; decide
  simp only [Device.decode, hop, haddr, if_true]

theorem Device.decode_write (d : Device) (a : DevAddr) : { d with shreg := 0b101#3 ++ a }.decode =
    { d with shreg := 0b101#3 ++ a, a := a, n := 0, d := 0#8, phase := .wData } := by
  have hop : ((0b101#3 ++ a : Frame)).extractLsb' 6 3 = 0b101#3 := by revert a; decide
  have haddr : ((0b101#3 ++ a : Frame)).extractLsb' 0 6 = a := by revert a; decide
  simp only [Device.decode, hop, haddr]
  rfl

theorem Device.decode_ewen (d : Device) : { d with shreg := 0x130#9 }.decode =
    { d with shreg := 0x130#9, wen := true, phase := .ignore } := by
  unfold Device.decode
  dsimp only
  rw [if_neg (by decide), if_neg (by decide), if_pos (by decide)]

theorem Device.decode_ewds (d : Device) : { d with shreg := 0x100#9 }.decode =
    { d with shreg := 0x100#9, wen := false, phase := .ignore } := by
  unfold Device.decode
  dsimp only
  rw [if_neg (by decide), if_neg (by decide), if_neg (by decide), if_pos (by decide)]

theorem frame_startBit (a : DevAddr) :
    (0b110#3 ++ a : Frame).getLsbD 8 = true ∧ (0b101#3 ++ a : Frame).getLsbD 8 = true := by revert a; decide

/-- An EWEN frame enables writing (R82). -/
theorem Device.clockBits_ewen (hb : d.busy = false) (hp : d.phase = .cmdIn) (hn : d.n = 0) :
    d.clockBits (frameDiBits 0x130#9) = { d with shreg := 0x130#9, n := 9, wen := true, phase := .ignore } := by
  rw [Device.clockBits_frame hb hp hn (by decide)]
  exact Device.decode_ewen { d with n := 9 }

/-- An EWDS frame disables it (R82). -/
theorem Device.clockBits_ewds (hb : d.busy = false) (hp : d.phase = .cmdIn) (hn : d.n = 0) :
    d.clockBits (frameDiBits 0x100#9) = { d with shreg := 0x100#9, n := 9, wen := false, phase := .ignore } := by
  rw [Device.clockBits_frame hb hp hn (by decide)]
  exact Device.decode_ewds { d with n := 9 }

/-- A READ frame takes the byte of its cell (R82). -/
theorem Device.clockBits_read (hb : d.busy = false) (hp : d.phase = .cmdIn) (hn : d.n = 0) (a : DevAddr) :
    d.clockBits (frameDiBits (0b110#3 ++ a)) =
      { d with shreg := 0b110#3 ++ a, n := 9, a := a, snap := d.mem.read a.toNat, k := 0, phase := .readOut } := by
  rw [Device.clockBits_frame hb hp hn (frame_startBit a).1]
  exact Device.decode_read { d with n := 9 } a

/-- A WRITE frame and its data leave the device waiting for the CS fall (R82, R84). -/
theorem Device.clockBits_write (hb : d.busy = false) (hp : d.phase = .cmdIn) (hn : d.n = 0) (a : DevAddr) (v : Byte) :
    (d.clockBits (frameDiBits (0b101#3 ++ a))).clockBits (byteDiBits v) =
      { d with shreg := 0b101#3 ++ a, n := 8, a := a, d := v, phase := .waitCs } := by
  rw [Device.clockBits_frame hb hp hn (frame_startBit a).2]
  refine (congrArg (Device.clockBits _) (Device.decode_write { d with n := 9 } a)).trans ?_
  rw [Device.clockBits_byte (d := { d with shreg := 0b101#3 ++ a, a := a, n := 0, d := 0#8, phase := .wData }) hb rfl rfl]

end

/-! ## What too fast timing leaves open (R241) -/

section
variable {e : Env} {m : Mwm}

/-- Timing that is too fast, now or before, leaves the device's answers open. -/
theorem Env.nextConduct_open
    (h : (m.seq.busy = true ∧ m.seq.work.exceeds e.minima = false) ∨ e.conduct ≠ .sound) : e.nextConduct m ≠ .sound := by
  unfold Env.nextConduct
  cases hc : e.conduct with
  | sound =>
    obtain ⟨hb, hx⟩ := h.resolve_right fun hne => hne hc
    have hfast : m.tooFast e.minima = true := by rw [Mwm.tooFast, hb, hx]; rfl
    simp only [hfast, if_true]
    split <;> simp
  | readsOpen =>
    simp only
    split <;> simp
  | cellsOpen => simp

/-- With a write under way, or its cells open before, its cells are open as well. -/
theorem Env.nextConduct_cellsOpen (h : e.nextConduct m ≠ .sound) (hw : e.writing m = true ∨ e.conduct = .cellsOpen) :
    e.nextConduct m = .cellsOpen := by
  unfold Env.nextConduct at h ⊢
  cases hc : e.conduct with
  | cellsOpen => rfl
  | sound =>
    have hwriting := hw.resolve_right fun ho => by rw [hc] at ho; cases ho
    simp only [hc, hwriting, if_true] at h ⊢
    split
    · rfl
    · rename_i hslow
      exact absurd (if_neg hslow) h
  | readsOpen =>
    have hwriting := hw.resolve_right fun ho => by rw [hc] at ho; cases ho
    simp only [hwriting, if_true]

theorem Env.writing_of_op (hb : m.seq.busy = true) (hop : m.seq.work.op = 2#3 ∨ m.seq.work.op = 5#3) :
    e.writing m = true := by
  rcases hop with hop | hop <;> simp [Env.writing, hb, hop]

/-- Open cells take a free value each (U6). -/
theorem Env.observe_cellsOpen (hk : e.kind = .reference) (hc : e.nextConduct m = .cellsOpen) (p : Params) (c : Nat) :
    (e.observe p m c).dev.mem = Memory.fill (Config.openCell c) e.dev.mem := by
  unfold Env.observe Env.observeDevice
  rw [hk, hc]

end

/-- DO is a draw where the device's answers are open (R241, U6). -/
theorem State.doPin_open {s : State} (hk : s.env.kind = .reference) (hc : s.env.nextConduct s.mwm ≠ .sound) :
    s.doPin = Config.doFloat s.cycle := by
  obtain ⟨hkind, -⟩ := Env.observe_kind s.env s.params s.mwm s.cycle
  obtain ⟨-, hconduct⟩ := Env.observe_conduct s.env s.params s.mwm s.cycle
  rw [if_pos hk] at hconduct
  unfold State.doPin Env.drive Env.driveDevice
  rw [hkind, hk, hconduct]
  cases hn : s.env.nextConduct s.mwm with
  | sound => exact absurd hn hc
  | readsOpen => rfl
  | cellsOpen => rfl

theorem State.cycles_cycle (s : State) (n : Nat) : (s.cycles n).cycle = s.cycle + n := by
  induction n with
  | zero => rfl
  | succ n ih => rw [State.cycles_succ, State.clkCycle_cycle, ih, Nat.add_assoc]

theorem State.cycles_conduct {s : State} (hk : s.env.kind = .reference) (n : Nat) :
    (s.cycles (n + 1)).env.conduct = (s.cycles n).env.nextConduct (s.cycles n).mwm := by
  rw [State.cycles_succ, State.clkCycle_env]
  exact (Env.observe_conduct _ _ _ _).2.trans (if_pos ((State.cycles_kind s n).trans hk))

/-- What has once been too fast stays open (log entry 21). -/
theorem State.cycles_open {s : State} (hk : s.env.kind = .reference) (h : s.env.nextConduct s.mwm ≠ .sound) (n : Nat) :
    (s.cycles n).env.nextConduct (s.cycles n).mwm ≠ .sound := by
  induction n with
  | zero => exact h
  | succ n ih => exact Env.nextConduct_open (.inr (by rw [State.cycles_conduct hk]; exact ih))

theorem State.cycles_cellsOpen {s : State} (hk : s.env.kind = .reference) (h : s.env.nextConduct s.mwm = .cellsOpen)
    (n : Nat) : (s.cycles n).env.nextConduct (s.cycles n).mwm = .cellsOpen := by
  have hopen := State.cycles_open hk (by rw [h]; decide) n
  induction n with
  | zero => exact h
  | succ n ih =>
    refine Env.nextConduct_cellsOpen hopen (.inr ?_)
    rw [State.cycles_conduct hk]
    exact ih (State.cycles_open hk (by rw [h]; decide) n)

theorem State.cycles_mem_wf {s : State} (h : Memory.wf s.env.dev.mem) (n : Nat) : Memory.wf (s.cycles n).env.dev.mem := by
  induction n with
  | zero => exact h
  | succ n ih =>
    rw [State.cycles_succ, State.clkCycle_env]
    exact Env.observe_wf _ _ _ ih

/-! ## The statements -/

/-- Settles O50: the frame replaces what was shifted in before it; a device that is disabled ignores the CS fall. -/
theorem deviceWriteEnable : Obligations.DeviceWriteEnable := by
  intro d zeros hb clocked
  have skipped (bits : List Bool) : clocked bits = d.csRise.clockBits bits := by
    show d.csRise.clockBits (_ ++ _) = _
    rw [Device.clockBits_append, Device.clockBits_skip (d := d.csRise) hb rfl rfl]
  rw [skipped, skipped, Device.clockBits_ewen (d := d.csRise) hb rfl rfl, Device.clockBits_ewds (d := d.csRise) hb rfl rfl]
  refine ⟨rfl, rfl, rfl, rfl, fun hwen a v => ?_⟩
  rw [skipped, Device.clockBits_append, Device.clockBits_write (d := d.csRise) hb rfl rfl]
  have hready : ({ d.csRise with shreg := 0b101#3 ++ a, n := 8, a := a, d := v, phase := .waitCs } : Device).writeReady =
      false := by simp [Device.writeReady, Device.csRise, hwen]
  rw [Device.csFall, if_neg (by simp [hready])]
  exact ⟨rfl, hb, hwen, rfl⟩

/-- Settles O51: the CS fall writes the cell at once; the READ frame takes its byte, and the pulses shift it out. -/
theorem deviceReturnsWrittenByte : Obligations.DeviceReturnsWrittenByte := by
  intro d a v hl hb hwen hbusy written reading
  obtain ⟨⟨hsorted, -⟩, -⟩ := hl
  have hready : ({ d.csRise with shreg := 0b101#3 ++ a, n := 8, a := a, d := v, phase := .waitCs } : Device).writeReady =
      true := by simp [Device.writeReady, Device.csRise, hwen, hb]
  have hwritten : written.Pending d.mem a v 0 := by
    show Device.Pending _ _ _ _ (Device.csFall (Device.clockBits _ _))
    rw [Device.clockBits_write (d := d.csRise) hb rfl rfl, ← hbusy]
    exact Device.csFall_pending hready
  have hcells (x : Nat) : Memory.read written.mem x = if x = a.toNat then v else Memory.read d.mem x := by
    rw [hwritten.mem, if_pos rfl, Memory.read_write hsorted]
  have hwb : written.busy = false := hwritten.busy
  refine ⟨hcells, fun j hj u bits hlen => ?_⟩
  have hreading : reading = written.csRise.clockBits (frameDiBits (0b110#3 ++ a)) := rfl
  rw [Device.clockBits_read (d := written.csRise) hwb rfl rfl] at hreading
  have hsnap : reading.snap = v := by
    rw [hreading]
    exact (hcells _).trans (if_pos rfl)
  rw [Device.drive_clockBits_readOut (d := reading) (by rw [hreading]; exact hwb) (by rw [hreading]) (by rw [hreading]) hj
    hlen, hsnap]

/-- Settles O56: openness lasts, by induction on the cycles; every cycle from then on draws the pin and fills the cells. -/
theorem tooFastTimingOpensDevice : Obligations.TooFastTimingOpensDevice := by
  intro s hseen hk hfast
  have hopen := Env.nextConduct_open hfast
  refine ⟨fun n => ?_, fun hl hw n => ?_⟩
  · rw [after_iff_cycles hseen]
    exact State.doPin_open ((State.cycles_kind s n).trans hk) (State.cycles_open hk hopen n)
  · rw [after_iff_cycles hseen]
    intro x hx
    have hcells := Env.nextConduct_cellsOpen hopen (hw.imp_left fun h => Env.writing_of_op h.1 h.2)
    rw [State.cycles_succ, State.clkCycle_env]
    show Memory.read (Env.observe _ _ _ _).dev.mem x = _
    rw [Env.observe_cellsOpen ((State.cycles_kind s n).trans hk) (State.cycles_cellsOpen hk hcells n),
      (Memory.fill_spec _ (State.cycles_mem_wf hl.1 n)).2, if_pos (show x < Config.devCells from hx), State.cycles_cycle]

end Sys2Proof.Machine
end

section
/-! What the reference device sees of the micro-ops (20_memory.md R76 to R85, 40_primitives.md): the transactions of the commands
as steps of the device, and its write cycle under the waits and the slots of a poll. -/

namespace Sys2Proof.Machine

section
variable {p : Params} {b : Nat → Bool} {q : Seq} {d : Device}

/-! ## Waits -/

theorem Work.Legal.half_ge {w : Work} (h : w.Legal) : 2 ≤ w.th.toNat := by
  obtain ⟨hth, -⟩ := h
  exact hth

theorem Work.Legal.su_pos {w : Work} (h : w.Legal) : 1 ≤ w.su.toNat := by
  obtain ⟨-, hsu, -, -⟩ := h
  exact hsu

theorem Work.Legal.cs_pos {w : Work} (h : w.Legal) : 1 ≤ w.cs.toNat := by
  obtain ⟨-, -, hcs, -⟩ := h
  exact hcs

theorem Seq.seen_succ (p : Params) (b : Nat → Bool) (c n : Nat) (q : Seq) (d : Device) :
    Seq.seen p b c (n + 1) q d = (Seq.seen p b c n q d).observe (Seq.edges p b c n q).csQ (Seq.edges p b c n q).clkQ
      (Seq.edges p b c n q).diQ := by
  rw [Seq.seen_add]
  rfl

/-- Within a wait the levels stay. -/
theorem Seq.seen_succ_wait {n : Nat} (c : Nat) (hn : n < q.dly.toNat) (d : Device) :
    Seq.seen p b c (n + 1) q d = (Seq.seen p b c n q d).observe q.csQ q.clkQ q.diQ := by
  obtain ⟨dly, hd⟩ := Seq.edges_wait (p := p) (b := b) n c hn
  rw [Seq.seen_succ, hd]

/-- Within a wait a device that is not busy sees the levels of its first cycle, and nothing after it. -/
theorem Seq.seen_within {n : Nat} (c : Nat) (hn : n < q.dly.toNat) (hb : (d.observe q.csQ q.clkQ q.diQ).busy = false) :
    Seq.seen p b c (n + 1) q d = d.observe q.csQ q.clkQ q.diQ := by
  induction n with
  | zero => rfl
  | succ n ih =>
    rw [Seq.seen_succ_wait c hn, ih (by omega)]
    exact Device.observe_steady q.diQ hb rfl rfl

/-- What the device sees from the start edge of one micro-op to that of another, and then. -/
theorem Seq.Performs.seen {c m : Nat} {es : List LineEvent} {q' : Seq} (h : Seq.Performs p b c m q es q') (n : Nat)
    (d : Device) : Seq.seen p b c (m + n) (q.enter p) d =
      Seq.seen p b (c + m) n (q'.enter p) (Seq.seen p b c m (q.enter p) d) := by
  obtain ⟨_, hrun, -⟩ := h
  exact Seq.seen_runs d hrun

theorem Seq.Performs.seen_then {c m n : Nat} {es : List LineEvent} {q' : Seq} {d' d'' : Device}
    (h : Seq.Performs p b c m q es q') (h1 : Seq.seen p b c m (q.enter p) d = d')
    (h2 : Seq.seen p b (c + m) n (q'.enter p) d' = d'') : Seq.seen p b c (m + n) (q.enter p) d = d'' := by
  rw [h.seen, h1, h2]

/-! ## CS_ON and CS_OFF -/

/-- The device after a CS rise, with CLK low. -/
def Device.select (d : Device) : Device := { d.csRise with csPrev := true, clkPrev := false }

/-- The device after a CS fall, with CLK low. -/
def Device.deselect (d : Device) : Device := { d.csFall with csPrev := false, clkPrev := false }

theorem Device.observe_select (hb : d.busy = false) (hc : d.csPrev = false) (di : Bool) :
    d.observe true false di = d.select := by
  have hcount : d.countDown = d := by rw [Device.countDown, hb]; rfl
  unfold Device.observe Device.csEvents Device.clkEvents
  rw [hcount, hc]
  simp [Device.select]

theorem Device.observe_deselect (hb : d.busy = false) (hc : d.csPrev = true) (di : Bool) :
    d.observe false false di = d.deselect := by
  have hcount : d.countDown = d := by rw [Device.countDown, hb]; rfl
  unfold Device.observe Device.csEvents Device.clkEvents
  rw [hcount, hc]
  simp [Device.deselect]

theorem Device.deselect_busy (hb : d.busy = false) (h : d.writeReady = false) : d.deselect.busy = false := by
  rw [Device.deselect, Device.csFall, if_neg (by simp [h])]
  exact hb

/-- A device that is not busy sees the CS rise of a CS_ON (R79). -/
theorem Seq.seen_csOn (c : Nat) (hw : q.work.Legal) (ho : q.currentOp = some .csOn) (hclk : q.clkQ = false)
    (hb : d.busy = false) (hc : d.csPrev = false) : Seq.seen p b c q.work.cs.toNat (q.enter p) d = d.select := by
  have hcs := hw.cs_pos
  obtain ⟨n, hn⟩ : ∃ n, q.work.cs.toNat = n + 1 := ⟨q.work.cs.toNat - 1, by omega⟩
  have hobs : d.observe q.startCsOn.csQ q.startCsOn.clkQ q.startCsOn.diQ = d.select :=
    (congrArg (d.observe true · q.diQ) hclk).trans (Device.observe_select hb hc _)
  have hdly : q.startCsOn.dly.toNat = q.work.cs.toNat := q.startHold_dly
  rw [Seq.enter_of_some ho, hn]
  show Seq.seen p b c (n + 1) q.startCsOn d = _
  rw [Seq.seen_within c (by omega) (by rw [hobs]; exact hb), hobs]

/-- A device that is not busy and starts no write sees the CS fall of a CS_OFF (R78). -/
theorem Seq.seen_csOff (c : Nat) (hw : q.work.Legal) (ho : q.currentOp = some .csOff) (hclk : q.clkQ = false)
    (hb : d.busy = false) (hc : d.csPrev = true) (hready : d.writeReady = false) :
    Seq.seen p b c q.work.cs.toNat (q.enter p) d = d.deselect := by
  have hcs := hw.cs_pos
  obtain ⟨n, hn⟩ : ∃ n, q.work.cs.toNat = n + 1 := ⟨q.work.cs.toNat - 1, by omega⟩
  have hobs : d.observe q.startCsOff.csQ q.startCsOff.clkQ q.startCsOff.diQ = d.deselect :=
    (congrArg (d.observe false · false) hclk).trans (Device.observe_deselect hb hc _)
  have hdly : q.startCsOff.dly.toNat = q.work.cs.toNat := q.startHold_dly
  rw [Seq.enter_of_some ho, hn]
  show Seq.seen p b c (n + 1) q.startCsOff d = _
  rw [Seq.seen_within c (by omega) (by rw [hobs]; exact Device.deselect_busy hb hready), hobs]

/-! ## SEND -/

/-- A selected device that is not busy takes the bits of a SEND (R80). -/
theorem Seq.seen_send (c : Nat) {src : FrameSrc} {v : Frame} {w : Nat} (hq : q.busy = true) (hw : q.work.Legal)
    (ho : q.currentOp = some (.send src)) (hcs : q.csQ = true) (hclk : q.clkQ = false)
    (hv : frameBits (src.raw p q.work) = v) (hwidth : frameWidth (src.raw p q.work) = w) (hb : d.busy = false)
    (hc : d.csPrev = true) (hk : d.clkPrev = false) :
    Seq.seen p b c (sendCycles q.work.su.toNat q.work.th.toNat w) (q.enter p) d =
      d.clockBits ((List.range w).map fun j => v.getLsbD (w - 1 - j)) := by
  obtain ⟨h1, h9⟩ := FrameSrc.frameWidth_pos p q.work src
  obtain ⟨i, rfl⟩ : ∃ i, w = i + 1 := ⟨w - 1, by omega⟩
  have hstart : q.enter p = { q with shVal := v }.startSendCell i := by
    rw [Seq.enter_of_some ho]
    show Seq.startSend _ _ q = _
    rw [hv, hwidth]
    rfl
  rw [hstart]
  exact Seq.seen_sendCells (q := { q with shVal := v }) (src := src) c hq hw ho hcs hclk (by omega) hb hc hk

theorem byteDiBits_eq (v : Byte) :
    (List.range 8).map (fun j => (v.setWidth 9).getLsbD (8 - 1 - j)) = byteDiBits v := by
  refine List.map_congr_left fun j hj => ?_
  have := List.mem_range.mp hj
  rw [BitVec.getLsbD_setWidth, decide_eq_true (by omega), Bool.true_and]

/-- Rising clocks keep a device that is not busy so, and leave its view of the lines and its cells alone. -/
theorem Device.clockBits_keeps (hb : d.busy = false) (bits : List Bool) :
    (d.clockBits bits).busy = false ∧ (d.clockBits bits).csPrev = d.csPrev ∧ (d.clockBits bits).clkPrev = d.clkPrev ∧
      (d.clockBits bits).mem = d.mem := by
  induction bits generalizing d with
  | nil => exact ⟨hb, rfl, rfl, rfl⟩
  | cons x xs ih =>
    obtain ⟨hb', hc', hk', hm', -⟩ := Device.clockRise_frame x hb
    obtain ⟨hb'', hc'', hk'', hm''⟩ := ih hb'
    exact ⟨hb'', hc''.trans hc', hk''.trans hk', hm''.trans hm'⟩

/-! ## Transactions -/

/-- What CS_ON, SEND of a 9-bit frame and CS_OFF do to a device at rest. -/
theorem Seq.seen_enable (c : Nat) {src : FrameSrc} {v : Frame} (hq : q.busy = true) (hw : q.work.Legal)
    (hclk : q.clkQ = false) (hv : src.raw p q.work = .wire9 v) (hon : q.currentOp = some .csOn)
    (hsend : q.afterCsOn.currentOp = some (.send src)) (hoff : (q.afterCsOn.afterSend v).currentOp = some .csOff)
    (hb : d.busy = false) (hc : d.csPrev = false) (hready : (d.select.clockBits (frameDiBits v)).writeReady = false) :
    Seq.seen p b c (enableCycles q.work.su.toNat q.work.th.toNat q.work.cs.toNat) (q.enter p) d =
      (d.select.clockBits (frameDiBits v)).deselect := by
  have hbits : frameBits (src.raw p q.afterCsOn.work) = v := congrArg frameBits hv
  have hwidth : frameWidth (src.raw p q.afterCsOn.work) = 9 := congrArg frameWidth hv
  obtain ⟨hb', hc', -⟩ := Device.clockBits_keeps (d := d.select) hb (frameDiBits v)
  have hsplit : enableCycles q.work.su.toNat q.work.th.toNat q.work.cs.toNat =
      q.work.cs.toNat + (sendCycles q.work.su.toNat q.work.th.toNat 9 + q.work.cs.toNat) := by
    unfold enableCycles
    omega
  have h2 (c : Nat) : Seq.seen p b c (sendCycles q.work.su.toNat q.work.th.toNat 9) (q.afterCsOn.enter p) d.select =
      d.select.clockBits (frameDiBits v) :=
    Seq.seen_send (q := q.afterCsOn) c hq hw hsend rfl hclk hbits hwidth hb rfl rfl
  have h3 (c : Nat) : Seq.seen p b c q.work.cs.toNat ((q.afterCsOn.afterSend v).enter p)
      (d.select.clockBits (frameDiBits v)) = (d.select.clockBits (frameDiBits v)).deselect :=
    Seq.seen_csOff (q := q.afterCsOn.afterSend v) c hw hoff hclk hb' hc' hready
  have hsend' (c : Nat) := Seq.performs_send (p := p) (b := b) (q := q.afterCsOn) c hq hw hsend hclk hbits hwidth
  rw [hsplit]
  exact (Seq.performs_csOn c hq hw hon).seen_then (Seq.seen_csOn c hw hon hclk hb hc)
    ((hsend' _).seen_then (h2 _) (h3 _))

/-- The device after an EWEN or EWDS transaction. -/
def Device.enabled (f : Frame) (wen : Bool) (d : Device) : Device :=
  { d with shreg := f, n := 9, wen := wen, phase := .idle, csPrev := false, clkPrev := false }

/-- The EWEN transaction enables writing, the EWDS transaction disables it, and neither is a write (R78, R82). -/
theorem Device.enable_transaction (hb : d.busy = false) {f : Frame} {wen : Bool}
    (hf : f = 0x130#9 ∧ wen = true ∨ f = 0x100#9 ∧ wen = false) :
    (d.select.clockBits (frameDiBits f)).writeReady = false ∧
      (d.select.clockBits (frameDiBits f)).deselect = d.enabled f wen := by
  have hclocked : d.select.clockBits (frameDiBits f) =
      { d.select with shreg := f, n := 9, wen := wen, phase := .ignore } := by
    rcases hf with ⟨rfl, rfl⟩ | ⟨rfl, rfl⟩
    · exact Device.clockBits_ewen (d := d.select) hb rfl rfl
    · exact Device.clockBits_ewds (d := d.select) hb rfl rfl
  have hready : ({ d.select with shreg := f, n := 9, wen := wen, phase := .ignore } : Device).writeReady = false := rfl
  rw [hclocked]
  refine ⟨hready, ?_⟩
  rw [Device.deselect, Device.csFall, if_neg (by simp [hready])]
  rfl

/-! ## The write cycle under a command -/

/-- The write of a byte into a device: what its busy time counts, its cells before, the cell and the byte. -/
structure WriteCycle where
  mode : BusyMode
  cells : Memory
  addr : DevAddr
  byte : Byte

/-- The counts of `n` cycles with steady levels, the first of which has a rising clock or not (R77, R80). -/
def WriteCycle.counts (w : WriteCycle) (n : Nat) (rise : Bool) : Nat :=
  match w.mode with
  | .cycles => n
  | .pulses => rise.toNat

theorem WriteCycle.counts_add (w : WriteCycle) (m n : Nat) (rise : Bool) :
    w.counts m rise + w.counts n false = w.counts (m + n) rise := by
  unfold WriteCycle.counts
  cases w.mode <;> rfl

/-- The device with `r` counts of its write cycle left, which takes any DI of 0 for a leading zero. -/
structure Device.Polled (w : WriteCycle) (r : Nat) (cs clk : Bool) (d : Device) : Prop where
  pending : d.Pending w.cells w.addr w.byte r
  mode : d.mode = w.mode
  csPrev : d.csPrev = cs
  clkPrev : d.clkPrev = clk
  phase : d.phase = if cs then .cmdIn else .idle
  n : cs = true → d.n = 0

section
variable {w : WriteCycle} {r : Nat} {cs clk : Bool}

theorem Device.countDown_phase (d : Device) : d.countDown.phase = d.phase ∧ d.countDown.n = d.n := by
  unfold Device.countDown Device.count Device.commit
  split_ifs <;> exact ⟨rfl, rfl⟩

theorem Device.csEvents_phase (hphase : d.phase = if d.csPrev then .cmdIn else .idle) (hn : d.csPrev = true → d.n = 0)
    (cs : Bool) : (d.csEvents cs).phase = (if cs then .cmdIn else .idle) ∧ (cs = true → (d.csEvents cs).n = 0) := by
  unfold Device.csEvents
  cases hc : d.csPrev <;> cases cs
  · exact ⟨by simpa [hc] using hphase, fun h => by cases h⟩
  · exact ⟨rfl, fun _ => rfl⟩
  · exact ⟨rfl, fun h => by cases h⟩
  · exact ⟨by simpa [hc] using hphase, fun _ => hn hc⟩

/-- A clock that carries DI = 0 is a leading zero, or only counts (R80, R81). -/
theorem Device.clockRise_zero_phase (hp : d.phase = .cmdIn) (hn : d.n = 0) :
    (d.clockRise false).phase = .cmdIn ∧ (d.clockRise false).n = 0 := by
  cases hb : d.busy with
  | false => rw [Device.clockRise_skip hb hp hn]; exact ⟨hp, hn⟩
  | true =>
    unfold Device.clockRise Device.count Device.commit
    rw [if_pos hb]
    split <;> (try split) <;> exact ⟨hp, hn⟩

/-- A cycle with DI at 0. -/
theorem Device.Polled.observe {cs' clk' : Bool} (h : d.Polled w r cs' clk') (cs clk : Bool) :
    (d.observe cs clk false).Polled w (r - w.counts 1 (cs && !clk' && clk)) cs clk := by
  have hpending := h.pending.observe (cs := cs) (.inr (by rw [h.phase]; cases cs' <;> decide)) clk false
  have hcounts : (if d.counts cs clk = true then r - 1 else r) = r - w.counts 1 (cs && !clk' && clk) := by
    unfold Device.counts WriteCycle.counts
    rw [h.mode, h.clkPrev]
    cases w.mode with
    | cycles => rfl
    | pulses => cases hrise : cs && !clk' && clk <;> rfl
  obtain ⟨hcphase, hcn⟩ := d.countDown_phase
  obtain ⟨-, -, hcprev, -⟩ := d.countDown_frame
  obtain ⟨hphase, hn⟩ := Device.csEvents_phase (d := d.countDown) (by rw [hcphase, hcprev, h.csPrev]; exact h.phase)
    (fun hc => hcn.trans (h.n (h.csPrev.symm.trans (hcprev.symm.trans hc)))) cs
  have hend : ((d.countDown.csEvents cs).clkEvents cs clk false).phase = (if cs then .cmdIn else .idle) ∧
      (cs = true → ((d.countDown.csEvents cs).clkEvents cs clk false).n = 0) := by
    unfold Device.clkEvents
    split
    · rename_i hrise
      obtain rfl : cs = true := by simp_all
      obtain ⟨hp, hz⟩ := Device.clockRise_zero_phase hphase (hn rfl)
      exact ⟨hp, fun _ => hz⟩
    · exact ⟨hphase, hn⟩
  rw [hcounts] at hpending
  exact ⟨hpending, (Device.observe_mode _ _ _ _).trans h.mode, rfl, rfl, hend.1, hend.2⟩

/-- Further cycles of a wait whose levels the device has seen already. -/
theorem Seq.seen_polled_more {m n : Nat} (c : Nat) (hn : m + n ≤ q.dly.toNat) (hdi : q.diQ = false)
    (h : (Seq.seen p b c m q d).Polled w r q.csQ q.clkQ) :
    (Seq.seen p b c (m + n) q d).Polled w (r - w.counts n false) q.csQ q.clkQ := by
  induction n with
  | zero =>
    have hzero : w.counts 0 false = 0 := by unfold WriteCycle.counts; cases w.mode <;> rfl
    rw [hzero]
    exact h
  | succ n ih =>
    have hstep := (ih (by omega)).observe q.csQ q.clkQ
    have hrise : (q.csQ && !q.clkQ && q.clkQ) = false := by cases q.csQ <;> cases q.clkQ <;> rfl
    rw [hrise, Nat.sub_sub, WriteCycle.counts_add] at hstep
    rw [← Nat.add_assoc, Seq.seen_succ_wait c (by omega), hdi]
    exact hstep

/-- Cycles of a wait from its first one on. -/
theorem Seq.seen_polled {n : Nat} (c : Nat) (hpos : 1 ≤ n) (hn : n ≤ q.dly.toNat) (hdi : q.diQ = false)
    (h : d.Polled w r cs clk) :
    (Seq.seen p b c n q d).Polled w (r - w.counts n (q.csQ && !clk && q.clkQ)) q.csQ q.clkQ := by
  obtain ⟨m, rfl⟩ : ∃ m, n = 1 + m := ⟨n - 1, by omega⟩
  have hfirst := h.observe q.csQ q.clkQ
  rw [← hdi] at hfirst
  have hmore := Seq.seen_polled_more (p := p) (b := b) (m := 1) c hn hdi hfirst
  rwa [Nat.sub_sub, WriteCycle.counts_add] at hmore

/-- Over a CS_ON the write cycle goes on, and the device is selected. -/
theorem Seq.seen_csOn_polled (c : Nat) (hw : q.work.Legal) (ho : q.currentOp = some .csOn) (hclk : q.clkQ = false)
    (hdi : q.diQ = false) (h : d.Polled w r cs clk) :
    (Seq.seen p b c q.work.cs.toNat (q.enter p) d).Polled w (r - w.counts q.work.cs.toNat false) true false := by
  have hcs := hw.cs_pos
  have hseen := Seq.seen_polled (p := p) (b := b) (q := q.startCsOn) c hcs (Nat.le_of_eq q.startHold_dly.symm) hdi h
  have hlow : q.startCsOn.clkQ = false := hclk
  rw [hlow, Bool.and_false] at hseen
  rw [Seq.enter_of_some ho]
  exact hseen

/-- Over a CS_OFF it goes on as well. -/
theorem Seq.seen_csOff_polled (c : Nat) (hw : q.work.Legal) (ho : q.currentOp = some .csOff) (hclk : q.clkQ = false)
    (h : d.Polled w r cs clk) :
    (Seq.seen p b c q.work.cs.toNat (q.enter p) d).Polled w (r - w.counts q.work.cs.toNat false) false false := by
  have hcs := hw.cs_pos
  have hseen := Seq.seen_polled (p := p) (b := b) (q := q.startCsOff) c hcs (Nat.le_of_eq q.startHold_dly.symm) rfl h
  have hlow : q.startCsOff.clkQ = false := hclk
  rw [hlow, Bool.and_false] at hseen
  rw [Seq.enter_of_some ho]
  exact hseen

/-- The first cycle of the CS_OFF behind a write's data starts the write cycle (R78). -/
theorem Device.deselect_polled (hready : d.writeReady = true) :
    d.deselect.Polled ⟨d.mode, d.mem, d.a, d.d⟩ d.devBusy false false := by
  obtain ⟨hbusy, hleft, hmem⟩ := Device.csFall_pending hready
  have hmode : d.csFall.mode = d.mode := by
    unfold Device.csFall Device.startWrite
    split_ifs <;> rfl
  exact ⟨⟨hbusy, hleft, hmem⟩, hmode, rfl, rfl, rfl, fun h => by cases h⟩

/-- The write cycle begins in the first cycle of that CS_OFF, which it does not count. -/
theorem Seq.seen_csOff_write (c : Nat) (hw : q.work.Legal) (ho : q.currentOp = some .csOff) (hclk : q.clkQ = false)
    (hc : d.csPrev = true) (hready : d.writeReady = true) :
    (Seq.seen p b c q.work.cs.toNat (q.enter p) d).Polled ⟨d.mode, d.mem, d.a, d.d⟩
      (d.devBusy - WriteCycle.counts ⟨d.mode, d.mem, d.a, d.d⟩ (q.work.cs.toNat - 1) false) false false := by
  have hcs := hw.cs_pos
  have hb : d.busy = false := by simpa using (Bool.and_eq_true_iff.mp hready).2
  have hlow : q.startCsOff.clkQ = false := hclk
  have hfirst : (Seq.seen p b c 1 q.startCsOff d).Polled ⟨d.mode, d.mem, d.a, d.d⟩ d.devBusy q.startCsOff.csQ
      q.startCsOff.clkQ := by
    show (d.observe false q.startCsOff.clkQ false).Polled _ _ _ _
    rw [hlow, Device.observe_deselect hb hc]
    exact Device.deselect_polled hready
  have hdly : q.startCsOff.dly.toNat = q.work.cs.toNat := q.startHold_dly
  have hmore := Seq.seen_polled_more (n := q.work.cs.toNat - 1) c (by omega) rfl hfirst
  rw [Nat.add_sub_cancel' hcs, hlow] at hmore
  rw [Seq.enter_of_some ho]
  exact hmore

/-! ## The poll -/

/-- `n` cycles of a slot take as many counts in `cycles` mode, and in `pulses` mode one if the slot is clocked. -/
theorem Seq.seen_slot {n : Nat} {bounded : Bool} (c : Nat) (hq : q.busy = true) (hw : q.work.Legal)
    (ho : q.currentOp = some (.poll bounded)) (hcs : q.csQ = true) (hdi : q.diQ = false) (hpos : 1 ≤ n)
    (hn : n ≤ 2 * q.work.th.toNat) (h : d.Polled w r true false) :
    (Seq.seen p b c n (q.enter p) d).Polled w (r - w.counts n q.work.pclk) true
      (q.work.pclk && decide (n ≤ q.work.th.toNat)) := by
  have hth : q.work.th.toNat < 2 ^ 16 := q.work.th.isLt
  have hhalf := hw.half_ge
  have hdly : (BitVec.ofNat 17 q.work.th.toNat).toNat = q.work.th.toNat := by
    rw [BitVec.toNat_ofNat, Nat.mod_eq_of_lt (by omega)]
  have hhigh {n : Nat} (hpos : 1 ≤ n) (hn : n ≤ q.work.th.toNat) :
      (Seq.seen p b c n q.startSlot d).Polled w (r - w.counts n q.work.pclk) true q.work.pclk := by
    have hseen := Seq.seen_polled (p := p) (b := b) (q := q.startSlot) c hpos (hdly.symm ▸ hn) hdi h
    have hlevels : q.startSlot.csQ = true ∧ q.startSlot.clkQ = q.work.pclk := ⟨hcs, rfl⟩
    rw [hlevels.1, hlevels.2] at hseen
    exact hseen
  rw [Seq.enter_of_some ho]
  show (Seq.seen p b c n q.startSlot d).Polled _ _ _ _
  by_cases hle : n ≤ q.work.th.toNat
  · rw [decide_eq_true hle, Bool.and_true]
    exact hhigh hpos hle
  · obtain ⟨m, rfl⟩ : ∃ m, n = q.work.th.toNat + m := ⟨n - q.work.th.toNat, by omega⟩
    have hseen := Seq.seen_polled (p := p) (b := b) (n := m) (q := q.slotMiddle) (c + q.work.th.toNat) (by omega)
      (show m ≤ (BitVec.ofNat 17 q.work.th.toNat).toNat by omega) hdi (hhigh (by omega) (Nat.le_refl _))
    have hlevels : q.slotMiddle.csQ = true ∧ q.slotMiddle.clkQ = false := ⟨hcs, rfl⟩
    rw [hlevels.1, hlevels.2, Bool.and_false, Nat.sub_sub, WriteCycle.counts_add] at hseen
    rw [Seq.seen_runs d (Seq.runs_slotHigh hq hw ho), decide_eq_false hle, Bool.and_false]
    exact hseen

/-- `k` slots that sample 0. -/
theorem Seq.seen_emptySlots {k : Nat} {bounded : Bool} (c : Nat) (hq : q.busy = true) (hw : q.work.Legal)
    (ho : q.currentOp = some (.poll bounded)) (hcs : q.csQ = true) (hdi : q.diQ = false)
    (hx : ∀ j, j < k → b (c + 2 * q.work.th.toNat * (j + 1) - 1) = false)
    (hmore : bounded = true → q.slotCtr.toNat + k < q.work.pmax.toNat) (h : d.Polled w r true false) :
    (Seq.seen p b c (pollCycles q.work.th.toNat k) (q.enter p) d).Polled w
      (r - k * w.counts (2 * q.work.th.toNat) q.work.pclk) true false := by
  induction k with
  | zero => rw [Nat.zero_mul]; exact h
  | succ k ih =>
    have hhalf := hw.half_ge
    have hfront := Seq.performs_emptySlots (p := p) (k := k) hq hw ho (fun j hj => hx j (by omega))
      (fun hbound => by have := hmore hbound; omega)
    have hslot := Seq.seen_slot (p := p) (b := b) (q := q.countSlots k) (c + pollCycles q.work.th.toNat k) hq hw ho hcs hdi
      (show 1 ≤ 2 * q.work.th.toNat by omega) (Nat.le_refl _)
      (ih (fun j hj => hx j (by omega)) (fun hbound => by have := hmore hbound; omega))
    have hlevel : decide (2 * q.work.th.toNat ≤ q.work.th.toNat) = false := decide_eq_false (by omega)
    rw [show (q.countSlots k).work = q.work from rfl, hlevel, Bool.and_false, Nat.sub_sub, ← Nat.succ_mul] at hslot
    rw [show pollCycles q.work.th.toNat (k + 1) = pollCycles q.work.th.toNat k + 2 * q.work.th.toNat from Nat.mul_succ _ _,
      hfront.seen]
    exact hslot

end

/-! ## WRITE up to its poll -/

/-- The device that has taken a WRITE frame and its data, before the CS fall. -/
def Device.loaded (a : DevAddr) (v : Byte) (d : Device) : Device :=
  { d.select with shreg := 0b101#3 ++ a, n := 8, a := a, d := v, phase := .waitCs }

/-- The CS assertion of a write with its frame and its data (R82, R84). -/
theorem Seq.seen_writeSend (c : Nat) {ewen frame data : Frame} {a : DevAddr} (hq : q.busy = true) (hw : q.work.Legal)
    (hclk : q.clkQ = false) (hhead : q.WriteHead ewen frame data) (hframe : frame = addrFrame p.writeHdr q.work.addr)
    (hdata : data = q.work.data.setWidth 9) (haddr : frame = 0b101#3 ++ a) (hb : d.busy = false) (hc : d.csPrev = false) :
    Seq.seen p b c q.work.writeSendCycles ((q.afterEnable ewen).enter p) d = d.loaded a q.work.data := by
  obtain ⟨busy, csQ, clkQ, diQ, work, acc, shVal, bitIdx, slotCtr, timedOut, upc, dly, phase, cell⟩ := q
  let q : Seq := ⟨busy, csQ, clkQ, diQ, work, acc, shVal, bitIdx, slotCtr, timedOut, upc, dly, phase, cell⟩
  have hon (c : Nat) := Seq.performs_csOn (p := p) (b := b) (q := q.afterEnable ewen) c hq hw hhead.on
  have hsend (c : Nat) := Seq.performs_send (p := p) (b := b) (q := (q.afterEnable ewen).afterCsOn) (src := .write)
    (v := frame) (w := 9) c hq hw hhead.sendFrame hclk hframe.symm rfl
  have h1 (c : Nat) : Seq.seen p b c work.cs.toNat ((q.afterEnable ewen).enter p) d = d.select :=
    Seq.seen_csOn (q := q.afterEnable ewen) c hw hhead.on hclk hb hc
  have h2 (c : Nat) : Seq.seen p b c (sendCycles work.su.toNat work.th.toNat 9) ((q.afterEnable ewen).afterCsOn.enter p)
      d.select = d.select.clockBits (frameDiBits frame) :=
    Seq.seen_send (q := (q.afterEnable ewen).afterCsOn) (src := .write) (v := frame) (w := 9) c hq hw hhead.sendFrame rfl
      hclk hframe.symm rfl hb rfl rfl
  obtain ⟨hb', hc', hk', -⟩ := Device.clockBits_keeps (d := d.select) hb (frameDiBits frame)
  have h3 (c : Nat) : Seq.seen p b c (sendCycles work.su.toNat work.th.toNat 8)
      (((q.afterEnable ewen).afterCsOn.afterSend frame).enter p) (d.select.clockBits (frameDiBits frame)) =
        (d.select.clockBits (frameDiBits frame)).clockBits (byteDiBits work.data) := by
    rw [← byteDiBits_eq]
    refine (Seq.seen_send (q := (q.afterEnable ewen).afterCsOn.afterSend frame) (src := .data) (v := data) (w := 8) c hq hw
      hhead.sendData rfl hclk hdata.symm rfl hb' hc' hk').trans ?_
    rw [hdata]
  have hsplit : work.writeSendCycles = work.cs.toNat + (sendCycles work.su.toNat work.th.toNat 9 +
      sendCycles work.su.toNat work.th.toNat 8) := Nat.add_assoc _ _ _
  have hloaded : (d.select.clockBits (frameDiBits frame)).clockBits (byteDiBits work.data) = d.loaded a work.data := by
    rw [haddr]
    exact Device.clockBits_write (d := d.select) hb rfl rfl a work.data
  show Seq.seen p b c work.writeSendCycles _ d = _
  rw [hsplit]
  exact (hon c).seen_then (h1 _) ((hsend _).seen_then (h2 _) ((h3 _).trans hloaded))

/-- CS_OFF and CS_ON behind the data: the write cycle starts, and has run for all but one of their 2C cycles. -/
theorem Seq.seen_hold_write (c : Nat) (hq : q.busy = true) (hw : q.work.Legal) (hclk : q.clkQ = false)
    (ho : q.currentOp = some .csOff) (hon : q.afterCsOff.currentOp = some .csOn) (hc : d.csPrev = true)
    (hready : d.writeReady = true) :
    (Seq.seen p b c (q.work.cs.toNat + q.work.cs.toNat) (q.enter p) d).Polled ⟨d.mode, d.mem, d.a, d.d⟩
      (d.devBusy - WriteCycle.counts ⟨d.mode, d.mem, d.a, d.d⟩ (2 * q.work.cs.toNat - 1) false) true false := by
  have hcs := hw.cs_pos
  have hoff := Seq.seen_csOff_write (p := p) (b := b) c hw ho hclk hc hready
  have hselected := Seq.seen_csOn_polled (p := p) (b := b) (q := q.afterCsOff) (c + q.work.cs.toNat) hw hon hclk rfl hoff
  have hcycles : q.work.cs.toNat - 1 + q.work.cs.toNat = 2 * q.work.cs.toNat - 1 := by omega
  rw [show q.afterCsOff.work = q.work from rfl, Nat.sub_sub, WriteCycle.counts_add, hcycles] at hselected
  rw [(Seq.performs_csOff c hq hw ho).seen]
  exact hselected

/-- WRITE up to its poll on a device at rest. -/
theorem Seq.seen_writeHead (c : Nat) {a : DevAddr} (hq : q.busy = true) (hw : q.work.Legal) (hclk : q.clkQ = false)
    (hop : q.work.op = 2#3 ∨ q.work.op = 5#3) (hupc : q.upc = 0#4) (hewen : p.ewenFrame.setWidth 9 = 0x130#9)
    (haddr : addrFrame p.writeHdr q.work.addr = 0b101#3 ++ a) (hb : d.busy = false) (hc : d.csPrev = false) :
    (Seq.seen p b c q.work.pollStart (q.enter p) d).Polled ⟨d.mode, d.mem, a, q.work.data⟩
      (d.devBusy - WriteCycle.counts ⟨d.mode, d.mem, a, q.work.data⟩ (2 * q.work.cs.toNat - 1) false) true false := by
  have hhead := Seq.writeHead hop hupc (p.ewenFrame.setWidth 9) (addrFrame p.writeHdr q.work.addr) (q.work.data.setWidth 9)
  obtain ⟨hready, henabled⟩ := Device.enable_transaction (d := d) hb (f := p.ewenFrame.setWidth 9) (wen := true)
    (.inl ⟨hewen, rfl⟩)
  have hwrite : ((d.enabled (p.ewenFrame.setWidth 9) true).loaded a q.work.data).writeReady = true := by
    simp [Device.writeReady, Device.loaded, Device.select, Device.csRise, Device.enabled, hb]
  have h1 := Seq.seen_enable (b := b) (d := d) (src := .ewen) c hq hw hclk rfl hhead.enableOn hhead.enableSend
    hhead.enableOff hb hc hready
  have h2 (c : Nat) := Seq.seen_writeSend (b := b) (d := d.enabled (p.ewenFrame.setWidth 9) true) c hq hw hclk hhead rfl rfl
    haddr hb rfl
  have henable := Seq.performs_enable (p := p) (b := b) (src := .ewen) c hq hw hclk rfl hhead.enableOn hhead.enableSend
    hhead.enableOff
  have hsend (c : Nat) := Seq.performs_writeSend (p := p) (b := b) c hq hw hclk hhead rfl rfl
  obtain ⟨busy, csQ, clkQ, diQ, work, acc, shVal, bitIdx, slotCtr, timedOut, upc, dly, phase, cell⟩ := q
  let q : Seq := ⟨busy, csQ, clkQ, diQ, work, acc, shVal, bitIdx, slotCtr, timedOut, upc, dly, phase, cell⟩
  have h3 (c : Nat) := Seq.seen_hold_write (p := p) (b := b)
    (q := ((q.afterEnable (p.ewenFrame.setWidth 9)).afterCsOn.afterSend (addrFrame p.writeHdr work.addr)).afterSend
      (work.data.setWidth 9)) (d := (d.enabled (p.ewenFrame.setWidth 9) true).loaded a work.data) c hq hw hclk hhead.off
      hhead.pollOn rfl hwrite
  have hsplit : work.pollStart = enableCycles work.su.toNat work.th.toNat work.cs.toNat +
      (work.writeSendCycles + (work.cs.toNat + work.cs.toNat)) := by
    simp only [enableCycles, sendCycles, Work.pollStart, Work.writeSendCycles]
    omega
  have hseen := henable.seen_then (h1.trans henabled) ((hsend _).seen_then (n := work.cs.toNat + work.cs.toNat) (h2 _) rfl)
  show (Seq.seen p b c work.pollStart _ d).Polled _ _ _ _
  rw [hsplit]
  exact Eq.mpr (congrArg (Device.Polled _ _ true false) hseen) (h3 _)

/-! ## WRITE after its poll -/

/-- WRITE behind its poll, once the byte is in its cell: EWDS disables writing. -/
theorem Seq.seen_writeTail (c : Nat) {w : WriteCycle} {cs clk : Bool} (hq : q.busy = true) (hw : q.work.Legal)
    (hclk : q.clkQ = false) (hop : q.work.op = 2#3 ∨ q.work.op = 5#3) (hupc : q.upc = 9#4)
    (hewds : p.ewdsFrame.setWidth 9 = 0x100#9) (h : d.Polled w 0 cs clk) :
    ∃ d' : Device, d'.Polled w 0 false false ∧
      Seq.seen p b c (q.work.cs.toNat + enableCycles q.work.su.toNat q.work.th.toNat q.work.cs.toNat) (q.enter p) d =
        d'.enabled (p.ewdsFrame.setWidth 9) false := by
  obtain ⟨busy, csQ, clkQ, diQ, work, acc, shVal, bitIdx, slotCtr, timedOut, upc, dly, phase, cell⟩ := q
  subst hupc
  let q : Seq := ⟨busy, csQ, clkQ, diQ, work, acc, shVal, bitIdx, slotCtr, timedOut, 9#4, dly, phase, cell⟩
  have hoff : q.currentOp = some .csOff := Seq.currentOp_of_write hop 9 rfl rfl (by decide)
  have hreleased := Seq.seen_csOff_polled (p := p) (b := b) (q := q) c hw hoff hclk h
  rw [Nat.zero_sub] at hreleased
  have hb := hreleased.pending.busy
  obtain ⟨hready, henabled⟩ := Device.enable_transaction (f := p.ewdsFrame.setWidth 9) (wen := false) hb
    (.inr ⟨hewds, rfl⟩)
  have henable := Seq.seen_enable (p := p) (b := b) (q := q.afterCsOff) (src := .ewds) (v := p.ewdsFrame.setWidth 9)
    (c + work.cs.toNat) hq hw hclk rfl (Seq.currentOp_of_write hop 10 rfl rfl (by decide))
    (Seq.currentOp_of_write hop 11 rfl rfl (by decide)) (Seq.currentOp_of_write hop 12 rfl rfl (by decide)) hb
    hreleased.csPrev hready
  exact ⟨_, hreleased, (Seq.performs_csOff c hq hw hoff).seen_then rfl (henable.trans henabled)⟩

/-! ## RECV8 -/

/-- The sequencer where CLK rises in a RECV cell. -/
def Seq.recvCellHigh (j : Nat) (q : Seq) : Seq := { q.startRecvCell j with dly := 1#17 }.clkRise

/-- The sequencer where CLK falls in that cell. -/
def Seq.recvCellLow (j : Nat) (q : Seq) : Seq := { q.recvCellHigh j with dly := 1#17 }.clkFall

/-- S cycles of setup, then CLK rises (R133, R138). -/
theorem Seq.runs_recvSetup {c j : Nat} (hb : q.busy = true) (hw : q.work.Legal) (ho : q.currentOp = some .recv8) :
    Seq.Runs p b c q.work.su.toNat (q.startRecvCell j) [.clkUp] (q.recvCellHigh j) := by
  have hsu := hw.su_pos
  have hlt : q.work.su.toNat < 2 ^ 8 := q.work.su.isLt
  have hrun := Seq.Runs.waitAct (p := p) (b := b) (c := c) (q := q.startRecvCell j) hb
    (n := q.work.su.toNat) (Seq.wait_toNat _ _ _ (by show q.work.su.toNat < _; omega)) hsu
  have hcur : { q.startRecvCell j with dly := 1#17 }.currentOp = some .recv8 := ho
  unfold Seq.act Seq.actEvents at hrun
  rw [hcur] at hrun
  exact hrun

/-- H cycles with CLK high, then it falls (R133). -/
theorem Seq.runs_recvHigh {c j : Nat} (hb : q.busy = true) (hw : q.work.Legal) (ho : q.currentOp = some .recv8) :
    Seq.Runs p b c q.work.th.toNat (q.recvCellHigh j) [.clkDown] (q.recvCellLow j) := by
  have hhalf := hw.half_ge
  have hlt : q.work.th.toNat < 2 ^ 16 := q.work.th.isLt
  have hrun := Seq.Runs.waitAct (p := p) (b := b) (c := c) (q := q.recvCellHigh j) hb
    (n := q.work.th.toNat) (Seq.wait_toNat _ _ _ (by show q.work.th.toNat < _; omega)) (by omega)
  have hcur : { q.recvCellHigh j with dly := 1#17 }.currentOp = some .recv8 := ho
  unfold Seq.act Seq.actEvents at hrun
  rw [hcur] at hrun
  exact hrun

/-- `n` cycles of a RECV cell, its setup behind them: the device has taken one rising clock (R80). -/
theorem Seq.seen_recvCell {n j : Nat} (c : Nat) (hq : q.busy = true) (hw : q.work.Legal) (ho : q.currentOp = some .recv8)
    (hcs : q.csQ = true) (hclk : q.clkQ = false) (hb : d.busy = false) (hc : d.csPrev = true) (hk : d.clkPrev = false)
    (hsetup : q.work.su.toNat < n) (hn : n ≤ cellCycles q.work.su.toNat q.work.th.toNat) :
    Seq.seen p b c n (q.startRecvCell j) d =
      { d.clockRise q.diQ with clkPrev := decide (n ≤ q.work.su.toNat + q.work.th.toNat) } := by
  have hhalf := hw.half_ge
  have hth : q.work.th.toNat < 2 ^ 16 := q.work.th.isLt
  have hsu : q.work.su.toNat < 2 ^ 8 := q.work.su.isLt
  have hsupos := hw.su_pos
  obtain ⟨p1, p2⟩ := Device.observe_pulse q.diQ hb hc hk
  obtain ⟨f1, f2, f3, -⟩ := Device.clockRise_frame q.diQ hb
  have hsdly : (q.startRecvCell j).dly.toNat = q.work.su.toNat := Seq.wait_toNat _ _ _ (by omega)
  have hhdly : (q.recvCellHigh j).dly.toNat = q.work.th.toNat :=
    Seq.wait_toNat _ _ _ (by show q.work.th.toNat < _; omega)
  have hldly : (q.recvCellLow j).dly.toNat = q.work.th.toNat :=
    Seq.wait_toNat _ _ _ (by show q.work.th.toNat < _; omega)
  have hsteady := Device.observe_steady q.diQ hb hc hk
  have hsetupSeen : Seq.seen p b c q.work.su.toNat (q.startRecvCell j) d = d := by
    obtain ⟨m, hm⟩ : ∃ m, q.work.su.toNat = m + 1 := ⟨q.work.su.toNat - 1, by omega⟩
    have hlevels : d.observe (q.startRecvCell j).csQ (q.startRecvCell j).clkQ (q.startRecvCell j).diQ = d := by
      show d.observe q.csQ q.clkQ q.diQ = d
      rw [hcs, hclk, hsteady]
    rw [hm, Seq.seen_within c (by omega) (by rw [hlevels]; exact hb), hlevels]
  have hhighSeen (c m : Nat) (hm : m < q.work.th.toNat) : Seq.seen p b c (m + 1) (q.recvCellHigh j) d =
      { d.clockRise q.diQ with clkPrev := true } := by
    have hlevels : d.observe (q.recvCellHigh j).csQ (q.recvCellHigh j).clkQ (q.recvCellHigh j).diQ =
        { d.clockRise q.diQ with clkPrev := true } := by
      show d.observe q.csQ true q.diQ = _
      rw [hcs, p1, ← hc, ← f2]
    rw [Seq.seen_within c (by omega) (by rw [hlevels]; exact f1), hlevels]
  have hlowSeen (c m : Nat) (hm : m < q.work.th.toNat) :
      Seq.seen p b c (m + 1) (q.recvCellLow j) { d.clockRise q.diQ with clkPrev := true } =
        { d.clockRise q.diQ with clkPrev := false } := by
    have hlevels : ({ d.clockRise q.diQ with clkPrev := true } : Device).observe (q.recvCellLow j).csQ
        (q.recvCellLow j).clkQ (q.recvCellLow j).diQ = { d.clockRise q.diQ with clkPrev := false } := by
      have hfirst : ({ d.clockRise q.diQ with clkPrev := true } : Device) = d.observe true true q.diQ := by
        rw [p1, ← hc, ← f2]
      show Device.observe q.csQ false q.diQ _ = _
      rw [hcs, hfirst, p2, ← hk, ← f3]
    rw [Seq.seen_within c (by omega) (by rw [hlevels]; exact f1), hlevels]
  obtain ⟨m, rfl⟩ : ∃ m, n = q.work.su.toNat + (m + 1) := ⟨n - q.work.su.toNat - 1, by omega⟩
  rw [Seq.seen_runs d (Seq.runs_recvSetup hq hw ho), hsetupSeen]
  by_cases hle : m < q.work.th.toNat
  · rw [hhighSeen _ m hle, decide_eq_true (by omega)]
  · obtain ⟨H, hH⟩ : ∃ H, q.work.th.toNat = H + 1 := ⟨q.work.th.toNat - 1, by omega⟩
    obtain ⟨k, rfl⟩ : ∃ k, m = H + 1 + k := ⟨m - (H + 1), by omega⟩
    have hwhole : q.work.su.toNat + (q.work.th.toNat + q.work.th.toNat) = cellCycles q.work.su.toNat q.work.th.toNat := by
      unfold cellCycles
      omega
    rw [Nat.add_assoc, ← hH, Seq.seen_runs d (Seq.runs_recvHigh hq hw ho)]
    have hhigh := hhighSeen (c + q.work.su.toNat) H (by omega)
    rw [← hH] at hhigh
    rw [hhigh, hlowSeen _ k (by omega), decide_eq_false (by omega)]

/-- `k` whole RECV cells, and the sequencer behind them. -/
theorem Seq.seen_recvCells {k : Nat} (c : Nat) (hq : q.busy = true) (hw : q.work.Legal) (ho : q.currentOp = some .recv8)
    (hcs : q.csQ = true) (hclk : q.clkQ = false) (hb : d.busy = false) (hc : d.csPrev = true) (hk : d.clkPrev = false)
    (hk7 : k ≤ 7) :
    ∃ es acc, Seq.Runs p b c (k * cellCycles q.work.su.toNat q.work.th.toNat) (q.startRecvCell 0) es
        ({ q with acc := acc }.startRecvCell k) ∧
      Seq.seen p b c (k * cellCycles q.work.su.toNat q.work.th.toNat) (q.startRecvCell 0) d =
        d.clockBits (List.replicate k q.diQ) := by
  induction k with
  | zero => exact ⟨[], q.acc, by rw [Nat.zero_mul]; exact Seq.Runs.refl, by rw [Nat.zero_mul]; rfl⟩
  | succ k ih =>
    obtain ⟨es, acc, hrun, hseen⟩ := ih (by omega)
    have hcell := Seq.runs_recvCell (p := p) (b := b) (q := { q with acc := acc })
      (c := c + k * cellCycles q.work.su.toNat q.work.th.toNat) (j := k) hq hw ho hclk (by omega)
    obtain ⟨hb', hc', hk', -⟩ := Device.clockBits_keeps hb (List.replicate k q.diQ)
    obtain ⟨-, -, f3, -⟩ := Device.clockRise_frame (d := d.clockBits (List.replicate k q.diQ)) q.diQ hb'
    have hhalf := hw.half_ge
    have hlong : q.work.su.toNat + q.work.th.toNat < cellCycles q.work.su.toNat q.work.th.toNat := by
      unfold cellCycles
      omega
    have hnext := Seq.seen_recvCell (p := p) (b := b) (q := { q with acc := acc }) (j := k)
      (c + k * cellCycles q.work.su.toNat q.work.th.toNat) hq hw ho hcs hclk hb' (hc'.trans hc) (hk'.trans hk)
      (n := cellCycles q.work.su.toNat q.work.th.toNat) (by show q.work.su.toNat < _; omega) (Nat.le_refl _)
    rw [decide_eq_false (by show ¬_ ≤ q.work.su.toNat + q.work.th.toNat; omega), ← (hk'.trans hk), ← f3] at hnext
    simp only [if_neg (show ¬k = 7 by omega)] at hcell
    refine ⟨_, _, by rw [Nat.succ_mul]; exact hrun.trans hcell, ?_⟩
    rw [Nat.succ_mul, Seq.seen_runs d hrun, hseen, List.replicate_succ', Device.clockBits_append]
    exact hnext

end

end Sys2Proof.Machine
end

section
/-! The machine with the reference device (20_memory.md section 5): what a command does to the device, from the accept edge to
the completion edge, and what the machine samples of it. -/

namespace Sys2Proof.Machine

/-! ## The device under a command -/

/-- A legal idle machine beside a sound reference device at rest that its timing is slow enough for, `rst` staying low. -/
structure State.Attached (s : State) : Prop where
  legal : s.Legal
  quiet : s.quiet
  idle : s.mwm.seq.busy = false
  follows : s.deviceFollows
  notBusy : s.env.dev.busy = false
  released : s.env.dev.csPrev = false

/-- A device that has seen idle lines. -/
def Device.rested (d : Device) : Device := { d with csPrev := false, clkPrev := false }

theorem Device.observe_rested {d : Device} (hb : d.busy = false) (hc : d.csPrev = false) (di : Bool) :
    d.observe false false di = d.rested := by
  have hcount : d.countDown = d := by rw [Device.countDown, hb]; rfl
  unfold Device.observe Device.csEvents Device.clkEvents
  rw [hcount, hc]
  simp [Device.rested]

/-- The first part of a stretch of edges is a stretch of edges. -/
theorem Seq.Runs.take {p : Params} {b : Nat → Bool} {c n : Nat} {q q' : Seq} {es : List LineEvent}
    (h : Seq.Runs p b c n q es q') {m : Nat} (hm : m ≤ n) :
    Seq.Runs p b c m q (Seq.eventsFrom p b c m q) (Seq.edges p b c m q) := by
  obtain ⟨hbusy, -, -⟩ := h
  exact ⟨fun j hj => hbusy j (by omega), rfl, rfl⟩

section
variable {s : State} {op : BitVec 3} {a d : Byte}

theorem State.Attached.exceeds (h : s.Attached) (op : BitVec 3) (a d : Byte) :
    (s.startSeq op a d).work.exceeds s.env.minima = true := by
  obtain ⟨-, -, hhalf, hsu, hcs⟩ := h.follows
  show (decide (s.env.minima.half < s.mwm.host.tHalf.toNat) && decide (s.env.minima.su < s.mwm.host.tSu.toNat) &&
    decide (s.env.minima.cs < s.mwm.host.tCs.toNat)) = true
  rw [decide_eq_true hhalf, decide_eq_true hsu, decide_eq_true hcs]
  rfl

/-- At the accept edge the device has seen the idle lines. -/
theorem State.Attached.commanded_env (h : s.Attached) (op : BitVec 3) (a d : Byte) :
    (s.commanded op a d).env.kind = .reference ∧ (s.commanded op a d).env.conduct = .sound ∧
      (s.commanded op a d).env.minima = s.env.minima ∧ (s.commanded op a d).env.dev = s.env.dev.rested := by
  obtain ⟨hkind, hconduct, -⟩ := h.follows
  obtain ⟨-, hcs, hclk, -⟩ := State.startSeq_legal h.legal h.quiet h.idle op a d
  have hnext : s.env.nextConduct s.mwm = .sound :=
    Env.nextConduct_sound hconduct fun hb => by rw [h.idle] at hb; cases hb
  have hdev : s.env.dev.observe (csLogical s.params (s.mwm.csPin s.params)) s.mwm.clkPin s.mwm.diPin = s.env.dev.rested := by
    rw [csLogical_csPin, hcs, show s.mwm.clkPin = false from hclk]
    exact Device.observe_rested h.notBusy h.released _
  rw [State.commanded, State.clkCycle_env, Env.observe_sound s.params s.cycle hkind hnext]
  exact ⟨hkind, rfl, rfl, hdev⟩

/-- As long as the command runs, the device sees its sequencer. -/
theorem State.Attached.cycles_env (h : s.Attached) (hop : 1 ≤ op.toNat ∧ op.toNat ≤ 5) {n : Nat} {es : List LineEvent}
    {q' : Seq}
    (hrun : Seq.Runs s.params (s.commanded op a d).samples 0 n ((s.startSeq op a d).enter s.params) es q') :
    ((s.commanded op a d).cycles n).env.kind = .reference ∧ ((s.commanded op a d).cycles n).env.conduct = .sound ∧
      ((s.commanded op a d).cycles n).env.minima = s.env.minima ∧
      ((s.commanded op a d).cycles n).env.dev = Seq.seen s.params (s.commanded op a d).samples 0 n
        ((s.startSeq op a d).enter s.params) s.env.dev.rested := by
  obtain ⟨hkind, hconduct, hminima, hdev⟩ := h.commanded_env op a d
  obtain ⟨hseq, -⟩ := State.commanded_seq h.quiet h.idle hop a d
  have hwork : ((s.commanded op a d).mwm.seq.work.exceeds (s.commanded op a d).env.minima) = true := by
    rw [hminima, hseq, Seq.enter_work]
    exact h.exceeds op a d
  rw [← hseq] at hrun ⊢
  have hseen := State.cycles_seen (State.commanded_quiet h.quiet op a d) hkind hconduct hwork hrun
  rw [hminima, hdev] at hseen
  exact hseen

/-- The DO pin in a cycle of the command is what the device drives once it has seen that cycle. -/
theorem State.Attached.doPin (h : s.Attached) (hop : 1 ≤ op.toNat ∧ op.toNat ≤ 5) {n : Nat} {es : List LineEvent}
    {q' : Seq}
    (hrun : Seq.Runs s.params (s.commanded op a d).samples 0 n ((s.startSeq op a d).enter s.params) es q') {m : Nat}
    (hm : m < n) {e : Device} (he : e = Seq.seen s.params (s.commanded op a d).samples 0 (m + 1)
      ((s.startSeq op a d).enter s.params) s.env.dev.rested) :
    ((s.commanded op a d).cycles m).doPin = e.drive e.csPrev (Config.doFloat ((s.commanded op a d).cycles m).cycle) := by
  obtain ⟨hkind, hconduct, hminima, -⟩ := h.cycles_env hop (hrun.take (Nat.le_of_lt hm))
  obtain ⟨-, -, -, hdev⟩ := h.cycles_env hop (hrun.take hm)
  obtain ⟨hseq, -⟩ := State.commanded_seq h.quiet h.idle hop a d
  rw [← hseq] at hrun
  obtain ⟨-, hseqm⟩ := State.cycles_runs (State.commanded_quiet h.quiet op a d) (hrun.take (Nat.le_of_lt hm))
  have hwork : ((s.commanded op a d).cycles m).mwm.seq.work = (s.startSeq op a d).work := by
    rw [hseqm, Seq.edges_work, hseq, Seq.enter_work]
  have hnext : ((s.commanded op a d).cycles m).env.nextConduct ((s.commanded op a d).cycles m).mwm = .sound :=
    Env.nextConduct_sound hconduct fun _ => by rw [hwork, hminima]; exact h.exceeds op a d
  have hstep : (((s.commanded op a d).cycles m).env.observe ((s.commanded op a d).cycles m).params
      ((s.commanded op a d).cycles m).mwm ((s.commanded op a d).cycles m).cycle).dev = e := by
    rw [he, ← hdev, State.cycles_succ]
    rfl
  have hlevel : e.csPrev = ((s.commanded op a d).cycles m).mwm.seq.csQ := by
    rw [← hstep, Env.observe_sound _ _ hkind hnext]
    exact csLogical_csPin _ _
  rw [State.doPin_of_sound hkind hnext, hstep, hlevel]

end

/-! ## EWEN and EWDS -/

/-- EWEN or EWDS on the device: it takes the frame of the transaction, and the CS fall behind it starts no write. -/
theorem State.Attached.enable {s : State} (h : s.Attached) {op : BitVec 3} {src : FrameSrc} {v : Frame} {wen : Bool}
    (hop : op = 3#3 ∧ src = .ewen ∨ op = 4#3 ∧ src = .ewds) (hv : ∀ w, src.raw s.params w = .wire9 v)
    (hf : v = 0x130#9 ∧ wen = true ∨ v = 0x100#9 ∧ wen = false) (a d : Byte) :
    ((s.commanded op a d).cycles s.mwm.host.enableTime).env.dev = s.env.dev.rested.enabled v wen := by
  obtain ⟨hw, -, hclk, -⟩ := State.startSeq_legal h.legal h.quiet h.idle op a d
  obtain ⟨hon, hsend, hoff, -⟩ := Seq.enable_currentOps (q := s.startSeq op a d) hop rfl v
  have hprog : 1 ≤ op.toNat ∧ op.toNat ≤ 5 := by rcases hop with ⟨rfl, -⟩ | ⟨rfl, -⟩ <;> decide
  obtain ⟨_, hrun, -⟩ := Seq.performs_enable (p := s.params) (b := (s.commanded op a d).samples) (q := s.startSeq op a d) 0
    rfl hw hclk (hv _) hon hsend hoff
  obtain ⟨hready, henabled⟩ := Device.enable_transaction (d := s.env.dev.rested) h.notBusy hf
  obtain ⟨-, -, -, hdev⟩ := h.cycles_env hprog hrun
  exact hdev.trans ((Seq.seen_enable (q := s.startSeq op a d) (d := s.env.dev.rested) 0 rfl hw hclk (hv _) hon hsend hoff h.notBusy rfl
    hready).trans henabled)

/-- Settles O53: each transaction does to the device what its frame says. -/
theorem enableCommandsReachDevice : Obligations.EnableCommandsReachDevice := by
  intro a d s hl hq hb hfollows hewen hewds hbusy hcs
  have hatt : s.Attached := ⟨hl, hq, hb, hfollows, hbusy, hcs⟩
  have reaches {op : BitVec 3} {src : FrameSrc} {v : Frame} {wen : Bool}
      (hop : op = 3#3 ∧ src = .ewen ∨ op = 4#3 ∧ src = .ewds) (hv : ∀ w, src.raw s.params w = .wire9 v)
      (hf : v = 0x130#9 ∧ wen = true ∨ v = 0x100#9 ∧ wen = false) :
      ∃ t, s.hostCycle (.write 0#3 (cmdWord op a d)) = .next t ∧ After s.mwm.host.enableTime t fun u =>
        u.env.dev.wen = wen ∧ u.env.dev.busy = false ∧ u.env.dev.mem = s.env.dev.mem := by
    refine ⟨s.commanded op a d, State.hostCycle_after hq.1 _, ?_⟩
    rw [after_iff_cycles (State.commanded_quiet hq op a d).1, hatt.enable hop hv hf a d]
    exact ⟨rfl, hbusy, rfl⟩
  refine ⟨reaches (.inl ⟨rfl, rfl⟩) (fun _ => rfl) (.inl ⟨?_, rfl⟩), reaches (.inr ⟨rfl, rfl⟩) (fun _ => rfl)
    (.inr ⟨?_, rfl⟩)⟩
  · rw [hewen]
    rfl
  · rw [hewds]
    rfl

end Sys2Proof.Machine
end

section
/-! WRITE and READ on the reference device (40_primitives.md R143, 95_test_vectors.md V1.1): the slot that ends the poll, the
cell that holds the byte afterwards, and the byte that READ returns. -/

namespace Sys2Proof.Machine

/-! ## The poll of a WRITE -/

/-- The write cycle that a WRITE of `v` to cell `a` starts. -/
def State.writeCycle (a : DevAddr) (v : Byte) (s : State) : WriteCycle := ⟨s.env.dev.mode, s.env.dev.mem, a, v⟩

/-- The counts that the write cycle has taken `n` cycles into slot `j` of the poll. -/
def State.slotCounts (a : DevAddr) (v : Byte) (s : State) (j n : Nat) : Nat :=
  (s.writeCycle a v).counts (2 * s.mwm.host.tCs.toNat - 1) false +
    (j * (s.writeCycle a v).counts (2 * s.mwm.host.tHalf.toNat) s.mwm.host.pollClk +
      (s.writeCycle a v).counts n s.mwm.host.pollClk)

/-- The parameters name the frames of the reference device (R9, R104). -/
structure State.WritesDevice (s : State) : Prop where
  header : s.params.writeHdr = 0x140#16
  ewen : s.params.ewenFrame = 0x130#16
  ewds : s.params.ewdsFrame = 0x100#16

theorem addrFrame_write (a : DevAddr) : addrFrame 0x140#16 (a.setWidth 8) = 0b101#3 ++ a := by revert a; decide

theorem addrFrame_read (a : DevAddr) : addrFrame 0x180#16 (a.setWidth 8) = 0b110#3 ++ a := by revert a; decide

theorem Device.Polled.drive {w : WriteCycle} {r : Nat} {clk : Bool} {d : Device} (h : d.Polled w r true clk)
    (undriven : Bool) : d.drive d.csPrev undriven = decide (r = 0) := by
  rw [h.csPrev]
  by_cases hr : r = 0
  · rw [Device.drive_cmdIn (h.pending.busy.trans (by simp [hr])) h.phase, decide_eq_true (h.n rfl), decide_eq_true hr]
  · rw [Device.drive_busy (h.pending.busy.trans (by simp; omega)), decide_eq_false hr]

section
variable {s : State} {a : DevAddr} {v : Byte} {j : Nat}

/-- From the accept edge of a WRITE to `n` cycles into slot `j`. -/
theorem State.Attached.seen_poll (h : s.Attached) (hdev : s.WritesDevice)
    (hj : ∀ i, i < j → s.pollSample 2#3 (a.setWidth 8) v i = false) {n : Nat} (hpos : 1 ≤ n)
    (hn : n ≤ 2 * s.mwm.host.tHalf.toNat) :
    (Seq.seen s.params (s.commanded 2#3 (a.setWidth 8) v).samples 0
        (s.mwm.host.pollStart + (pollCycles s.mwm.host.tHalf.toNat j + n))
        ((s.startSeq 2#3 (a.setWidth 8) v).enter s.params) s.env.dev.rested).Polled (s.writeCycle a v)
      (s.env.dev.devBusy - s.slotCounts a v j n) true
      (s.mwm.host.pollClk && decide (n ≤ s.mwm.host.tHalf.toNat)) := by
  obtain ⟨hw, -, hclk, -⟩ := State.startSeq_legal h.legal h.quiet h.idle 2#3 (a.setWidth 8) v
  have hhead := Seq.performs_writeHead (p := s.params) (b := (s.commanded 2#3 (a.setWidth 8) v).samples)
    (q := s.startSeq 2#3 (a.setWidth 8) v) 0 rfl hw hclk (.inl rfl) rfl
  have hempty : ∀ i, i < j → (s.commanded 2#3 (a.setWidth 8) v).samples
      (0 + s.mwm.host.pollStart + 2 * s.mwm.host.tHalf.toNat * (i + 1) - 1) = false := by
    rw [Nat.zero_add]
    exact hj
  have hslots := Seq.performs_emptySlots (p := s.params) (b := (s.commanded 2#3 (a.setWidth 8) v).samples) (k := j)
    (q := s.pollSeq 2#3 (a.setWidth 8) v) (bounded := false) rfl hw rfl hempty (fun hbound => by cases hbound)
  have hstart := Seq.seen_writeHead (p := s.params) (b := (s.commanded 2#3 (a.setWidth 8) v).samples)
    (q := s.startSeq 2#3 (a.setWidth 8) v) (d := s.env.dev.rested) (a := a) 0 rfl hw hclk (.inl rfl) rfl
    (by rw [hdev.ewen]; rfl) (by rw [hdev.header]; exact addrFrame_write a) h.notBusy rfl
  have hfront := Seq.seen_emptySlots (p := s.params) (b := (s.commanded 2#3 (a.setWidth 8) v).samples) (k := j)
    (q := s.pollSeq 2#3 (a.setWidth 8) v) (bounded := false) (0 + s.mwm.host.pollStart) rfl hw rfl rfl rfl hempty
    (fun hbound => by cases hbound) hstart
  have hslot := Seq.seen_slot (p := s.params) (b := (s.commanded 2#3 (a.setWidth 8) v).samples) (n := n)
    (q := (s.pollSeq 2#3 (a.setWidth 8) v).countSlots j) (bounded := false)
    (0 + s.mwm.host.pollStart + pollCycles s.mwm.host.tHalf.toNat j) rfl hw rfl rfl rfl hpos hn hfront
  have hseen := hhead.seen_then (d := s.env.dev.rested) rfl (hslots.seen_then rfl (n := n) rfl)
  rw [Nat.sub_sub, Nat.sub_sub] at hslot
  exact Eq.mpr (congrArg (Device.Polled _ _ true _) hseen) hslot

/-- The poll of a WRITE is busy at least to the end of the slot after those that sampled 0. -/
theorem State.Attached.runs_slot (h : s.Attached) {d : Byte} {a : Byte} (hj : ∀ i, i < j → s.pollSample 2#3 a d i = false) :
    ∃ es q, Seq.Runs s.params (s.commanded 2#3 a d).samples 0
      (s.mwm.host.pollStart + pollCycles s.mwm.host.tHalf.toNat j + 2 * s.mwm.host.tHalf.toNat)
      ((s.startSeq 2#3 a d).enter s.params) es q := by
  obtain ⟨hw, -⟩ := State.startSeq_legal h.legal h.quiet h.idle 2#3 a d
  obtain ⟨_, hrun, -⟩ := State.commanded_emptySlots h.legal h.quiet h.idle (.inl rfl) hj fun hop => by cases hop
  have hcur : ((s.pollSeq 2#3 a d).countSlots j).currentOp = some (.poll false) := rfl
  rw [Seq.enter_of_some hcur] at hrun
  obtain ⟨es, hslot⟩ := Seq.runs_slot (p := s.params) (b := (s.commanded 2#3 a d).samples)
    (c := 0 + (s.mwm.host.pollStart + pollCycles s.mwm.host.tHalf.toNat j))
    (q := (s.pollSeq 2#3 a d).countSlots j) rfl hw hcur
  exact ⟨_, _, hrun.trans hslot⟩

/-- A slot samples 1 once its counts have run out the busy time (R86, R143). -/
theorem State.Attached.pollSample (h : s.Attached) (hdev : s.WritesDevice) (hsync : s.env.asyncDo = false)
    (hj : ∀ i, i < j → s.pollSample 2#3 (a.setWidth 8) v i = false) :
    s.pollSample 2#3 (a.setWidth 8) v j =
      decide (s.env.dev.devBusy ≤ s.slotCounts a v j (2 * s.mwm.host.tHalf.toNat - 2)) := by
  obtain ⟨hw, -⟩ := State.startSeq_legal h.legal h.quiet h.idle 2#3 (a.setWidth 8) v
  have hhalf : 2 ≤ s.mwm.host.tHalf.toNat := hw.half_ge
  obtain ⟨_, _, hrun⟩ := h.runs_slot hj
  have hpolled := h.seen_poll hdev hj (n := 2 * s.mwm.host.tHalf.toNat - 2) (by omega) (by omega)
  have hcycle : s.mwm.host.pollStart + (pollCycles s.mwm.host.tHalf.toNat j + (2 * s.mwm.host.tHalf.toNat - 2)) =
      s.mwm.host.pollStart + 2 * s.mwm.host.tHalf.toNat * (j + 1) - 3 + 1 := by
    rw [pollCycles, Nat.mul_succ]
    omega
  have hless : s.mwm.host.pollStart + 2 * s.mwm.host.tHalf.toNat * (j + 1) - 3 <
      s.mwm.host.pollStart + pollCycles s.mwm.host.tHalf.toNat j + 2 * s.mwm.host.tHalf.toNat := by
    rw [pollCycles, Nat.mul_succ]
    omega
  rw [hcycle] at hpolled
  rw [State.pollSample_eq_doPin h.legal h.quiet hsync, h.doPin (by decide) hrun hless rfl, hpolled.drive]
  simp [Nat.sub_eq_zero_iff_le]

/-! ## The slot that ends the poll (R143) -/

theorem State.slotCounts_cycles (hmode : s.env.dev.mode = .cycles) (a : DevAddr) (v : Byte) (j n : Nat) :
    s.slotCounts a v j n = 2 * s.mwm.host.tCs.toNat - 1 + (j * (2 * s.mwm.host.tHalf.toNat) + n) := by
  simp only [State.slotCounts, WriteCycle.counts, State.writeCycle, hmode]

theorem State.slotCounts_pulses (hmode : s.env.dev.mode = .pulses) (a : DevAddr) (v : Byte) (j n : Nat) :
    s.slotCounts a v j n = (j + 1) * s.mwm.host.pollClk.toNat := by
  simp only [State.slotCounts, WriteCycle.counts, State.writeCycle, hmode, Bool.toNat_false, Nat.zero_add, Nat.succ_mul]

/-- Where slot K is the first that the busy time is over for, the samples before it are 0 and its own is 1. -/
theorem State.Attached.firstSample (h : s.Attached) (hdev : s.WritesDevice) (hsync : s.env.asyncDo = false) {k : Nat}
    (hk : ∀ j, s.env.dev.devBusy ≤ s.slotCounts a v j (2 * s.mwm.host.tHalf.toNat - 2) ↔ k ≤ j) :
    (∀ j, j < k → s.pollSample 2#3 (a.setWidth 8) v j = false) ∧ s.pollSample 2#3 (a.setWidth 8) v k = true := by
  have before (j : Nat) (hj : j < k) : s.pollSample 2#3 (a.setWidth 8) v j = false := by
    induction j using Nat.strong_induction_on with
    | _ j ih =>
      rw [h.pollSample hdev hsync fun i hi => ih i hi (by omega), decide_eq_false_iff_not, hk]
      omega
  refine ⟨before, ?_⟩
  rw [h.pollSample hdev hsync before, decide_eq_true_iff, hk]

/-- Where no slot ever gets there, every sample is 0. -/
theorem State.Attached.noSample (h : s.Attached) (hdev : s.WritesDevice) (hsync : s.env.asyncDo = false)
    (hnever : ∀ j, s.slotCounts a v j (2 * s.mwm.host.tHalf.toNat - 2) < s.env.dev.devBusy) (j : Nat) :
    s.pollSample 2#3 (a.setWidth 8) v j = false := by
  induction j using Nat.strong_induction_on with
  | _ j ih =>
    have := hnever j
    rw [h.pollSample hdev hsync ih, decide_eq_false_iff_not]
    omega

/-- The slots of `cycles` mode (R143). -/
theorem slots_cycles_iff {busy cs half j : Nat} (hcs : 1 ≤ cs) (hhalf : 2 ≤ half) :
    busy ≤ 2 * cs - 1 + (j * (2 * half) + (2 * half - 2)) ↔
      max 1 ((busy + 3 - 2 * cs + (2 * half - 1)) / (2 * half)) - 1 ≤ j := by
  have hdiv : (busy + 3 - 2 * cs + (2 * half - 1)) / (2 * half) ≤ j + 1 ↔
      busy + 3 - 2 * cs + (2 * half - 1) < (j + 1 + 1) * (2 * half) := by
    rw [← Nat.lt_succ_iff, Nat.div_lt_iff_lt_mul (by omega)]
  have hexpand : (j + 1 + 1) * (2 * half) = j * (2 * half) + 2 * half + 2 * half := by ring
  omega

/-- A WRITE on the device whose poll ends with its slot `k`, numbered from 0: its duration and `slot_ctr`. -/
theorem State.Attached.write_takes (h : s.Attached) {a d : Byte} {k : Nat}
    (hk : ∀ j, j < k → s.pollSample 2#3 a d j = false) (hone : s.pollSample 2#3 a d k = true) :
    (∀ n, n < s.mwm.host.writeTime (k + 1) → ((s.commanded 2#3 a d).cycles n).mwm.seq.busy = true) ∧
      ∃ q, ((s.commanded 2#3 a d).cycles (s.mwm.host.writeTime (k + 1))).Completed 2#3 q ∧
        q.slotCtr.toNat = min (k + 1) 0xFFFFFFFF := by
  obtain ⟨q, hperf, hend, hopq, hctr, -⟩ := State.commanded_write h.legal h.quiet h.idle (.inl rfl) hk
    (fun hop => by cases hop) hone (fun h0 => by cases h0)
  obtain ⟨hbusy, -⟩ := State.commanded_performs h.quiet h.idle (by decide) hperf
  obtain ⟨hdone, -⟩ := State.commanded_completes h.legal h.quiet h.idle (by decide)
    ((HostRegs.Legal.times_pos (h.legal.1 h.quiet.1).1).2.2 _) hperf hend hopq
  exact ⟨hbusy, q, hdone, hctr⟩

end

/-- Settles O55: the slot is the first whose counts run out the busy time, case by case. -/
theorem writeSlotsOnReferenceDevice : Obligations.WriteSlotsOnReferenceDevice := by
  intro a v s hl hq hb hfollows hsync hhdr hewen hewds hbusy hcs th cycleSlots takes
  have hatt : s.Attached := ⟨hl, hq, hb, hfollows, hbusy, hcs⟩
  have hdev : s.WritesDevice := ⟨hhdr, hewen, hewds⟩
  obtain ⟨hth, -, htcs, -⟩ := (hl.1 hq.1).1
  have htq := State.commanded_quiet hq 2#3 (a.setWidth 8) v
  have ends {k : Nat} (hpos : 1 ≤ k)
      (hk : ∀ j, s.env.dev.devBusy ≤ s.slotCounts a v j (2 * s.mwm.host.tHalf.toNat - 2) ↔ k - 1 ≤ j) :
      takes k (s.commanded 2#3 (a.setWidth 8) v) := by
    obtain ⟨i, rfl⟩ : ∃ i, k = i + 1 := ⟨k - 1, by omega⟩
    rw [Nat.add_sub_cancel] at hk
    obtain ⟨hbefore, hone⟩ := hatt.firstSample hdev hsync hk
    obtain ⟨hrunning, q, hdone, hctr⟩ := hatt.write_takes hbefore hone
    refine ⟨fun n hn => ?_, ?_⟩
    · rw [after_iff_cycles htq.1]
      exact hrunning n hn
    · rw [after_iff_cycles htq.1]
      exact ⟨hdone.idle, by rw [hdone.seq]; exact hctr⟩
  refine ⟨s.commanded 2#3 (a.setWidth 8) v, State.hostCycle_after hq.1 _, fun hmode => ends (Nat.le_max_left _ _) fun j => ?_,
    fun hmode hclk => ends (Nat.le_max_left _ _) fun j => ?_, fun hmode hclk hpos n => ?_⟩
  · rw [State.slotCounts_cycles hmode]
    exact slots_cycles_iff htcs hth
  · rw [State.slotCounts_pulses hmode, hclk, Bool.toNat_true]
    omega
  · rw [after_iff_cycles htq.1]
    refine State.commanded_write_hangs hl hq hb (hatt.noSample hdev hsync fun j => ?_) n
    rw [State.slotCounts_pulses hmode, hclk, Bool.toNat_false]
    omega

end Sys2Proof.Machine
end

section
/-! The round trip of a byte through the device (95_test_vectors.md V1.1): the machine after a WRITE, and the READ that
follows. -/

namespace Sys2Proof.Machine

/-! ## A silent host -/

theorem State.cycles_silent {t : State} (hs : t.script = []) (n : Nat) :
    (t.cycles n).script = [] ∧ (t.cycles n).mwm.host.tHalf = t.mwm.host.tHalf ∧
      (t.cycles n).mwm.host.tSu = t.mwm.host.tSu ∧ (t.cycles n).mwm.host.tCs = t.mwm.host.tCs := by
  induction n with
  | zero => exact ⟨hs, rfl, rfl, rfl⟩
  | succ n ih =>
    obtain ⟨hscript, hhalf, hsu, hcs⟩ := ih
    have hrst : (t.cycles n).rst = false := by simp [State.rst, hscript]
    have hacc : (t.cycles n).portAccess = .none := by simp [State.portAccess, State.req, hscript]
    have hhost := State.clkCycle_host hrst (t.cycles n).portAccess
    have hnext : (t.cycles n).nextScript = [] := by simp [State.nextScript, hscript]
    have hkept : ((t.cycles n).mwm.hostEdge (t.cycles n).params .none).host = (t.cycles n).mwm.host := rfl
    rw [hacc, hkept] at hhost
    rw [State.cycles_succ, hacc, State.clkCycle_script, hhost]
    split
    · exact ⟨hnext, hhalf, hsu, hcs⟩
    · exact ⟨hnext, hhalf, hsu, hcs⟩

section
variable {s : State} {a : DevAddr} {v : Byte}

/-- A command changes no timing. -/
theorem State.commanded_silent (hq : s.quiet) (hb : s.mwm.seq.busy = false) (hs : s.script = []) {op : BitVec 3}
    (hop : 1 ≤ op.toNat ∧ op.toNat ≤ 5) (a d : Byte) :
    (s.commanded op a d).script = [] ∧ (s.commanded op a d).mwm.host.tHalf = s.mwm.host.tHalf ∧
      (s.commanded op a d).mwm.host.tSu = s.mwm.host.tSu ∧ (s.commanded op a d).mwm.host.tCs = s.mwm.host.tCs := by
  refine ⟨by rw [State.commanded, State.clkCycle_script]; simp [State.nextScript, hs], ?_⟩
  rw [State.commanded, State.clkCycle_mwm_of_program ⟨hq.1, State.quiet_rst hq⟩ hb hop]
  exact ⟨rfl, rfl, rfl⟩

/-! ## After a WRITE -/

/-- The device at the completion edge of a WRITE whose poll ended with a sample of 1: the byte is in its cell, and writing
is disabled. -/
theorem State.Attached.write_device (h : s.Attached) (hdev : s.WritesDevice) (hsync : s.env.asyncDo = false) {k : Nat}
    (hk : ∀ j, j < k → s.pollSample 2#3 (a.setWidth 8) v j = false)
    (hone : s.pollSample 2#3 (a.setWidth 8) v k = true) :
    ∃ d : Device, d.Polled (s.writeCycle a v) 0 false false ∧
      ((s.commanded 2#3 (a.setWidth 8) v).cycles (s.mwm.host.writeTime (k + 1))).env.kind = .reference ∧
      ((s.commanded 2#3 (a.setWidth 8) v).cycles (s.mwm.host.writeTime (k + 1))).env.conduct = .sound ∧
      ((s.commanded 2#3 (a.setWidth 8) v).cycles (s.mwm.host.writeTime (k + 1))).env.minima = s.env.minima ∧
      ((s.commanded 2#3 (a.setWidth 8) v).cycles (s.mwm.host.writeTime (k + 1))).env.dev =
        d.enabled (s.params.ewdsFrame.setWidth 9) false := by
  obtain ⟨hw, -⟩ := State.startSeq_legal h.legal h.quiet h.idle 2#3 (a.setWidth 8) v
  have hhalf : 2 ≤ s.mwm.host.tHalf.toNat := hw.half_ge
  obtain ⟨_, ⟨_, hwhole, -⟩, -⟩ := State.commanded_write h.legal h.quiet h.idle (.inl rfl) hk (fun hop => by cases hop) hone
    (fun h0 => by cases h0)
  obtain ⟨hkind, hconduct, hminima, hdevice⟩ := h.cycles_env (by decide) hwhole
  have hslots := State.commanded_emptySlots h.legal h.quiet h.idle (.inl rfl) hk fun hop => by cases hop
  obtain ⟨q, hlast, hbusy, hwork, hupc, hclk, -, -⟩ := State.commanded_lastSlot h.legal h.quiet h.idle (.inl rfl) hone
    (fun h0 => by cases h0)
  have hpoll := hslots.trans (by rw [Nat.zero_add]; exact hlast)
  have hready : s.env.dev.devBusy - s.slotCounts a v k (2 * s.mwm.host.tHalf.toNat) = 0 := by
    have hcounted : s.env.dev.devBusy ≤ s.slotCounts a v k (2 * s.mwm.host.tHalf.toNat - 2) := by
      rw [h.pollSample hdev hsync hk] at hone
      exact of_decide_eq_true hone
    have hmore := (s.writeCycle a v).counts_add (2 * s.mwm.host.tHalf.toNat - 2) 2 s.mwm.host.pollClk
    rw [Nat.sub_add_cancel (by omega)] at hmore
    unfold State.slotCounts at hcounted ⊢
    omega
  have hpolled := h.seen_poll hdev hk (n := 2 * s.mwm.host.tHalf.toNat) (by omega) (Nat.le_refl _)
  rw [hready, ← Nat.add_assoc] at hpolled
  obtain ⟨d, hd, htail⟩ := Seq.seen_writeTail (p := s.params) (b := (s.commanded 2#3 (a.setWidth 8) v).samples)
    (0 + (s.mwm.host.pollStart + pollCycles s.mwm.host.tHalf.toNat k + 2 * s.mwm.host.tHalf.toNat)) hbusy (hwork ▸ hw) hclk
    (hwork ▸ .inl rfl) hupc (by rw [hdev.ewds]; rfl) hpolled
  refine ⟨d, hd, hkind, hconduct, hminima, hdevice.trans ?_⟩
  rw [hwork] at htail
  rw [s.mwm.host.writeTime_succ]
  exact hpoll.seen_then rfl htail

/-! ## READ -/

/-- The device that has taken a READ frame (R82). -/
def Device.reading (a : DevAddr) (d : Device) : Device :=
  { d.select with
    shreg := 0b110#3 ++ a, n := 9, a := a, snap := d.mem.read a.toNat, k := 0, phase := .readOut }

/-- READ up to its RECV8: the device has taken the frame. -/
theorem Seq.seen_readHead {p : Params} {b : Nat → Bool} (c : Nat) {q : Seq} {d : Device} (hq : q.busy = true)
    (hw : q.work.Legal) (hop : q.work.op = 1#3) (hupc : q.upc = 0#4) (hclk : q.clkQ = false)
    (haddr : addrFrame p.readHdr q.work.addr = 0b110#3 ++ a) (hb : d.busy = false) (hc : d.csPrev = false) :
    Seq.seen p b c q.work.readHeadCycles (q.enter p) d = d.reading a := by
  obtain ⟨hon, hsend, -⟩ := Seq.read_currentOps hop hupc (0b110#3 ++ a)
  have htaken := Seq.seen_send (p := p) (b := b) (q := q.afterCsOn) (d := d.select) (c + q.work.cs.toNat) (w := 9) hq hw
    hsend rfl hclk haddr rfl hb rfl rfl
  exact (Seq.performs_csOn c hq hw hon).seen_then (Seq.seen_csOn c hw hon hclk hb hc)
    (htaken.trans (Device.clockBits_read (d := d.select) hb rfl rfl a))

/-- Up to two cycles before the end of RECV cell `j` the device has taken that cell's read pulse, and drives bit 7 − j of its
byte (R83, R86). -/
theorem Seq.drive_reading {p : Params} {b : Nat → Bool} (c : Nat) {q : Seq} {d e : Device} {j : Nat} (hq : q.busy = true)
    (hw : q.work.Legal) (hop : q.work.op = 1#3) (hupc : q.upc = 0#4) (hclk : q.clkQ = false)
    (haddr : addrFrame p.readHdr q.work.addr = 0b110#3 ++ a) (hb : d.busy = false) (hc : d.csPrev = false) (hj : j < 8)
    (he : e = Seq.seen p b c (q.work.readHeadCycles + (j * cellCycles q.work.su.toNat q.work.th.toNat +
      (cellCycles q.work.su.toNat q.work.th.toNat - 2))) (q.enter p) d) (undriven : Bool) :
    e.drive e.csPrev undriven = (d.mem.read a.toNat).getLsbD (7 - j) := by
  obtain ⟨hon, hsend, hrecv⟩ := Seq.read_currentOps hop hupc (0b110#3 ++ a)
  have hhalf := hw.half_ge
  have hhead := (Seq.performs_csOn (p := p) (b := b) c hq hw hon).trans (Seq.performs_send (q := q.afterCsOn) (w := 9)
    (c + q.work.cs.toNat) hq hw hsend hclk haddr rfl)
  have hrecvStart : (q.afterCsOn.afterSend (0b110#3 ++ a)).enter p =
      { q.afterCsOn.afterSend (0b110#3 ++ a) with acc := 0#8 }.startRecvCell 0 := Seq.enter_of_some hrecv
  have hcs : { q.afterCsOn.afterSend (0b110#3 ++ a) with acc := 0#8 }.csQ = true := rfl
  let di : Bool := (q.afterCsOn.afterSend (0b110#3 ++ a)).diQ
  obtain ⟨_, acc, hrun, hcells⟩ := Seq.seen_recvCells (p := p) (b := b) (k := j) (d := d.reading a)
    (q := { q.afterCsOn.afterSend (0b110#3 ++ a) with acc := 0#8 }) (c + q.work.readHeadCycles) hq hw hrecv hcs hclk hb rfl
    rfl (by omega)
  obtain ⟨hb', hc', hk', -⟩ := Device.clockBits_keeps (d := d.reading a) hb (List.replicate j di)
  have hpulse := Seq.seen_recvCell (p := p) (b := b) (j := j) (n := cellCycles q.work.su.toNat q.work.th.toNat - 2)
    (q := { q.afterCsOn.afterSend (0b110#3 ++ a) with acc := acc })
    (c + q.work.readHeadCycles + j * cellCycles q.work.su.toNat q.work.th.toNat) hq hw hrecv hcs hclk hb' hc' hk'
    (by show q.work.su.toNat < _; unfold cellCycles; omega) (Nat.sub_le _ _)
  have hbehind := hhead.seen_then (seen_readHead c hq hw hop hupc hclk haddr hb hc)
    (n := j * cellCycles q.work.su.toNat q.work.th.toNat + (cellCycles q.work.su.toNat q.work.th.toNat - 2)) rfl
  rw [hrecvStart] at hbehind
  have hseen := he.trans (hbehind.trans ((Seq.seen_runs _ hrun).trans ((congrArg _ hcells).trans hpulse)))
  obtain ⟨-, hc'', -⟩ := Device.clockRise_frame di hb'
  have hlevel : e.csPrev = true := by
    rw [hseen]
    exact hc''.trans hc'
  have hpulses : ((d.reading a).clockBits (List.replicate j di)).clockRise di =
      (d.reading a).clockBits (List.replicate (j + 1) di) := by
    rw [List.replicate_succ', Device.clockBits_append]
    rfl
  rw [hlevel, hseen]
  show (((d.reading a).clockBits (List.replicate j di)).clockRise di).drive true undriven = _
  rw [hpulses]
  exact Device.drive_clockBits_readOut (d := d.reading a) hb rfl rfl hj List.length_replicate undriven

/-- READ returns the byte of its cell. -/
theorem State.Attached.read_device (h : s.Attached) (hsync : s.env.asyncDo = false) (hhdr : s.params.readHdr = 0x180#16)
    (x : Byte) : ((s.commanded 1#3 (a.setWidth 8) x).cycles s.mwm.host.readTime).mwm.host.rdata =
      s.env.dev.mem.read a.toNat := by
  obtain ⟨hw, -, hclk, -⟩ := State.startSeq_legal h.legal h.quiet h.idle 1#3 (a.setWidth 8) x
  obtain ⟨⟨_, hrun, -⟩, -⟩ := State.commanded_read h.legal h.quiet h.idle (a.setWidth 8) x
  obtain ⟨-, hasync⟩ := Env.observe_kind s.env s.params s.mwm s.cycle
  have hhalf : 2 ≤ s.mwm.host.tHalf.toNat := hw.half_ge
  have hcs : 1 ≤ s.mwm.host.tCs.toNat := hw.cs_pos
  let cell := cellCycles s.mwm.host.tSu.toNat s.mwm.host.tHalf.toNat
  let head := (s.startSeq 1#3 (a.setWidth 8) x).work.readHeadCycles
  have hcell : 4 ≤ cell := by
    show 4 ≤ cellCycles _ _
    unfold cellCycles
    omega
  refine BitVec.eq_of_getLsbD_eq fun i hi => ?_
  obtain ⟨j, hj, rfl⟩ : ∃ j, j < 8 ∧ i = 7 - j := ⟨7 - i, by omega, by omega⟩
  have hsucc : (j + 1) * cell = j * cell + cell := Nat.succ_mul j cell
  have hless : (j + 1) * cell ≤ 8 * cell := Nat.mul_le_mul_right cell hj
  have hsample : head + (j + 1) * cell - 1 = head + (j + 1) * cell - 3 + 2 := by omega
  have hcycle : head + (j + 1) * cell - 3 + 1 = head + (j * cell + (cell - 2)) := by omega
  have hwithin : head + (j + 1) * cell - 3 < s.mwm.host.readTime := by
    have hwhole : s.mwm.host.readTime = 2 * s.mwm.host.tCs.toNat + 17 * cell := rfl
    have hhead : head = s.mwm.host.tCs.toNat + 9 * cell := rfl
    omega
  have hpin := h.doPin (by decide) hrun hwithin rfl
  have hread := Seq.drive_reading (p := s.params) (b := (s.commanded 1#3 (a.setWidth 8) x).samples) (j := j)
    (q := s.startSeq 1#3 (a.setWidth 8) x) (d := s.env.dev.rested) 0 rfl hw rfl rfl hclk
    (by rw [hhdr]; exact addrFrame_read a) h.notBusy rfl hj rfl
  rw [hcycle] at hpin
  rw [State.commanded_rdata h.legal h.quiet h.idle (a.setWidth 8) x hj]
  refine (congrArg (State.samples _) hsample).trans ?_
  rw [State.samples_eq_doPin (State.commanded_quiet h.quiet _ _ _) (hasync.trans hsync), hpin]
  exact hread _

end

/-- Settles O54: the WRITE leaves a machine and a device as attached as before, with the byte in its cell, and the READ
returns that byte. -/
theorem writeThenReadReturnsByte : Obligations.WriteThenReadReturnsByte := by
  intro a v x s hl hseen hscript hb hfollows hsync hrd hhdr hewen hewds hmode hbusy hcs
  have hq : s.quiet := ⟨hseen, fun q hq => by rw [hscript] at hq; cases hq⟩
  have hatt : s.Attached := ⟨hl, hq, hb, hfollows, hbusy, hcs⟩
  have hdev : s.WritesDevice := ⟨hhdr, hewen, hewds⟩
  obtain ⟨hth, -, htcs, -⟩ := (hl.1 hq.1).1
  let t := s.commanded 2#3 (a.setWidth 8) v
  have htq : t.quiet := State.commanded_quiet hq _ _ _
  let k := max 1 ((s.env.dev.devBusy + 3 - 2 * s.mwm.host.tCs.toNat + (2 * s.mwm.host.tHalf.toNat - 1)) /
    (2 * s.mwm.host.tHalf.toNat)) - 1
  obtain ⟨hbefore, hone⟩ := hatt.firstSample (a := a) (v := v) (k := k) hdev hsync fun j => by
    rw [State.slotCounts_cycles hmode]
    exact slots_cycles_iff htcs hth
  obtain ⟨-, q, hdone, -⟩ := hatt.write_takes hbefore hone
  obtain ⟨d, hd, hkind, hconduct, hminima, hdevice⟩ := hatt.write_device hdev hsync hbefore hone
  obtain ⟨htscript, hthalf, htsu, htcs'⟩ := State.commanded_silent hq hb hscript (op := 2#3) (by decide) (a.setWidth 8) v
  obtain ⟨-, huhalf, husu, hucs⟩ := State.cycles_silent htscript (s.mwm.host.writeTime (k + 1))
  refine ⟨t, k + 1, State.hostCycle_after hq.1 _, Nat.succ_pos k, ?_⟩
  rw [after_iff_cycles htq.1]
  generalize hu : t.cycles (s.mwm.host.writeTime (k + 1)) = u at hdone hkind hconduct hminima hdevice huhalf husu hucs ⊢
  have huparams : u.params = s.params := by rw [← hu, State.cycles_params]; rfl
  have husync : u.env.asyncDo = false := by
    rw [← hu, State.cycles_asyncDo]
    exact (Env.observe_kind s.env s.params s.mwm s.cycle).2.trans hsync
  have hreadTime : u.mwm.host.readTime = s.mwm.host.readTime := by
    rw [HostRegs.readTime, huhalf.trans hthalf, husu.trans htsu, hucs.trans htcs']
    rfl
  have huatt : u.Attached := by
    refine ⟨hu ▸ State.cycles_legal htq (State.commanded_legal hl hq _ _ _) _, hu ▸ State.quiet_cycles htq _, hdone.idle,
      ⟨hkind, hconduct, ?_⟩, by rw [hdevice]; exact hd.pending.busy, by rw [hdevice]; rfl⟩
    rw [hminima, huhalf.trans hthalf, husu.trans htsu, hucs.trans htcs']
    obtain ⟨-, -, hminimaOk⟩ := hfollows
    exact hminimaOk
  have hcells (c : Nat) : Memory.read u.env.dev.mem c = if c = a.toNat then v else Memory.read s.env.dev.mem c := by
    obtain ⟨-, ⟨hsorted, -⟩, -⟩ := hl
    have hmem : u.env.dev.mem = s.env.dev.mem.write a.toNat v := by
      rw [hdevice]
      exact hd.pending.mem
    rw [hmem, Memory.read_write hsorted]
  have hread := huatt.read_device (a := a) husync (by rw [huparams]; exact hrd) x
  obtain ⟨hperf, hend⟩ := State.commanded_read huatt.legal huatt.quiet huatt.idle (a.setWidth 8) x
  obtain ⟨hreadDone, -⟩ := State.commanded_completes huatt.legal huatt.quiet huatt.idle (by decide)
    (HostRegs.Legal.times_pos (huatt.legal.1 huatt.quiet.1).1).2.1 hperf hend rfl
  refine ⟨hdone.idle, hdone.done, hdone.noTimeout (by decide), by rw [hdevice]; rfl, hcells,
    u.commanded 1#3 (a.setWidth 8) x, State.hostCycle_after huatt.quiet.1 _, ?_⟩
  rw [after_iff_cycles (State.commanded_quiet huatt.quiet _ _ _).1, ← hreadTime]
  exact ⟨hreadDone.idle, hreadDone.done, by rw [hread, hcells, if_pos rfl]⟩

end Sys2Proof.Machine
end
